-- ==== Sys2Proof/Word.lean ====
section
/-! DEFINITION. The word types of the engine: bytes, halfwords, gray levels, glyph bitmaps (spec 00_scope.md R9, 10_state.md R22). -/

namespace Sys2Proof

/-- A byte: 8 bits, bit 0 least significant (R9). -/
abbrev Byte := BitVec 8

/-- A halfword of a descriptor: 16 bits (R9, R70). -/
abbrev Half := BitVec 16

/-- A gray level, 0 (lightest) to 3 (darkest) (R22). -/
abbrev Gray := BitVec 2

/-- An 8 × 8 glyph as one 64-bit word: `G(row, col)` is bit `63 - (8·row + col)` (R130). -/
abbrev Glyph := BitVec 64

/-- The number of bytes of the frame buffer (R6). -/
abbrev NB : Nat := 30000

end Sys2Proof
end

