-- ==== Sys2Proof/Syntax.lean ====
section
/-! DEFINITION. The operations of the engine, one constructor per row of spec/opcode_table.json, with the operands in the order of
spec 30_encoding.md R86. The operands are the fields of the descriptor as it carries them; their reading as numbers is Machine/Operands.lean's. -/

namespace Sys2Proof

/-- One operation with its operands (R12, R21, R81). -/
inductive Instr where
  /-- SETPX x, y, g (R100). -/
  | setpx (x y : Half) (g : Gray)
  /-- GETPX x, y (R101). -/
  | getpx (x y : Half)
  /-- FILL g (R102); CLEAR is FILL 0 (R87). -/
  | fill (g : Gray)
  /-- LINE x1, y1, x2, y2, g (R110). -/
  | line (x1 y1 x2 y2 : Half) (g : Gray)
  /-- RECT x, y, w, h, g, fill (R113). -/
  | rect (x y w h : Half) (g : Gray) (f : Bool)
  /-- CIRCLE x0, y0, r, g, fill (R116). -/
  | circle (x0 y0 r : Half) (g : Gray) (f : Bool)
  /-- CIRCLEAA x0, y0, r, g (R118). -/
  | circleaa (x0 y0 r : Half) (g : Gray)
  /-- GLYPH ch, x, y, g, scale, angle (R136). -/
  | glyph (ch : Byte) (x y : Half) (g : Gray) (scale : Byte) (angle : Half)
  /-- TEXT chars, x, y, g, scale, spacing, angle, reverse (R139). -/
  | text (chars : List Byte) (x y : Half) (g : Gray) (scale spacing : Byte) (angle : Half) (f : Bool)
  /-- WRCMD byte (R155). -/
  | wrcmd (imm8 : Byte)
  /-- WRDATA byte (R156). -/
  | wrdata (imm8 : Byte)
  /-- INIT (R157). -/
  | init
  /-- SETWIN cs, ce, rs, re (R158). -/
  | setwin (cs ce rs re : Half)
  /-- FLUSH (R159). -/
  | flush
  /-- LPM (R160). -/
  | lpm
  /-- HPM (R161). -/
  | hpm
  /-- SLEEP enabled (R162). -/
  | sleep (f : Bool)
  /-- DISPON enabled (R163). -/
  | dispon (f : Bool)
  /-- INVERT enabled (R164). -/
  | invert (f : Bool)
deriving DecidableEq, Repr

end Sys2Proof
end

