-- ==== Sys2Proof/WellFormed.lean ====
section
/-! DEFINITION. Which operations a descriptor can express. The widths of the operands are in their types; the one remaining check is the
16-bit character count of TEXT (spec 30_encoding.md R79). -/

namespace Sys2Proof

/-- The operation can be encoded: a TEXT has at most 65535 characters, "n = W5, 0 to 65535" (R79, R80). -/
def Instr.wellFormed : Instr → Bool
  | .setpx _ _ _ => true
  | .getpx _ _ => true
  | .fill _ => true
  | .line _ _ _ _ _ => true
  | .rect _ _ _ _ _ _ => true
  | .circle _ _ _ _ _ => true
  | .circleaa _ _ _ _ => true
  | .glyph _ _ _ _ _ _ => true
  | .text chars _ _ _ _ _ _ _ => decide (chars.length < 65536)
  | .wrcmd _ => true
  | .wrdata _ => true
  | .init => true
  | .setwin _ _ _ _ => true
  | .flush => true
  | .lpm => true
  | .hpm => true
  | .sleep _ => true
  | .dispon _ => true
  | .invert _ => true

end Sys2Proof
end

