-- ==== Sys2Proof/Decode.lean ====
section
/-! DEFINITION. Descriptors: the opcode map, the decoder, the encoder (spec 30_encoding.md R70 to R88). The decoder is total on any
list of halfwords and refuses an illegal descriptor by name, with the halfwords that follow it. -/

namespace Sys2Proof

/-- The seven descriptor formats (R70). -/
inductive Format where
  | Z | I | P | C | Q | G | T
deriving DecidableEq, Repr

/-- A row of the opcode map (R81): opcode, format, and which of the small fields of `W0` the operation uses (R72 to R79). -/
structure OpRow where
  opcode : Byte
  format : Format
  usesF  : Bool
  usesG  : Bool
deriving DecidableEq, Repr

/-- The opcode map (R81). -/
def opTable : List OpRow := [
  ⟨0x01, .P, false, true⟩,   -- SETPX
  ⟨0x02, .P, false, false⟩,  -- GETPX
  ⟨0x03, .Z, false, true⟩,   -- FILL
  ⟨0x10, .Q, false, true⟩,   -- LINE
  ⟨0x11, .Q, true, true⟩,    -- RECT
  ⟨0x12, .C, true, true⟩,    -- CIRCLE
  ⟨0x13, .C, false, true⟩,   -- CIRCLEAA
  ⟨0x20, .G, false, true⟩,   -- GLYPH
  ⟨0x21, .T, true, true⟩,    -- TEXT
  ⟨0x30, .I, false, false⟩,  -- WRCMD
  ⟨0x31, .I, false, false⟩,  -- WRDATA
  ⟨0x32, .Z, false, false⟩,  -- INIT
  ⟨0x33, .Q, false, false⟩,  -- SETWIN
  ⟨0x34, .Z, false, false⟩,  -- FLUSH
  ⟨0x35, .Z, false, false⟩,  -- LPM
  ⟨0x36, .Z, false, false⟩,  -- HPM
  ⟨0x37, .Z, true, false⟩,   -- SLEEP
  ⟨0x38, .Z, true, false⟩,   -- DISPON
  ⟨0x39, .Z, true, false⟩]   -- INVERT

/-- The row of an opcode, none for the 237 unassigned values (R81, R84). -/
def rowOf (op : Byte) : Option OpRow := opTable.find? (fun r => r.opcode == op)

/-! ### The fields of a halfword (R9, R72, R74) -/

/-- `W[15:8]`. -/
def hiByte (w : Half) : Byte := w.extractLsb' 8 8
/-- `W[7:0]`. -/
def loByte (w : Half) : Byte := w.extractLsb' 0 8
/-- `W0[15:8]`: the opcode. -/
def opcodeOf (w0 : Half) : Byte := hiByte w0
/-- `W0[7:3]`: reserved, must be 0 but in format I. -/
def reservedOf (w0 : Half) : BitVec 5 := w0.extractLsb' 3 5
/-- `W0[2]`: the boolean. -/
def fOf (w0 : Half) : Bool := w0.getLsbD 2
/-- `W0[1:0]`: the gray level. -/
def gOf (w0 : Half) : Gray := w0.extractLsb' 0 2

/-- The characters of a run of halfwords, high byte first (R79). -/
def charsOf (ws : List Half) : List Byte := ws.flatMap (fun w => [hiByte w, loByte w])

/-! ### Length (R83) -/

/-- `ceil(n/2)`: the halfwords `n` characters take (R79). -/
def charHalves (n : Nat) : Nat := (n + 1) / 2

/-- The number of halfwords of a descriptor of each format; of format T the six before the characters (R70, R83). -/
def fixedLength : Format → Nat
  | .Z => 1
  | .I => 1
  | .P => 3
  | .C => 4
  | .Q => 5
  | .G => 5
  | .T => 6

/-- The length in halfwords of the descriptor that `ws` begins with: from `W0[15:8]` alone, for format T from `W5` as well;
1 for an unknown opcode (R83). -/
def descriptorLength (ws : List Half) : Nat :=
  match rowOf (opcodeOf (ws.headD 0)) with
  | none => 1
  | some row =>
    match row.format with
    | .T => 6 + charHalves (ws.getD 5 0).toNat
    | fmt => fixedLength fmt

/-! ### Legality (R82) -/

/-- Why a descriptor is illegal: one name for each of R82 (a) to (e). R82 (f), CIRCLEAA without `HAS_AA`, depends on the
configuration and is tested by the operation itself, before its operand test, with the same outcome (REJECT). -/
inductive Illegal where
  /-- (a) `W0[15:8]` is none of the nineteen opcodes. -/
  | unknownOpcode
  /-- (b) `W0[7:3]` is not 0. -/
  | reservedBits
  /-- (c) `W0[2]` is not 0 and the operation has no boolean. -/
  | unusedBoolean
  /-- (d) `W0[1:0]` is not 0 and the operation has no gray level. -/
  | unusedGray
  /-- (e) TEXT with an odd count and a padding byte that is not 0. -/
  | padding
deriving DecidableEq, Repr

/-- R82 (b) to (e) on the halfwords `d` of one descriptor of the operation of `row`. -/
def illegality (row : OpRow) (d : List Half) : Option Illegal :=
  if row.format ≠ .I ∧ reservedOf (d.headD 0) ≠ 0 then some .reservedBits
  else if row.format ≠ .I ∧ row.usesF = false ∧ fOf (d.headD 0) = true then some .unusedBoolean
  else if row.format ≠ .I ∧ row.usesG = false ∧ gOf (d.headD 0) ≠ 0 then some .unusedGray
  else if row.format = .T ∧ (d.getD 5 0).toNat % 2 = 1 ∧ loByte (d.getLastD 0) ≠ 0 then some .padding
  else none

/-! ### The decoder -/

/-- The operation of a legal descriptor with opcode `op`, halfword `w0` and operand halfwords `ops` (R73 to R79, R81). -/
def assembleOps (op : Nat) (w0 : Half) (ops : List Half) : Option Instr :=
  match op with
  | 0x01 => match ops with | [x, y] => some (.setpx x y (gOf w0)) | _ => none
  | 0x02 => match ops with | [x, y] => some (.getpx x y) | _ => none
  | 0x03 => match ops with | [] => some (.fill (gOf w0)) | _ => none
  | 0x10 => match ops with | [x1, y1, x2, y2] => some (.line x1 y1 x2 y2 (gOf w0)) | _ => none
  | 0x11 => match ops with | [x, y, w, h] => some (.rect x y w h (gOf w0) (fOf w0)) | _ => none
  | 0x12 => match ops with | [x0, y0, r] => some (.circle x0 y0 r (gOf w0) (fOf w0)) | _ => none
  | 0x13 => match ops with | [x0, y0, r] => some (.circleaa x0 y0 r (gOf w0)) | _ => none
  | 0x20 => match ops with | [x, y, angle, sc] => some (.glyph (loByte sc) x y (gOf w0) (hiByte sc) angle) | _ => none
  | 0x21 =>
    match ops with
    | x :: y :: angle :: ss :: n :: cs =>
      some (.text ((charsOf cs).take n.toNat) x y (gOf w0) (hiByte ss) (loByte ss) angle (fOf w0))
    | _ => none
  | 0x30 => match ops with | [] => some (.wrcmd (loByte w0)) | _ => none
  | 0x31 => match ops with | [] => some (.wrdata (loByte w0)) | _ => none
  | 0x32 => match ops with | [] => some .init | _ => none
  | 0x33 => match ops with | [cs, ce, rs, re] => some (.setwin cs ce rs re) | _ => none
  | 0x34 => match ops with | [] => some .flush | _ => none
  | 0x35 => match ops with | [] => some .lpm | _ => none
  | 0x36 => match ops with | [] => some .hpm | _ => none
  | 0x37 => match ops with | [] => some (.sleep (fOf w0)) | _ => none
  | 0x38 => match ops with | [] => some (.dispon (fOf w0)) | _ => none
  | 0x39 => match ops with | [] => some (.invert (fOf w0)) | _ => none
  | _ => none

/-- The operation of a legal descriptor. -/
def assemble : List Half → Option Instr
  | [] => none
  | w0 :: ops => assembleOps (opcodeOf w0).toNat w0 ops

/-- What the decoder reads from the halfwords on the host port: an operation and the halfwords after its descriptor; an illegal
descriptor, why, and the halfwords after it; or a descriptor whose end has not come yet (R83). -/
inductive Decoded where
  | ok (i : Instr) (rest : List Half)
  | illegal (why : Illegal) (rest : List Half)
  | waiting
deriving DecidableEq, Repr

/-- The decoder (R70 to R84). -/
def decode : List Half → Decoded
  | [] => .waiting
  | w0 :: ws =>
    match rowOf (opcodeOf w0) with
    | none => .illegal .unknownOpcode ws
    | some row =>
      let len := descriptorLength (w0 :: ws)
      if (w0 :: ws).length < len then .waiting
      else
        let d := (w0 :: ws).take len
        let rest := (w0 :: ws).drop len
        match illegality row d with
        | some why => .illegal why rest
        | none =>
          match assemble d with
          | some i => .ok i rest
          | none => .illegal .unknownOpcode rest  -- never: every legal descriptor assembles

/-! ### The encoder -/

/-- `W0` of every format but I (R72). -/
def word0 (op : Byte) (f : Bool) (g : Gray) : Half := op ++ (0#5) ++ BitVec.ofBool f ++ g

/-- `W0` of format I (R72, R74). -/
def wordI (op imm8 : Byte) : Half := op ++ imm8

/-- Characters two to a halfword, the first in the high byte, an odd last one followed by a zero byte (R79). -/
def packChars : List Byte → List Half
  | [] => []
  | [a] => [a ++ (0#8)]
  | a :: b :: t => (a ++ b) :: packChars t

/-- The descriptor of an operation (R72 to R81). -/
def encode : Instr → List Half
  | .setpx x y g => [word0 0x01 false g, x, y]
  | .getpx x y => [word0 0x02 false 0, x, y]
  | .fill g => [word0 0x03 false g]
  | .line x1 y1 x2 y2 g => [word0 0x10 false g, x1, y1, x2, y2]
  | .rect x y w h g f => [word0 0x11 f g, x, y, w, h]
  | .circle x0 y0 r g f => [word0 0x12 f g, x0, y0, r]
  | .circleaa x0 y0 r g => [word0 0x13 false g, x0, y0, r]
  | .glyph ch x y g scale angle => [word0 0x20 false g, x, y, angle, scale ++ ch]
  | .text chars x y g scale spacing angle f =>
    word0 0x21 f g :: x :: y :: angle :: (scale ++ spacing) :: BitVec.ofNat 16 chars.length :: packChars chars
  | .wrcmd b => [wordI 0x30 b]
  | .wrdata b => [wordI 0x31 b]
  | .init => [word0 0x32 false 0]
  | .setwin cs ce rs re => [word0 0x33 false 0, cs, ce, rs, re]
  | .flush => [word0 0x34 false 0]
  | .lpm => [word0 0x35 false 0]
  | .hpm => [word0 0x36 false 0]
  | .sleep f => [word0 0x37 f 0]
  | .dispon f => [word0 0x38 f 0]
  | .invert f => [word0 0x39 f 0]

/-- The pseudo-operation CLEAR assembles to FILL 0 and has no encoding of its own (R87). -/
def clearOp : Instr := .fill 0

/-! ### Byte streams (R71) -/

/-- A descriptor on a byte stream: each halfword most significant byte first (R71). -/
def toByteStream (ws : List Half) : List Byte := ws.flatMap (fun w => [hiByte w, loByte w])

/-- The halfwords of a byte stream, most significant byte first; a single last byte is not yet a halfword (R71). -/
def ofByteStream : List Byte → List Half
  | a :: b :: t => (a ++ b) :: ofByteStream t
  | _ => []

/-! ### The table's numbering -/

/-- The halfwords of the descriptor whose bits are `w`, numbered as spec/opcode_table.json numbers them (bit 0 is the least
significant bit of `W0`, `W1` is bits 31..16), every bit from `nbits` up 0, at its full length (R83). -/
def tableDescriptor (nbits w : Nat) : List Half :=
  let k := max 6 ((nbits + 15) / 16)
  let ws := (List.range k).map (fun j => BitVec.ofNat 16 ((w % 2 ^ nbits) >>> (16 * j)))
  let len := descriptorLength ws
  ws.take len ++ List.replicate (len - k) 0

/-- The operation the decoder reads from a table word (none where it refuses it). -/
def decodeTableWord (nbits w : Nat) : Option Instr :=
  match decode (tableDescriptor nbits w) with
  | .ok i _ => some i
  | .illegal _ _ => none
  | .waiting => none

end Sys2Proof
end

