-- ==== Sys2Proof/Config.lean ====
section
/-! DEFINITION. The configuration of the engine (spec 00_scope.md R7, R8, 10_state.md R38) as plain data, and the free values
the spec leaves open, as opaque constants. The parameters the spec decides have their values in Machine/Params.lean. -/

namespace Sys2Proof

/-- The two bit positions of one sub-pixel's field: `hi` carries bit 1 of the level, `lo` bit 0 (R42, R43). -/
structure FieldPos where
  hi : Fin 8
  lo : Fin 8
deriving DecidableEq, Repr

/-- `LAYOUT`: the field of each sub-pixel `(sx, sy)` of a block; `p10` is sub-pixel `(1, 0)` (R7). -/
structure Layout where
  p00 : FieldPos
  p10 : FieldPos
  p01 : FieldPos
  p11 : FieldPos
deriving DecidableEq, Repr

/-- The eight bit positions of a layout. -/
def Layout.positions (L : Layout) : List (Fin 8) :=
  [L.p00.hi, L.p00.lo, L.p10.hi, L.p10.lo, L.p01.hi, L.p01.lo, L.p11.hi, L.p11.lo]

/-- A legal `LAYOUT`: the eight positions are a permutation of 0 to 7, that is, pairwise distinct (R7). -/
abbrev Layout.Legal (L : Layout) : Prop := L.positions.Nodup

/-- One entry of a command table: command byte, data bytes, delay in milliseconds (R8, R154). -/
structure TableEntry where
  cmd   : Byte
  data  : List Byte
  delay : Nat
deriving DecidableEq, Repr

/-- An axis-parallel box in cell offsets (R135). -/
structure Box where
  uMin : Int
  vMin : Int
  uMax : Int
  vMax : Int
deriving DecidableEq, Repr, Inhabited

/-- One value of `ROT`: where cell pixel `(u, v)` goes (R134). -/
structure RotEntry where
  angle  : Nat
  scale  : Nat
  u      : Nat
  v      : Nat
  offset : Int × Int
deriving DecidableEq, Repr

/-- One value of `BBOX` (R135). -/
structure BoxEntry where
  angle : Nat
  scale : Nat
  box   : Box
deriving DecidableEq, Repr

/-- `XLEN`: the width of a signed operand. The spec decides 16-bit two's complement and gives no other (R8, D3). -/
inductive OperandWidth where
  | bits16
deriving DecidableEq, Repr

/-- The power mode `PM` (R25). -/
inductive Machine.PowerMode where
  | highPower
  | lowPower
deriving DecidableEq, Repr

/-- The parameters the spec leaves OPEN (R8: D10, D11, D12, D17, D18). `font` is the font table: the entries
of the characters that exist; the others are absent (R130). `rot`, `bbox` list values of `ROT`, `BBOX` off the right angles; a value
they do not list is free (R134, R135; log 9). -/
structure OpenParams where
  hasAA       : Bool
  font        : List (Byte × Glyph)
  rot         : List RotEntry
  bbox        : List BoxEntry
  cmdCaset    : Byte
  cmdRaset    : Byte
  cmdRamwr    : Byte
  cmdLpm      : Byte
  cmdHpm      : Byte
  cmdSlpin    : Byte
  cmdSlpout   : Byte
  cmdDispon   : Byte
  cmdDispoff  : Byte
  cmdInvon    : Byte
  cmdInvoff   : Byte
  initTable   : List TableEntry
  lpmTable    : List TableEntry
  hpmTable    : List TableEntry
  winCs       : Byte
  winCe       : Byte
  winRs       : Byte
  winRe       : Byte
  tRstAssert  : Nat
  tRstRelease : Nat
  tLpm        : Nat
  tHpm        : Nat
  tSlpin      : Nat
  tSlpout     : Nat
  tDispon     : Nat
  tDispoff    : Nat
  tInvon      : Nat
  tInvoff     : Nat
deriving DecidableEq, Repr, Inhabited

/-- The whole configuration: the OPEN parameters and the five the spec decides (R8: D3, D4, D14, D19). -/
structure Config extends OpenParams where
  layout  : Layout
  newline : Byte
  lineGap : Nat
  xlen    : OperandWidth
  pmReset : Machine.PowerMode
deriving DecidableEq, Repr

/-- The transport's answer to one transaction (R153): all bytes transferred, failed after `j` bytes, or
stopped for ever after `j` bytes. -/
inductive BusAnswer where
  | done
  | fail (j : Nat)
  | stall (j : Nat)
deriving DecidableEq, Repr, Inhabited

/-- The OPEN parameters of the chip at hand: nothing is assumed of them (R8, R166; log 6). -/
opaque Config.chip : OpenParams

/-- Free value: the transport's answer number `k`, where the state lists none (R153; log 4). -/
opaque Config.freeAnswer : Nat → BusAnswer

/-- Free value: what CIRCLEAA with operands `x0, y0, r, g` wants at band pixel `(px, py)`: no write, or a level (R118, R52; log 8). -/
opaque Config.freeBand : Int → Int → Int → Gray → Int → Int → Option Gray

/-- Free value: `ROT(a, scale, u, v)` off the right angles where the configuration lists none (R134; log 9). -/
opaque Config.rawRot : Nat → Nat → Nat → Nat → Int × Int

/-- Free value: `BBOX(a, scale)` off the right angles where the configuration lists none (R135; log 9). -/
opaque Config.rawBBox : Nat → Nat → Box

end Sys2Proof
end

