-- ==== Sys2Proof/Machine/Types.lean ====
section
/-! DEFINITION. The small types of the engine's state and ports (spec 10_state.md R25 to R34, 43_display_protocol.md R151, R152). -/

namespace Sys2Proof.Machine

/-- The status of a completed operation (R180); code 3 does not exist. -/
inductive Status where
  | ok
  | reject
  | busFault
deriving DecidableEq, Repr

/-- Chip-select `CS` (R29). -/
inductive ChipSelect where
  | active
  | inactive
deriving DecidableEq, Repr

/-- The kind of a transaction and the value of the mode-select line `DC` (R29, R151). -/
inductive BusKind where
  | cmd
  | data
deriving DecidableEq, Repr

/-- The reset line `RST` (R29). -/
inductive ResetLine where
  | asserted
  | released
deriving DecidableEq, Repr

/-- The event alphabet of `TRACE` (R30). -/
inductive BusEvent where
  | dc (k : BusKind)
  | cs (a : ChipSelect)
  | byte (b : Byte)
  | rst (a : ResetLine)
  | delay (ms : Nat)
deriving DecidableEq, Repr

/-- A completion record (R34, R180). -/
structure Completion where
  status : Byte
  value  : Gray
deriving DecidableEq, Repr

/-- The engine is idle, or executing one operation, whose operands its latches hold (R21, R197). -/
inductive Engine where
  | idle
  | executing (op : Instr)
deriving DecidableEq, Repr

/-- One request of a protocol operation to the bus and delay ports (R151, R152). -/
inductive BusAct where
  | xfer (kind : BusKind) (bytes : List Byte)
  | delay (ms : Nat)
  | rst (a : ResetLine)
deriving DecidableEq, Repr

/-- One call of the pixel-write primitive: a coordinate, on or off the panel, and a level (R44). -/
structure Plot where
  x : Int
  y : Int
  g : Gray
deriving DecidableEq, Repr

/-- One call of `DrawGlyph` by TEXT: the character and the corner of its cell (R139). -/
structure Place where
  ch : Byte
  gx : Int
  gy : Int
deriving DecidableEq, Repr

end Sys2Proof.Machine
end

