-- ==== Sys2Proof/Machine/Params.lean ====
section
/-! DEFINITION. The values the spec decides for its parameters (spec 00_scope.md R8: D3, D4, D14, D19) and the configuration after reset.
None of them is the source's; each is the spec's own decision. -/

namespace Sys2Proof.Machine.Params

/-- The decided `LAYOUT` (R42, D4): with `s = 2·sy + sx`, `hi = 7 - 2·s` and `lo = 6 - 2·s`. -/
def layout : Layout := ⟨⟨7, 6⟩, ⟨5, 4⟩, ⟨3, 2⟩, ⟨1, 0⟩⟩

/-- The decided `NEWLINE` (R139, D14). -/
def newline : Byte := 0x0A

/-- The decided default of `LINE_GAP` (R139, D14). -/
def lineGap : Nat := 0

/-- `PM_RESET` (R26, D19). -/
def pmReset : PowerMode := .highPower

/-- The decided `XLEN` (R8, D3). -/
def xlen : OperandWidth := .bits16

/-- The configuration of the machine after reset: the OPEN part is the chip's, of which nothing is assumed (R8; log 6). -/
def config : Config :=
  { Config.chip with layout := layout, newline := newline, lineGap := lineGap, xlen := xlen, pmReset := pmReset }

end Sys2Proof.Machine.Params
end

