-- ==== Sys2Proof/Machine/State.lean ====
section
/-! DEFINITION. The state of the engine (spec 10_state.md R20 to R39) and of its ports as plain data, the reasons a step can stop, and the
state after reset. -/

namespace Sys2Proof.Machine

/-- The bytes of the frame buffer that differ from `Memory.unlisted`, by rising index (R24, R40). -/
abbrev Memory := List Host.Cell

/-- What an unlisted index reads as: the reset contents of the buffer, "every byte 0x00" (R24, R39). -/
def Memory.unlisted : Byte := 0x00

/-- From index `lo` up: indices strictly rising and below `NB`, no entry equal to `Memory.unlisted`. -/
def Memory.wfFrom (lo : Nat) : Memory → Bool
  | [] => true
  | (a, v) :: m => decide (lo ≤ a) && decide (a < NB) && decide (v ≠ Memory.unlisted) && Memory.wfFrom (a + 1) m

/-- The canonical form of the frame buffer: equal buffers are equal lists. -/
def Memory.wf (m : Memory) : Bool := Memory.wfFrom 0 m

/-- The state. `fb` to `trace` are the whole architectural state of R20, `engine` is R197's idle or executing with the operand latches
of R21. `hostIn`, `hostOut` are the host port (R34), `answers` the transport's coming answers (R153), `free` the index of the next free
value, `cfg` the configuration (R8), which no operation writes (R38): the model's own fields. -/
structure State where
  /-- `FB` (R24). -/
  fb      : Memory
  /-- `PM` (R25). -/
  pm      : PowerMode
  /-- `FAULTED` (R27). -/
  faulted : Bool
  /-- `LAST` (R28). -/
  last    : Status
  /-- `CS` (R29). -/
  cs      : ChipSelect
  /-- `DC` (R29). -/
  dc      : BusKind
  /-- `RST` (R29). -/
  rst     : ResetLine
  /-- `TRACE` (R30), oldest event first. -/
  trace   : List BusEvent
  /-- Idle, or executing an operation (R21, R186, R197). -/
  engine  : Engine
  /-- Halfwords presented by the host and not yet consumed, next first (R34, R70). -/
  hostIn  : List Half
  /-- Completion records returned to the host, oldest first (R34, R180). -/
  hostOut : List Completion
  /-- The transport's coming answers, next first; past its end an answer is a free value (R153). -/
  answers : List BusAnswer
  /-- The index of the next free value. -/
  free    : Nat
  /-- The configuration (R8, R38). -/
  cfg     : Config
deriving DecidableEq, Repr

/-- Why the machine stops. -/
inductive Fault where
  /-- Raised by `step` only, in a state whose engine is still executing an operation the transport stalled: "an agent with no enabled
  step, not a final state" (R186, U8). Safe: the spec gives such an engine no step at all. -/
  | busStalled
deriving DecidableEq, Repr

/-- Why an instruction has no meaning. -/
inductive Refusal where
  /-- An instruction with no meaning in the model; raised by no arm, every operation has its meaning. Safe. -/
  | notModelled (mnemonic : String)
deriving DecidableEq, Repr

/-- The state after reset (R39, R210). `dc` is log 1's choice; the ports are empty (logs 2 to 5); the configuration is log 6's and 7's. -/
def State.reset : State where
  fb      := []
  pm      := Params.config.pmReset
  faulted := false
  last    := .ok
  cs      := .inactive
  dc      := .cmd
  rst     := .released
  trace   := []
  engine  := .idle
  hostIn  := []
  hostOut := []
  answers := []
  free    := 0
  cfg     := Params.config

/-- What a meaning answers. -/
abbrev Result := Host.Outcome State Fault Refusal

end Sys2Proof.Machine
end

