-- ==== Sys2Proof/Machine/Flags.lean ====
section
/-! DEFINITION. The status codes and the status byte (spec 10_state.md R25, R28, 60_exceptions.md R180). -/

namespace Sys2Proof.Machine

/-- The status codes: 0 OK, 1 REJECT, 2 BUSFAULT (R180). -/
def Status.code : Status → BitVec 2
  | .ok => 0
  | .reject => 1
  | .busFault => 2

/-- `PM` in the status byte: 0 HighPower, 1 LowPower (R25). -/
def PowerMode.code : PowerMode → BitVec 1
  | .highPower => 0
  | .lowPower => 1

/-- The status byte `0000 ++ PM ++ FAULTED ++ LAST` (R28). -/
def statusByte (s : State) : Byte :=
  (0#4) ++ s.pm.code ++ BitVec.ofBool s.faulted ++ s.last.code

/-- `FAULTED` after an operation that ends with status `st`: set by BUSFAULT, never cleared (R27, R180). -/
def faultedAfter (s : State) (st : Status) : Bool :=
  s.faulted || decide (st = .busFault)

end Sys2Proof.Machine
end

