-- ==== Sys2Proof/Machine/Operands.lean ====
section
/-! DEFINITION. The operand forms (spec 30_encoding.md R80, 42_text.md R133) and the codec of a frame-buffer byte (spec 20_memory.md R41 to R46). -/

namespace Sys2Proof.Machine

/-! ### Operands as numbers -/

/-- A coordinate, size, radius, angle or window operand: two's complement at the width `XLEN`, that is `sext_16` (R8, R9, R80). -/
def sx (cfg : Config) (v : Half) : Int :=
  match cfg.xlen with
  | .bits16 => v.toInt

/-- `zext` of a byte operand: scale, spacing (R9, R80). -/
def zx (v : Byte) : Nat := v.toNat

/-- `angle mod 360`, from 0 to 359 (R10, R133). -/
def angleOf (cfg : Config) (v : Half) : Nat := (sx cfg v % 360).toNat

/-- The integers from `a` to `b`, both included, rising; none if `b < a`. -/
def intRange (a b : Int) : List Int := (List.range (b - a + 1).toNat).map (fun k : Nat => a + k)

/-! ### Pixel addressing -/

/-- The coordinate is on the panel (R44, R48). -/
abbrev InPanel (x y : Int) : Prop := 0 ≤ x ∧ x < 300 ∧ 0 ≤ y ∧ y < 400

/-- `byte_index(x, y) = (y / 2) · 150 + x / 2` (R41). -/
def byteIndex (x y : Int) : Nat := (y / 2 * 150 + x / 2).toNat

/-- "giving 0 ≤ index ≤ 199·150 + 149 = 29999" (R40). -/
theorem byteIndex_lt {x y : Int} (h : InPanel x y) : byteIndex x y < NB := by
  unfold byteIndex NB
  unfold InPanel at h
  omega

/-- The index of a panel pixel's byte. -/
def pixelByte {x y : Int} (h : InPanel x y) : Fin NB := ⟨byteIndex x y, byteIndex_lt h⟩

/-- `LAYOUT(sx, sy)` of the sub-pixel `(x mod 2, y mod 2)` (R42). -/
def fieldOf (L : Layout) (x y : Int) : FieldPos :=
  match decide (x % 2 = 1), decide (y % 2 = 1) with
  | false, false => L.p00
  | true, false => L.p10
  | false, true => L.p01
  | true, true => L.p11

/-- `b` with bit `i` set to `v`. -/
def setBit (b : Byte) (i : Fin 8) (v : Bool) : Byte :=
  if v then b ||| (1#8 <<< i.val) else b &&& ~~~ (1#8 <<< i.val)

/-- `b` with the field at `p` holding `g`: bit 1 of `g` at `hi`, bit 0 at `lo` (R43, R44). -/
def setField (p : FieldPos) (g : Gray) (b : Byte) : Byte :=
  setBit (setBit b p.hi (g.getLsbD 1)) p.lo (g.getLsbD 0)

/-- The level in the field at `p` (R45). -/
def getField (p : FieldPos) (b : Byte) : Gray :=
  BitVec.ofBool (b.getLsbD p.hi) ++ BitVec.ofBool (b.getLsbD p.lo)

/-- `PACK4(g)`: the byte all of whose four fields hold `g` (R46). -/
def pack4 (L : Layout) (g : Gray) : Byte :=
  setField L.p11 g (setField L.p01 g (setField L.p10 g (setField L.p00 g 0)))

/-- `UNPACK(b)`: the levels of the sub-pixels (0,0), (1,0), (0,1), (1,1) (R46). -/
def unpack (L : Layout) (b : Byte) : List Gray :=
  [getField L.p00 b, getField L.p10 b, getField L.p01 b, getField L.p11 b]

end Sys2Proof.Machine
end

