-- ==== Sys2Proof/Machine/Ops.lean ====
section
/-! DEFINITION. The named operations every meaning is written over: the frame buffer and its pixels (spec 20_memory.md R40 to R46), the bus
(spec 43_display_protocol.md R151 to R154), completion, rejection and the bus fault (spec 60_exceptions.md R180 to R190), the host port
(spec 10_state.md R34) and the reset input (spec 70_reset_and_hazards.md R210). -/

namespace Sys2Proof.Machine

/-! ### Single-field updates -/

/-- `FB <- m`. -/
def State.withFb (s : State) (m : Memory) : State := { s with fb := m }
/-- `PM <- p`. -/
def State.withPm (s : State) (p : PowerMode) : State := { s with pm := p }
/-- `CS <- a`. -/
def State.withCs (s : State) (a : ChipSelect) : State := { s with cs := a }
/-- `DC <- k`. -/
def State.withDc (s : State) (k : BusKind) : State := { s with dc := k }
/-- `RST <- a`. -/
def State.withRst (s : State) (a : ResetLine) : State := { s with rst := a }
/-- `TRACE <- TRACE ++ es` (R30). -/
def State.emit (s : State) (es : List BusEvent) : State := { s with trace := s.trace ++ es }
/-- The answers still to come. -/
def State.withAnswers (s : State) (as : List BusAnswer) : State := { s with answers := as }
/-- One free value used. -/
def State.spendFree (s : State) : State := { s with free := s.free + 1 }
/-- The halfwords still to come from the host. -/
def State.withHostIn (s : State) (ws : List Half) : State := { s with hostIn := ws }
/-- The engine idle or executing. -/
def State.withEngine (s : State) (e : Engine) : State := { s with engine := e }

/-! ### The frame buffer -/

/-- `MemRead(i, 1)` on the list of listed bytes. -/
def Memory.lookup : Memory → Nat → Byte
  | [], _ => Memory.unlisted
  | (a, v) :: m, i => if a = i then v else Memory.lookup m i

/-- `FB[i]`, `MemRead(i, 1)` (R40). -/
def Memory.read (m : Memory) (i : Fin NB) : Byte := Memory.lookup m i.val

/-- The sorted list with the byte at `i` replaced; an `unlisted` byte is not listed. -/
def Memory.put : Memory → Nat → Byte → Memory
  | [], i, v => if v = Memory.unlisted then [] else [(i, v)]
  | (a, w) :: m, i, v =>
    if i < a then
      if v = Memory.unlisted then (a, w) :: m else (i, v) :: (a, w) :: m
    else if i = a then
      if v = Memory.unlisted then m else (i, v) :: m
    else (a, w) :: Memory.put m i v

/-- `FB[i] <- v`, `MemWrite(i, 1, v)` (R40). -/
def Memory.write (m : Memory) (i : Fin NB) (v : Byte) : Memory := Memory.put m i.val v

/-- Every byte `v`: `for i in 0 .. 29999: FB[i] <- v` (R102, R157). -/
def Memory.fill (v : Byte) : Memory :=
  if v = Memory.unlisted then [] else (List.range NB).map (fun i => (i, v))

/-- `[FB[0], FB[1], ..., FB[29999]]` (R56, R159). -/
def Memory.bytes (m : Memory) : List Byte := (List.range NB).map (fun i => Memory.lookup m i)

/-- `PixWrite(x, y, g)` (R44): clipped, clears and sets the two bits of one field. -/
def pixWrite (L : Layout) (x y : Int) (g : Gray) (m : Memory) : Memory :=
  if h : InPanel x y then
    m.write (pixelByte h) (setField (fieldOf L x y) g (m.read (pixelByte h)))
  else m

/-- `PixRead(x, y)` of a panel pixel (R45). Off the panel the spec defines no `PixRead`; this answers 0 there, as GETPX does (R101). -/
def pixRead (L : Layout) (x y : Int) (m : Memory) : Gray :=
  if h : InPanel x y then getField (fieldOf L x y) (m.read (pixelByte h)) else 0

/-- The pixel writes of `ps`, in order. -/
def plotAll (L : Layout) (ps : List Plot) (m : Memory) : Memory :=
  ps.foldl (fun m p => pixWrite L p.x p.y p.g m) m

/-- The writes of one level at a list of points (R122). -/
def plotsOf (g : Gray) (pts : List (Int × Int)) : List Plot := pts.map (fun p => ⟨p.1, p.2, g⟩)

/-! ### Completion: what stands in for taking an exception (R180 to R190)

REJECT and BUSFAULT save nothing, switch no mode and transfer control nowhere: "it returns the completion record and is idle" (R189).
There is no return from them (R190). -/

/-- `complete(st, v)` (R180): `LAST <- st`; `FAULTED <- 1` on BUSFAULT; the record, formed after these, goes to the host; the engine is
idle again and its latches hold nothing. -/
def State.complete (s : State) (st : Status) (v : Gray) : State :=
  let s1 := { s with last := st, faulted := faultedAfter s st, engine := .idle }
  { s1 with hostOut := s1.hostOut ++ [⟨statusByte s1, v⟩] }

/-- `reject` (R182): `complete(REJECT, 0)` and no other change. -/
def State.rejectOp (s : State) : State := s.complete .reject 0

/-- The end of `raise BusFault` (R183): `complete(BUSFAULT, 0)`; the effects already made stay. -/
def State.busFault (s : State) : State := s.complete .busFault 0

/-- A drawing operation's writes, then `complete(OK, 0)`. -/
def State.draw (s : State) (ps : List Plot) : State :=
  (s.withFb (plotAll s.cfg.layout ps s.fb)).complete .ok 0

/-! ### The bus -/

/-- How far a run of bus requests got: all of them done, abandoned at a failed transaction, or never completing (R151, R153). -/
inductive Ran where
  | done (s : State)
  | failed (s : State)
  | stalled (s : State)
deriving DecidableEq, Repr

/-- Go on after what is done; a failure or a stall ends the run (R154, R183, R186). -/
def Ran.andThen : Ran → (State → Ran) → Ran
  | .done s, f => f s
  | .failed s, _ => .failed s
  | .stalled s, _ => .stalled s

/-- The transport's answer to the next transaction: the next listed one, or a free value (R153). -/
def nextAnswer (s : State) : BusAnswer :=
  match s.answers with
  | a :: _ => a
  | [] => Config.freeAnswer s.free

/-- The environment after that answer. -/
def State.takeAnswer (s : State) : State :=
  match s.answers with
  | _ :: as => s.withAnswers as
  | [] => s.spendFree

/-- The bytes known accepted when a transfer of `bytes` ends after `j`: `0 ≤ j < m` (R153), so at most all but one. -/
def accepted (j : Nat) (bytes : List Byte) : List Byte := bytes.take (min j (bytes.length - 1))

/-- The first half of a transaction: mode-select, then chip-select (R151). -/
def State.select (s : State) (k : BusKind) : State :=
  ((s.withDc k).withCs .active).emit [.dc k, .cs .active]

/-- Bytes accepted by the transport. -/
def State.sendBytes (s : State) (bs : List Byte) : State := s.emit (bs.map .byte)

/-- The release of chip-select (R151). -/
def State.release (s : State) : State := (s.withCs .inactive).emit [.cs .inactive]

/-- `BusXfer(kind, bytes)` (R151). -/
def busXfer (k : BusKind) (bytes : List Byte) (s : State) : Ran :=
  let s1 := s.select k
  let s2 := s1.takeAnswer
  match nextAnswer s1 with
  | .done => .done (s2.sendBytes bytes).release
  | .fail j => .failed (s2.sendBytes (accepted j bytes)).release
  | .stall j => .stalled (s2.sendBytes (accepted j bytes))

/-- `BusDelay(t)`: an event if `t > 0`, nothing if `t = 0` (R152). -/
def busDelay (t : Nat) (s : State) : State := if t = 0 then s else s.emit [.delay t]

/-- `BusRst(a)` (R152). -/
def busRst (a : ResetLine) (s : State) : State := (s.withRst a).emit [.rst a]

/-- One request. -/
def runAct : BusAct → State → Ran
  | .xfer k bytes, s => busXfer k bytes s
  | .delay t, s => .done (busDelay t s)
  | .rst a, s => .done (busRst a s)

/-- Requests in order, up to the first that fails or stalls. -/
def runActs : List BusAct → State → Ran
  | [], s => .done s
  | a :: as, s => (runAct a s).andThen (runActs as)

/-- The end of a protocol operation: `onOk` and `complete(OK, 0)` when all is done (R155 to R164); BUSFAULT after a failed transaction
(R183); no completion at all after a stalled one, the engine stays executing (R186). -/
def Ran.conclude (r : Ran) (onOk : State → State) : State :=
  match r with
  | .done s => (onOk s).complete .ok 0
  | .failed s => s.busFault
  | .stalled s => s

/-- `SendEntry(c, ds, t)` (R154): one transaction for the command, one for each data byte, then the delay. -/
def entryActs (e : TableEntry) : List BusAct :=
  .xfer .cmd [e.cmd] :: (e.data.map (fun d => .xfer .data [d]) ++ [.delay e.delay])

/-- The entries of a table, in order (R157, R160, R161). -/
def tableActs (es : List TableEntry) : List BusAct := es.flatMap entryActs

/-- `SetWindow(a, b, c, d)` (R158). -/
def windowActs (cfg : Config) (a b c d : Byte) : List BusAct :=
  [.xfer .cmd [cfg.cmdCaset], .xfer .data [a], .xfer .data [b],
   .xfer .cmd [cfg.cmdRaset], .xfer .data [c], .xfer .data [d]]

/-- `FlushBody()` (R159): the full-extent window, the write command, the whole buffer in one transaction. -/
def flushActs (cfg : Config) (m : Memory) : List BusAct :=
  windowActs cfg cfg.winCs cfg.winCe cfg.winRs cfg.winRe ++
    [.xfer .cmd [cfg.cmdRamwr], .xfer .data m.bytes]

/-- A single command and its settle delay (R162 to R164). -/
def commandActs (c : Byte) (t : Nat) : List BusAct := [.xfer .cmd [c], .delay t]

/-! ### The host port -/

/-- The engine accepts the operation it decoded: its latches hold the operands, the halfwords are consumed (R21, R34). -/
def State.accept (s : State) (i : Instr) (rest : List Half) : State :=
  (s.withHostIn rest).withEngine (.executing i)

/-- An illegal descriptor: its halfwords are consumed and it is rejected (R82, R83). -/
def State.refuseDescriptor (s : State) (rest : List Half) : State := (s.withHostIn rest).rejectOp

/-- The host presents a descriptor to an idle engine, before anything it presented earlier. -/
def State.present (s : State) (ws : List Half) : State :=
  (s.withHostIn (ws ++ s.hostIn)).withEngine .idle

/-! ### The reset input -/

/-- The reset input (R210): the values of R39 again; sends nothing. The configuration is the chip's, `PM` its `PM_RESET` (R26), and what the outside world has
ready (descriptors, answers, free values) is not the engine's to reset. -/
def State.resetInput (s : State) : State :=
  { State.reset with pm := s.cfg.pmReset, cfg := s.cfg, hostIn := s.hostIn, answers := s.answers, free := s.free }

end Sys2Proof.Machine
end

