-- ==== Sys2Proof/Machine/DisplayProtocol.lean ====
section
/-! DEFINITION. The display-protocol operations WRCMD, WRDATA, INIT, SETWIN, FLUSH, LPM, HPM, SLEEP, DISPON, INVERT
(spec 43_display_protocol.md). -/

namespace Sys2Proof.Machine

/-- WRCMD (R155). -/
def execWrcmd (imm8 : Byte) (s : State) : Result :=
  .next ((runActs [.xfer .cmd [imm8]] s).conclude id)

/-- WRDATA (R156). -/
def execWrdata (imm8 : Byte) (s : State) : Result :=
  .next ((runActs [.xfer .data [imm8]] s).conclude id)

/-- The reset pulse and the table of INIT (R157). -/
def initActs (cfg : Config) : List BusAct :=
  [.rst .asserted, .delay cfg.tRstAssert, .rst .released, .delay cfg.tRstRelease] ++ tableActs cfg.initTable

/-- The clearing of the buffer and its flush, the second part of INIT (R157). -/
def clearAndFlush (s : State) : Ran :=
  let s1 := s.withFb (Memory.fill 0x00)
  runActs (flushActs s1.cfg s1.fb) s1

/-- INIT (R157): pulse, table, clear, flush; `PM <- HighPower` last and only on success. -/
def execInit (s : State) : Result :=
  .next (((runActs (initActs s.cfg) s).andThen clearAndFlush).conclude (fun t => t.withPm .highPower))

/-- A window operand is outside 0 to 255 (R158, R182). -/
abbrev BadWindow (cfg : Config) (v : Half) : Prop := sx cfg v < 0 ∨ 255 < sx cfg v

/-- SETWIN (R158): REJECT for an operand outside 0 to 255, before anything is sent. -/
def execSetwin (cs ce rs re : Half) (s : State) : Result :=
  .next (
    if BadWindow s.cfg cs ∨ BadWindow s.cfg ce ∨ BadWindow s.cfg rs ∨ BadWindow s.cfg re then s.rejectOp
    else (runActs (windowActs s.cfg (cs.setWidth 8) (ce.setWidth 8) (rs.setWidth 8) (re.setWidth 8)) s).conclude id)

/-- FLUSH (R159). -/
def execFlush (s : State) : Result :=
  .next ((runActs (flushActs s.cfg s.fb) s).conclude id)

/-- LPM's requests from HighPower (R160). -/
def lpmActs (cfg : Config) : List BusAct :=
  .xfer .cmd [cfg.cmdLpm] :: (tableActs cfg.lpmTable ++ [.delay cfg.tLpm])

/-- LPM (R160): nothing in LowPower; `PM <- LowPower` last and only on success. -/
def execLpm (s : State) : Result :=
  .next (
    if s.pm = .lowPower then s.complete .ok 0
    else (runActs (lpmActs s.cfg) s).conclude (fun t => t.withPm .lowPower))

/-- HPM's requests from LowPower (R161). -/
def hpmActs (cfg : Config) : List BusAct :=
  .xfer .cmd [cfg.cmdHpm] :: (tableActs cfg.hpmTable ++ [.delay cfg.tHpm])

/-- HPM (R161): nothing in HighPower; `PM <- HighPower` last and only on success. -/
def execHpm (s : State) : Result :=
  .next (
    if s.pm = .highPower then s.complete .ok 0
    else (runActs (hpmActs s.cfg) s).conclude (fun t => t.withPm .highPower))

/-- SLEEP (R162). -/
def execSleep (f : Bool) (s : State) : Result :=
  .next ((runActs (if f then commandActs s.cfg.cmdSlpin s.cfg.tSlpin else commandActs s.cfg.cmdSlpout s.cfg.tSlpout) s).conclude id)

/-- DISPON (R163). -/
def execDispon (f : Bool) (s : State) : Result :=
  .next ((runActs (if f then commandActs s.cfg.cmdDispon s.cfg.tDispon else commandActs s.cfg.cmdDispoff s.cfg.tDispoff) s).conclude id)

/-- INVERT (R164). -/
def execInvert (f : Bool) (s : State) : Result :=
  .next ((runActs (if f then commandActs s.cfg.cmdInvon s.cfg.tInvon else commandActs s.cfg.cmdInvoff s.cfg.tInvoff) s).conclude id)

end Sys2Proof.Machine
end

