-- ==== Sys2Proof/Machine/FrameBuffer.lean ====
section
/-! DEFINITION. The frame-buffer operations SETPX, GETPX, FILL (spec 40_framebuffer_ops.md). -/

namespace Sys2Proof.Machine

/-- SETPX (R100). -/
def execSetpx (x y : Half) (g : Gray) (s : State) : Result :=
  .next (s.draw [⟨sx s.cfg x, sx s.cfg y, g⟩])

/-- GETPX (R101): the pixel, 0 outside the panel; status OK either way. -/
def execGetpx (x y : Half) (s : State) : Result :=
  .next (s.complete .ok (pixRead s.cfg.layout (sx s.cfg x) (sx s.cfg y) s.fb))

/-- FILL (R102). -/
def execFill (g : Gray) (s : State) : Result :=
  .next ((s.withFb (Memory.fill (pack4 s.cfg.layout g))).complete .ok 0)

end Sys2Proof.Machine
end

