-- ==== Sys2Proof/Machine/Rasterizer.lean ====
section
/-! DEFINITION. The rasterizer operations LINE, RECT, CIRCLE, CIRCLEAA (spec 41_rasterizer.md). Each makes the list of the points it
writes on an unbounded plane; the pixel-write primitive clips them (R120). -/

namespace Sys2Proof.Machine

/-! ### LINE -/

/-- The loop of R110: `n` iterations from long-axis position `xx`, short-axis position `yy`, accumulator `D`. -/
def lineLoop (dx dy ystep : Int) : Nat → Int → Int → Int → List (Int × Int)
  | 0, _, _, _ => []
  | n + 1, xx, yy, D =>
    (xx, yy) ::
      (if D > 0 then lineLoop dx dy ystep n (xx + 1) (yy + ystep) (D - 2 * dx + 2 * dy)
       else lineLoop dx dy ystep n (xx + 1) yy (D + 2 * dy))

/-- The loop after both normalisations, `ax ≤ bx` (R110). -/
def linePath (ax ay bx ay' : Int) : List (Int × Int) :=
  let dx := bx - ax
  let dy := |ay' - ay|
  let ystep := if ay < ay' then 1 else -1
  lineLoop dx dy ystep (dx + 1).toNat ax ay (2 * dy - dx)

/-- The swap of the endpoints that puts them left to right (R110). -/
def lineLeftRight (ax ay bx ay' : Int) : List (Int × Int) :=
  if ax > bx then linePath bx ay' ax ay else linePath ax ay bx ay'

/-- The points of LINE, in the order they are written (R110). -/
def linePoints (x1 y1 x2 y2 : Int) : List (Int × Int) :=
  if |y2 - y1| > |x2 - x1| then (lineLeftRight y1 x1 y2 x2).map (fun p => (p.2, p.1))
  else lineLeftRight x1 y1 x2 y2

/-- LINE (R110). -/
def execLine (x1 y1 x2 y2 : Half) (g : Gray) (s : State) : Result :=
  .next (s.draw (plotsOf g (linePoints (sx s.cfg x1) (sx s.cfg y1) (sx s.cfg x2) (sx s.cfg y2))))

/-! ### RECT -/

/-- A row of points, `HSpan` (R116). -/
def hSpan (xa xb yy : Int) : List (Int × Int) := (intRange xa xb).map (fun px => (px, yy))

/-- The points of RECT for `w ≥ 1`, `h ≥ 1` (R113): the closed rectangle, or its two rows and the columns between them. -/
def rectPoints (x y w h : Int) (fill : Bool) : List (Int × Int) :=
  let xr := x + w - 1
  let yb := y + h - 1
  if fill then (intRange y yb).flatMap (fun py => hSpan x xr py)
  else
    (intRange x xr).flatMap (fun px => [(px, y), (px, yb)]) ++
      (intRange (y + 1) (yb - 1)).flatMap (fun py => [(x, py), (xr, py)])

/-- RECT (R113): REJECT for a negative size, nothing for an empty one. -/
def execRect (x y w h : Half) (g : Gray) (f : Bool) (s : State) : Result :=
  .next (
    if sx s.cfg w < 0 ∨ sx s.cfg h < 0 then s.rejectOp
    else if sx s.cfg w = 0 ∨ sx s.cfg h = 0 then s.complete .ok 0
    else s.draw (plotsOf g (rectPoints (sx s.cfg x) (sx s.cfg y) (sx s.cfg w) (sx s.cfg h) f)))

/-! ### CIRCLE -/

/-- The loop of `Oct(r)` (R117), at most `n` iterations; `a` grows at each and `b` never does, so `r + 1` are enough. -/
def octLoop : Nat → Int → Int → Int → List (Int × Int)
  | 0, _, _, _ => []
  | n + 1, a, b, d =>
    if a ≤ b then
      (a, b) ::
        (if d < 0 then octLoop n (a + 1) b (d + 2 * a + 3)
         else octLoop n (a + 1) (b - 1) (d + 2 * (a - b) + 5))
    else []

/-- `Oct(r)` for `r ≥ 0` (R117). -/
def oct (r : Int) : List (Int × Int) := octLoop (r.toNat + 1) 0 r (1 - r)

/-- The eight reflections of an octant point (R116, outline). -/
def reflections (x0 y0 a b : Int) : List (Int × Int) :=
  [(x0 + a, y0 + b), (x0 - a, y0 + b), (x0 + a, y0 - b), (x0 - a, y0 - b),
   (x0 + b, y0 + a), (x0 - b, y0 + a), (x0 + b, y0 - a), (x0 - b, y0 - a)]

/-- The four spans of an octant point (R116, fill). -/
def spans (x0 y0 a b : Int) : List (Int × Int) :=
  hSpan (x0 - a) (x0 + a) (y0 + b) ++ hSpan (x0 - a) (x0 + a) (y0 - b) ++
    hSpan (x0 - b) (x0 + b) (y0 + a) ++ hSpan (x0 - b) (x0 + b) (y0 - a)

/-- The points of CIRCLE for `r ≥ 0` (R116). -/
def circlePoints (x0 y0 r : Int) (fill : Bool) : List (Int × Int) :=
  (oct r).flatMap (fun p => if fill then spans x0 y0 p.1 p.2 else reflections x0 y0 p.1 p.2)

/-- CIRCLE (R116): REJECT for a negative radius. -/
def execCircle (x0 y0 r : Half) (g : Gray) (f : Bool) (s : State) : Result :=
  .next (
    if sx s.cfg r < 0 then s.rejectOp
    else s.draw (plotsOf g (circlePoints (sx s.cfg x0) (sx s.cfg y0) (sx s.cfg r) f)))

/-! ### CIRCLEAA -/

/-- The free choice at a band pixel: no write, or a level from 0 to `g`. It depends on the operands and the pixel alone, so that the
operation is idempotent (R118, U1, R52; log 8). -/
def bandLevel (x0 y0 r : Int) (g : Gray) (px py : Int) : Option Gray :=
  match Config.freeBand x0 y0 r g px py with
  | some l => if l ≤ g then some l else none
  | none => none

/-- What CIRCLEAA writes at `(px, py)` (R118), with `q` the squared distance from the centre. -/
def aaLevel (x0 y0 r : Int) (g : Gray) (px py : Int) : Option Gray :=
  let q := (px - x0) ^ 2 + (py - y0) ^ 2
  if 1 ≤ r ∧ q ≤ (r - 1) ^ 2 then some g
  else if (r + 1) ^ 2 ≤ q then none
  else bandLevel x0 y0 r g px py

/-- The pixel writes of CIRCLEAA (R118). -/
def aaPlots (x0 y0 r : Int) (g : Gray) : List Plot :=
  (intRange (y0 - (r + 1)) (y0 + (r + 1))).flatMap (fun py =>
    (intRange (x0 - (r + 1)) (x0 + (r + 1))).filterMap (fun px =>
      (aaLevel x0 y0 r g px py).map (fun l => ⟨px, py, l⟩)))

/-- CIRCLEAA (R118): an illegal descriptor without `HAS_AA` (R82 (f)), REJECT for a negative radius. -/
def execCircleaa (x0 y0 r : Half) (g : Gray) (s : State) : Result :=
  .next (
    if s.cfg.hasAA = false then s.rejectOp
    else if sx s.cfg r < 0 then s.rejectOp
    else s.draw (aaPlots (sx s.cfg x0) (sx s.cfg y0) (sx s.cfg r) g))

end Sys2Proof.Machine
end

