-- ==== Sys2Proof/Machine/TextRenderer.lean ====
section
/-! DEFINITION. The glyph compositor operations GLYPH, TEXT (spec 42_text.md). -/

namespace Sys2Proof.Machine

/-! ### The font and the cell -/

/-- `FONT(c)` (R130): none where the table has no entry. -/
def fontGlyph (cfg : Config) (c : Byte) : Option Glyph :=
  (cfg.font.find? (fun e => e.1 == c)).map (fun e => e.2)

/-- `G(row, col)`: bit `63 - (8·row + col)` of the glyph (R130). -/
def glyphBit (G : Glyph) (row col : Nat) : Bool := G.getLsbD (63 - (8 * row + col))

/-- `N = 8·scale`, the side of the cell (R131). -/
def cellSide (scale : Nat) : Nat := 8 * scale

/-! ### Rotation and the pre-flight check -/

/-- The chip's `ROT` off the right angles: the value the configuration lists, a free one where it lists none (R134; log 9). -/
def chipRot (cfg : Config) (a scale u v : Nat) : Int × Int :=
  match cfg.rot.find? (fun e => e.angle == a && e.scale == scale && e.u == u && e.v == v) with
  | some e => e.offset
  | none => Config.rawRot a scale u v

/-- The chip's `BBOX` off the right angles: the value the configuration lists, a free one where it lists none (R135; log 9). -/
def chipBox (cfg : Config) (a scale : Nat) : Box :=
  match cfg.bbox.find? (fun e => e.angle == a && e.scale == scale) with
  | some e => e.box
  | none => Config.rawBBox a scale

/-- `BBOX(a, scale)` (R135): the cell for the right angles; for the others the chip's box, its corners in order. A cell wider than the
panel has a box as wide as itself, so that it fits nowhere at any angle (R132; log 9). -/
def bbox (cfg : Config) (a scale : Nat) : Box :=
  let n : Int := cellSide scale
  if a % 90 = 0 then ⟨0, 0, n - 1, n - 1⟩
  else
    let b := chipBox cfg a scale
    let uMin := min b.uMin b.uMax
    ⟨uMin, min b.vMin b.vMax, max (max b.uMin b.uMax) (if 300 < n then uMin + n - 1 else uMin), max b.vMin b.vMax⟩

/-- The point of a box nearest to `p` on each axis. -/
def holdTo (b : Box) (p : Int × Int) : Int × Int :=
  (max b.uMin (min b.uMax p.1), max b.vMin (min b.vMax p.2))

/-- `ROT(a, scale, u, v)` (R134): the table for the right angles; for the others the chip's function, held to `BBOX`, which "contains
`ROT(a, scale, u, v)` for every cell pixel" (R135; log 9). -/
def rot (cfg : Config) (a scale u v : Nat) : Int × Int :=
  let n : Int := cellSide scale
  if a = 0 then (u, v)
  else if a = 90 then (n - 1 - v, u)
  else if a = 180 then (n - 1 - u, n - 1 - v)
  else if a = 270 then (v, n - 1 - u)
  else holdTo (bbox cfg a scale) (chipRot cfg a scale u v)

/-- A glyph at `(gx, gy)` fits the panel (R135). -/
abbrev Fits (cfg : Config) (gx gy : Int) (a scale : Nat) : Prop :=
  0 ≤ gx + (bbox cfg a scale).uMin ∧ 0 ≤ gy + (bbox cfg a scale).vMin ∧
    gx + (bbox cfg a scale).uMax ≤ 299 ∧ gy + (bbox cfg a scale).vMax ≤ 399

/-! ### DrawGlyph -/

/-- The set cell pixels of a glyph, in the order of R136's loops (R131). -/
def setCells (G : Glyph) (scale : Nat) : List (Nat × Nat) :=
  (List.range 8).flatMap (fun row => (List.range 8).flatMap (fun col =>
    if glyphBit G row col then
      (List.range scale).flatMap (fun j => (List.range scale).map (fun i => (col * scale + i, row * scale + j)))
    else []))

/-- The points `DrawGlyph(c, gx, gy, g, scale, a)` writes (R136): none for an absent character or a glyph that does not fit. -/
def glyphPoints (cfg : Config) (c : Byte) (gx gy : Int) (scale a : Nat) : List (Int × Int) :=
  match fontGlyph cfg c with
  | none => []
  | some G =>
    if Fits cfg gx gy a scale then
      (setCells G scale).map (fun p => (gx + (rot cfg a scale p.1 p.2).1, gy + (rot cfg a scale p.1 p.2).2))
    else []

/-- GLYPH (R136): REJECT for scale 0. -/
def execGlyph (ch : Byte) (x y : Half) (g : Gray) (scale : Byte) (angle : Half) (s : State) : Result :=
  .next (
    if zx scale = 0 then s.rejectOp
    else s.draw (plotsOf g (glyphPoints s.cfg ch (sx s.cfg x) (sx s.cfg y) (zx scale) (angleOf s.cfg angle))))

/-! ### TEXT -/

/-- The string split at every newline: `k` newlines give `k + 1` lines (R139). -/
def splitLines (nl : Byte) : List Byte → List (List Byte)
  | [] => [[]]
  | c :: cs =>
    if c = nl then [] :: splitLines nl cs
    else
      match splitLines nl cs with
      | l :: ls => (c :: l) :: ls
      | [] => [[c]]

/-- The numbers a line is laid out with (R139): start column, cell side, advance, line height, and the reverse option. -/
structure LineSpec where
  x   : Int
  n   : Int
  adv : Int
  lh  : Int
  rev : Bool
deriving DecidableEq, Repr

/-- The cell does not fit beside the cursor (R139, R140): right of 300, or left of 0 in reverse. -/
abbrev Wraps (L : LineSpec) (cx : Int) : Prop := if L.rev then cx - L.n < 0 else cx + L.n > 300

/-- The cells of one line from cursor `(cx, cy)`, and the final `cy` (R139, R140). The characters come in the order they are drawn; an
absent one is skipped and does not move the cursor; a wrap returns to `x` one line down. -/
def layoutLine (cfg : Config) (L : LineSpec) : List Byte → Int → Int → List Place × Int
  | [], _, cy => ([], cy)
  | c :: cs, cx, cy =>
    if fontGlyph cfg c = none then layoutLine cfg L cs cx cy
    else
      let cx1 := if Wraps L cx then L.x else cx
      let cy1 := if Wraps L cx then cy + L.lh else cy
      let r := layoutLine cfg L cs (if L.rev then cx1 - L.adv else cx1 + L.adv) cy1
      (⟨c, if L.rev then cx1 - L.n else cx1, cy1⟩ :: r.1, r.2)

/-- The cells of all lines, the first at `cy` (R139); each newline moves down by the line height and returns the cursor to `x`. In
reverse each line's characters are taken last to first (R140). -/
def layoutLines (cfg : Config) (L : LineSpec) : List (List Byte) → Int → List Place
  | [], _ => []
  | l :: ls, cy =>
    let r := layoutLine cfg L (if L.rev then l.reverse else l) L.x cy
    r.1 ++ layoutLines cfg L ls (r.2 + L.lh)

/-- The numbers of a TEXT (R139). -/
def lineSpec (cfg : Config) (x : Half) (scale spacing : Byte) (f : Bool) : LineSpec :=
  { x := sx cfg x, n := cellSide (zx scale), adv := cellSide (zx scale) + zx spacing,
    lh := cellSide (zx scale) + cfg.lineGap, rev := f }

/-- The `DrawGlyph` calls of a TEXT, in order (R139, R140, R141 (a)). -/
def textPlaces (cfg : Config) (chars : List Byte) (x y : Half) (scale spacing : Byte) (f : Bool) : List Place :=
  layoutLines cfg (lineSpec cfg x scale spacing f) (splitLines cfg.newline chars) (sx cfg y)

/-- The points a TEXT writes. -/
def textPoints (cfg : Config) (chars : List Byte) (x y : Half) (scale spacing : Byte) (angle : Half) (f : Bool) :
    List (Int × Int) :=
  (textPlaces cfg chars x y scale spacing f).flatMap (fun p =>
    glyphPoints cfg p.ch p.gx p.gy (zx scale) (angleOf cfg angle))

/-- TEXT (R139): REJECT for scale 0, before any pixel. -/
def execText (chars : List Byte) (x y : Half) (g : Gray) (scale spacing : Byte) (angle : Half) (f : Bool) (s : State) : Result :=
  .next (
    if zx scale = 0 then s.rejectOp
    else s.draw (plotsOf g (textPoints s.cfg chars x y scale spacing angle f)))

end Sys2Proof.Machine
end

