-- ==== Sys2Proof/Machine/Dispatch.lean ====
section
/-! DEFINITION. One arm per operation (spec 30_encoding.md R81). -/

namespace Sys2Proof.Machine

def exec (i : Instr) (s : State) : Host.Outcome State Fault Refusal :=
  match i with
  -- 40_framebuffer_ops.md
  | .setpx x y g => Sys2Proof.Machine.execSetpx x y g s
  | .getpx x y => Sys2Proof.Machine.execGetpx x y s
  | .fill g => Sys2Proof.Machine.execFill g s
  -- 41_rasterizer.md
  | .line x1 y1 x2 y2 g => Sys2Proof.Machine.execLine x1 y1 x2 y2 g s
  | .rect x y w h g f => Sys2Proof.Machine.execRect x y w h g f s
  | .circle x0 y0 r g f => Sys2Proof.Machine.execCircle x0 y0 r g f s
  | .circleaa x0 y0 r g => Sys2Proof.Machine.execCircleaa x0 y0 r g s
  -- 42_text.md
  | .glyph ch x y g scale angle => Sys2Proof.Machine.execGlyph ch x y g scale angle s
  | .text chars x y g scale spacing angle f => Sys2Proof.Machine.execText chars x y g scale spacing angle f s
  -- 43_display_protocol.md
  | .wrcmd imm8 => Sys2Proof.Machine.execWrcmd imm8 s
  | .wrdata imm8 => Sys2Proof.Machine.execWrdata imm8 s
  | .init => Sys2Proof.Machine.execInit s
  | .setwin cs ce rs re => Sys2Proof.Machine.execSetwin cs ce rs re s
  | .flush => Sys2Proof.Machine.execFlush s
  | .lpm => Sys2Proof.Machine.execLpm s
  | .hpm => Sys2Proof.Machine.execHpm s
  | .sleep f => Sys2Proof.Machine.execSleep f s
  | .dispon f => Sys2Proof.Machine.execDispon f s
  | .invert f => Sys2Proof.Machine.execInvert f s

end Sys2Proof.Machine
end

