-- ==== Sys2Proof/Machine/Step.lean ====
section
/-! DEFINITION. One step of the engine: it takes the next descriptor the host presents and runs its operation to its end
(spec 10_state.md R23, R34, 30_encoding.md R82, R83, 60_exceptions.md R186). -/

namespace Sys2Proof.Machine

/-- One step. An engine a stalled transfer holds has no enabled step (R186). An idle one takes the next descriptor: a legal one it runs,
an illegal one it rejects, and for one whose halfwords have not all come, or none at all, it waits as it is (R83, R210). -/
def step (s : State) : Host.Outcome State Fault Refusal :=
  match s.engine with
  | .executing _ => .fault .busStalled
  | .idle =>
    match decode s.hostIn with
    | .ok i rest => exec i (s.accept i rest)
    | .illegal _ rest => .next (s.refuseDescriptor rest)
    | .waiting => .next s

/-- `s` with the descriptor of a table word presented on the host port of an idle engine, before everything else there. -/
def State.withFetchWord (s : State) (nbits w : Nat) : State := s.present (tableDescriptor nbits w)

end Sys2Proof.Machine
end

