-- ==== Sys2Proof/Safety.lean ====
section
/-! DEFINITION. The terms claims are stated in: what an operation drew, what it sent, how it ended, what it left alone, and the invariant
of the machine (spec 10_state.md R29, 43_display_protocol.md R167, 60_exceptions.md R180 to R186). -/

namespace Sys2Proof.Machine

/-! ### How an operation ended -/

/-- The operation completed with status `st` and value `v` (R180): `LAST`, `FAULTED` as R27 says, one record with the status byte formed
after the operation, the engine idle. -/
structure Completed (st : Status) (v : Gray) (s t : State) : Prop where
  last    : t.last = st
  faulted : t.faulted = (s.faulted || decide (st = .busFault))
  engine  : t.engine = .idle
  hostOut : t.hostOut = s.hostOut ++ [⟨statusByte t, v⟩]

/-- The operation never completes (R186): no record, `CS` active, `LAST` and `FAULTED` as before, the engine still at it. -/
structure Hung (s t : State) : Prop where
  last    : t.last = s.last
  faulted : t.faulted = s.faulted
  engine  : t.engine = s.engine
  hostOut : t.hostOut = s.hostOut
  cs      : t.cs = .active

/-! ### What it left alone -/

/-- The bus side is untouched: lines, trace, the transport's answers (R30, R167 (c)). -/
structure BusUntouched (s t : State) : Prop where
  cs      : t.cs = s.cs
  dc      : t.dc = s.dc
  rst     : t.rst = s.rst
  trace   : t.trace = s.trace
  answers : t.answers = s.answers

/-- The host's pending halfwords and the configuration are untouched (R34, R38). -/
structure PortUntouched (s t : State) : Prop where
  hostIn : t.hostIn = s.hostIn
  cfg    : t.cfg = s.cfg

/-- A REJECT: nothing but the completion (R182). -/
structure Rejected (s t : State) : Prop where
  completed : Completed .reject 0 s t
  bus       : BusUntouched s t
  port      : PortUntouched s t
  fb        : t.fb = s.fb
  pm        : t.pm = s.pm
  free      : t.free = s.free

/-! ### What it drew -/

/-- The level of a pixel in a state. -/
def levelAt (s : State) (x y : Int) : Gray := pixRead s.cfg.layout x y s.fb

/-- The panel pixels in `P` and no others were written, all with level `g`; every byte that holds no pixel of `P` is unchanged. -/
structure Drew (P : Int → Int → Prop) (g : Gray) (s t : State) : Prop where
  painted : ∀ x y, InPanel x y → P x y → levelAt t x y = g
  kept    : ∀ x y, InPanel x y → ¬ P x y → levelAt t x y = levelAt s x y
  bytes   : ∀ i : Fin NB, (∀ x y, InPanel x y → P x y → byteIndex x y ≠ i.val) → t.fb.read i = s.fb.read i

/-- A drawing operation that completed with status OK and changed nothing outside `FB`. -/
structure DrawEnded (s t : State) : Prop where
  completed : Completed .ok 0 s t
  bus       : BusUntouched s t
  port      : PortUntouched s t
  pm        : t.pm = s.pm

/-! ### The figures, as sets of points in closed form -/

/-- The ideal line left to right (R111 (d)): at long-axis position `ax + k` the short-axis position is `ay + ystep · m(k)` with
`m(k) = floor((2·dy·k + dx - 1) / (2·dx))`, and `m = 0` for `dx = 0` (Lean's quotient by 0). -/
def OnIdeal (ax ay bx ey px py : Int) : Prop :=
  ∃ k, 0 ≤ k ∧ k ≤ bx - ax ∧ px = ax + k ∧
    py = ay + (if ay < ey then 1 else -1) * ((2 * |ey - ay| * k + (bx - ax) - 1) / (2 * (bx - ax)))

/-- The same whichever end is the left one. -/
def OnShallow (ax ay bx ey px py : Int) : Prop :=
  if ax ≤ bx then OnIdeal ax ay bx ey px py else OnIdeal bx ey ax ay px py

/-- The points of LINE (R110, R111 (d)): the axes change places for a steep line. -/
def LineSet (x1 y1 x2 y2 px py : Int) : Prop :=
  if |x2 - x1| < |y2 - y1| then OnShallow y1 x1 y2 x2 py px else OnShallow x1 y1 x2 y2 px py

/-- The closed rectangle of RECT (R113, R115). -/
def RectSet (x y w h px py : Int) : Prop := x ≤ px ∧ px < x + w ∧ y ≤ py ∧ py < y + h

/-- The outline of RECT (R114). -/
def RectBorder (x y w h px py : Int) : Prop :=
  RectSet x y w h px py ∧ (px = x ∨ px = x + w - 1 ∨ py = y ∨ py = y + h - 1)

/-- The octant points of radius `r` in closed form: `b` is the column nearest the ideal circle at row `a` (R117). -/
def OctPair (r a b : Int) : Prop :=
  (r = 0 ∧ a = 0 ∧ b = 0) ∨ (0 ≤ a ∧ a ≤ b ∧ a ^ 2 + b ^ 2 - b < r ^ 2 ∧ r ^ 2 ≤ a ^ 2 + b ^ 2 + b)

/-- The outline of CIRCLE: the eight reflections of the octant points (R116). -/
def CircleBorder (x0 y0 r px py : Int) : Prop :=
  ∃ a b, OctPair r a b ∧ ((|px - x0| = a ∧ |py - y0| = b) ∨ (|px - x0| = b ∧ |py - y0| = a))

/-- The filled CIRCLE: the spans of the octant points (R116). -/
def CircleDisc (x0 y0 r px py : Int) : Prop :=
  ∃ a b, OctPair r a b ∧ ((|px - x0| ≤ a ∧ |py - y0| = b) ∨ (|px - x0| ≤ b ∧ |py - y0| = a))

/-- A quarter turn clockwise of an `n` by `n` cell (R134, a = 90). -/
def quarterTurn (n : Int) (p : Int × Int) : Int × Int := (n - 1 - p.2, p.1)

/-- `q` quarter turns (R137 (c)). -/
def quarterTurns (n : Int) : Nat → Int × Int → Int × Int
  | 0, p => p
  | q + 1, p => quarterTurn n (quarterTurns n q p)

/-- The points of a glyph placed at `(x, y)` and turned `q` times: its set cell pixels (R131, R136). -/
def GlyphSet (G : Glyph) (scale q : Nat) (x y px py : Int) : Prop :=
  ∃ u v : Nat, u < 8 * scale ∧ v < 8 * scale ∧ glyphBit G (v / scale) (u / scale) = true ∧
    (px, py) = (x + (quarterTurns (8 * scale) q (u, v)).1, y + (quarterTurns (8 * scale) q (u, v)).2)

/-- The cell of a glyph lies on the panel (R135, right angles). -/
def CellOnPanel (scale : Nat) (x y : Int) : Prop := 0 ≤ x ∧ x + 8 * scale ≤ 300 ∧ 0 ≤ y ∧ y + 8 * scale ≤ 400

/-- A glyph at `(gx, gy)` whose box is `b` fits the panel (R135). -/
abbrev BoxOnPanel (b : Box) (gx gy : Int) : Prop :=
  0 ≤ gx + b.uMin ∧ 0 ≤ gy + b.vMin ∧ gx + b.uMax ≤ 299 ∧ gy + b.vMax ≤ 399

/-- The cells of one line of a TEXT, in the order they are drawn (R139, R140): `start` is where a cell at the beginning of a line stands,
`n` the side of a cell, `adv` the advance, `lh` the line height, `cs` the line's characters in string order, `cy` the row it begins at. A
cell that would leave the panel at the side the line grows to stands at the start instead, one line height down. -/
structure LineCells (cfg : Config) (start n adv lh : Int) (f : Bool) (cs : List Byte) (cy : Int) (ps : List Place) : Prop where
  chars : ps.map (fun p => p.ch) = (if f then cs.reverse else cs).filter (fun c => (fontGlyph cfg c).isSome)
  first : ∀ p, ps[0]? = some p → p.gx = start ∧ p.gy = if (if f then 0 ≤ start else start + n ≤ 300) then cy else cy + lh
  next  : ∀ (k : Nat) (p q : Place), ps[k]? = some p → ps[k + 1]? = some q →
    if (if f then 0 ≤ p.gx - adv else p.gx + adv + n ≤ 300) then q.gx = (if f then p.gx - adv else p.gx + adv) ∧ q.gy = p.gy
    else q.gx = start ∧ q.gy = p.gy + lh

/-- The row after the cells `ps` of a line that began at `cy`: the row of the last cell (R139). -/
def lastRow (cy : Int) (ps : List Place) : Int :=
  match ps.getLast? with
  | some p => p.gy
  | none => cy

/-! ### What it sent -/

/-- `T(k, b1 .. bm)`: the events of one successful transaction (R151). -/
def transaction (k : BusKind) (bytes : List Byte) : List BusEvent :=
  [.dc k, .cs .active] ++ bytes.map .byte ++ [.cs .inactive]

/-- The event of a delay request, none for 0 (R152). -/
def delayEvents (t : Nat) : List BusEvent := if t = 0 then [] else [.delay t]

/-- The events of one table entry (R154). -/
def entryEvents (e : TableEntry) : List BusEvent :=
  transaction .cmd [e.cmd] ++ e.data.flatMap (fun d => transaction .data [d]) ++ delayEvents e.delay

/-- The events of a table (R157, R160, R161). -/
def tableEvents (es : List TableEntry) : List BusEvent := es.flatMap entryEvents

/-- The events of an address window (R158). -/
def windowEvents (cfg : Config) (a b c d : Byte) : List BusEvent :=
  transaction .cmd [cfg.cmdCaset] ++ transaction .data [a] ++ transaction .data [b] ++
    transaction .cmd [cfg.cmdRaset] ++ transaction .data [c] ++ transaction .data [d]

/-- The events of a flush up to its burst (R159). -/
def flushHead (cfg : Config) : List BusEvent :=
  windowEvents cfg cfg.winCs cfg.winCe cfg.winRs cfg.winRe ++ transaction .cmd [cfg.cmdRamwr]

/-- The events of a whole flush of the buffer `m` (R159). -/
def flushEvents (cfg : Config) (m : Memory) : List BusEvent := flushHead cfg ++ transaction .data m.bytes

/-- The events of INIT's reset pulse and table (R157). -/
def initHead (cfg : Config) : List BusEvent :=
  [.rst .asserted] ++ delayEvents cfg.tRstAssert ++ [.rst .released] ++ delayEvents cfg.tRstRelease ++ tableEvents cfg.initTable

/-- The number of transactions of a table: one for each command byte and each data byte (R154). -/
def tableXfers (es : List TableEntry) : Nat := (es.map (fun e => 1 + e.data.length)).sum

/-- The kind of the last transaction of a table sent after a command byte (R154). -/
def tableKind (es : List TableEntry) : BusKind :=
  match es.getLast? with
  | some e => if e.data = [] then .cmd else .data
  | none => .cmd

/-- The transport answers `Done` to the next `n` transactions (R153). -/
def NextDone (n : Nat) (s : State) : Prop := s.answers.take n = List.replicate n .done

/-- An operation that sent exactly the events `es`, in `n` successful transactions, the last of kind `k`, and completed with status OK. -/
structure Sent (es : List BusEvent) (n : Nat) (k : BusKind) (s t : State) : Prop where
  completed : Completed .ok 0 s t
  port      : PortUntouched s t
  trace     : t.trace = s.trace ++ es
  answers   : t.answers = s.answers.drop n
  cs        : t.cs = .inactive
  dc        : t.dc = k
  free      : t.free = s.free

/-! ### Kinds of operations -/

/-- The operations of 40_framebuffer_ops.md, 41_rasterizer.md and 42_text.md: they never use the bus. -/
def drawingOp : Instr → Bool
  | .setpx _ _ _ => true
  | .getpx _ _ => true
  | .fill _ => true
  | .line _ _ _ _ _ => true
  | .rect _ _ _ _ _ _ => true
  | .circle _ _ _ _ _ => true
  | .circleaa _ _ _ _ => true
  | .glyph _ _ _ _ _ _ => true
  | .text _ _ _ _ _ _ _ _ => true
  | .wrcmd _ => false
  | .wrdata _ => false
  | .init => false
  | .setwin _ _ _ _ => false
  | .flush => false
  | .lpm => false
  | .hpm => false
  | .sleep _ => false
  | .dispon _ => false
  | .invert _ => false

/-- The number of transactions an operation makes when all of them succeed (R155 to R164). -/
def opXfers (s : State) : Instr → Nat
  | .setpx _ _ _ => 0
  | .getpx _ _ => 0
  | .fill _ => 0
  | .line _ _ _ _ _ => 0
  | .rect _ _ _ _ _ _ => 0
  | .circle _ _ _ _ _ => 0
  | .circleaa _ _ _ _ => 0
  | .glyph _ _ _ _ _ _ => 0
  | .text _ _ _ _ _ _ _ _ => 0
  | .wrcmd _ => 1
  | .wrdata _ => 1
  | .init => tableXfers s.cfg.initTable + 8
  | .setwin cs ce rs re => if BadWindow s.cfg cs ∨ BadWindow s.cfg ce ∨ BadWindow s.cfg rs ∨ BadWindow s.cfg re then 0 else 6
  | .flush => 8
  | .lpm => if s.pm = .lowPower then 0 else tableXfers s.cfg.lpmTable + 1
  | .hpm => if s.pm = .highPower then 0 else tableXfers s.cfg.hpmTable + 1
  | .sleep _ => 1
  | .dispon _ => 1
  | .invert _ => 1

/-- The events of an operation all of whose transactions succeed (R155 to R164). -/
def opEvents (s : State) : Instr → List BusEvent
  | .setpx _ _ _ => []
  | .getpx _ _ => []
  | .fill _ => []
  | .line _ _ _ _ _ => []
  | .rect _ _ _ _ _ _ => []
  | .circle _ _ _ _ _ => []
  | .circleaa _ _ _ _ => []
  | .glyph _ _ _ _ _ _ => []
  | .text _ _ _ _ _ _ _ _ => []
  | .wrcmd b => transaction .cmd [b]
  | .wrdata b => transaction .data [b]
  | .init => initHead s.cfg ++ flushEvents s.cfg State.reset.fb
  | .setwin cs ce rs re =>
    if BadWindow s.cfg cs ∨ BadWindow s.cfg ce ∨ BadWindow s.cfg rs ∨ BadWindow s.cfg re then []
    else windowEvents s.cfg (BitVec.ofInt 8 cs.toInt) (BitVec.ofInt 8 ce.toInt) (BitVec.ofInt 8 rs.toInt) (BitVec.ofInt 8 re.toInt)
  | .flush => flushEvents s.cfg s.fb
  | .lpm =>
    if s.pm = .lowPower then []
    else transaction .cmd [s.cfg.cmdLpm] ++ tableEvents s.cfg.lpmTable ++ delayEvents s.cfg.tLpm
  | .hpm =>
    if s.pm = .highPower then []
    else transaction .cmd [s.cfg.cmdHpm] ++ tableEvents s.cfg.hpmTable ++ delayEvents s.cfg.tHpm
  | .sleep f =>
    if f then transaction .cmd [s.cfg.cmdSlpin] ++ delayEvents s.cfg.tSlpin
    else transaction .cmd [s.cfg.cmdSlpout] ++ delayEvents s.cfg.tSlpout
  | .dispon f =>
    if f then transaction .cmd [s.cfg.cmdDispon] ++ delayEvents s.cfg.tDispon
    else transaction .cmd [s.cfg.cmdDispoff] ++ delayEvents s.cfg.tDispoff
  | .invert f =>
    if f then transaction .cmd [s.cfg.cmdInvon] ++ delayEvents s.cfg.tInvon
    else transaction .cmd [s.cfg.cmdInvoff] ++ delayEvents s.cfg.tInvoff

/-- The events `es` cut off in transaction number `k` (from 0), after its chip-select and `j` bytes (R151, R183, R186). -/
def cutAt (j : Nat) : Nat → List BusEvent → List BusEvent
  | _, [] => []
  | k, e :: es =>
    if e = .cs .active then
      match k with
      | 0 => e :: es.take j
      | k + 1 => e :: cutAt j k es
    else e :: cutAt j k es

/-- The event is a byte. -/
def BusEvent.isByte : BusEvent → Bool
  | .byte _ => true
  | .dc _ => false
  | .cs _ => false
  | .rst _ => false
  | .delay _ => false

/-- The number of bytes of transaction number `k` of the events `es`. -/
def burstLength : Nat → List BusEvent → Nat
  | _, [] => 0
  | k, e :: es =>
    if e = .cs .active then
      match k with
      | 0 => (es.takeWhile BusEvent.isByte).length
      | k + 1 => burstLength k es
    else burstLength k es

/-- The kind of the transaction an operation begins with, none where it begins with no transaction (R155 to R164). -/
def opensWith (s : State) : Instr → Option BusKind
  | .setpx _ _ _ => none
  | .getpx _ _ => none
  | .fill _ => none
  | .line _ _ _ _ _ => none
  | .rect _ _ _ _ _ _ => none
  | .circle _ _ _ _ _ => none
  | .circleaa _ _ _ _ => none
  | .glyph _ _ _ _ _ _ => none
  | .text _ _ _ _ _ _ _ _ => none
  | .wrcmd _ => some .cmd
  | .wrdata _ => some .data
  | .init => none
  | .setwin cs ce rs re => if BadWindow s.cfg cs ∨ BadWindow s.cfg ce ∨ BadWindow s.cfg rs ∨ BadWindow s.cfg re then none else some .cmd
  | .flush => some .cmd
  | .lpm => if s.pm = .lowPower then none else some .cmd
  | .hpm => if s.pm = .highPower then none else some .cmd
  | .sleep _ => some .cmd
  | .dispon _ => some .cmd
  | .invert _ => some .cmd

/-- Which statuses an operation that was accepted can complete with (R185); CIRCLEAA's REJECT includes R82 (f). -/
def mayEnd : Instr → Status → Bool
  | .setpx _ _ _, st => decide (st = .ok)
  | .getpx _ _, st => decide (st = .ok)
  | .fill _, st => decide (st = .ok)
  | .line _ _ _ _ _, st => decide (st = .ok)
  | .rect _ _ _ _ _ _, st => decide (st ≠ .busFault)
  | .circle _ _ _ _ _, st => decide (st ≠ .busFault)
  | .circleaa _ _ _ _, st => decide (st ≠ .busFault)
  | .glyph _ _ _ _ _ _, st => decide (st ≠ .busFault)
  | .text _ _ _ _ _ _ _ _, st => decide (st ≠ .busFault)
  | .wrcmd _, st => decide (st ≠ .reject)
  | .wrdata _, st => decide (st ≠ .reject)
  | .init, st => decide (st ≠ .reject)
  | .setwin _ _ _ _, _ => true
  | .flush, st => decide (st ≠ .reject)
  | .lpm, st => decide (st ≠ .reject)
  | .hpm, st => decide (st ≠ .reject)
  | .sleep _, st => decide (st ≠ .reject)
  | .dispon _, st => decide (st ≠ .reject)
  | .invert _, st => decide (st ≠ .reject)

/-! ### The bus protocol as an automaton over the trace (R167 (b)) -/

/-- Between transactions; after the mode-select event of kind `k`; with chip-select active in a transaction of kind `k`. -/
inductive BusPhase where
  | released
  | selected (k : BusKind)
  | transferring (k : BusKind)
deriving DecidableEq, Repr

/-- The phase after an event, none where the protocol has no such event (R151, R152). -/
def busScan : BusPhase → BusEvent → Option BusPhase
  | .released, .dc k => some (.selected k)
  | .released, .rst _ => some .released
  | .released, .delay _ => some .released
  | .selected k, .cs .active => some (.transferring k)
  | .transferring k, .byte _ => some (.transferring k)
  | .transferring _, .cs .inactive => some .released
  | _, _ => none

/-- The phase after a run of events. -/
def scanFrom (p : BusPhase) : List BusEvent → Option BusPhase
  | [] => some p
  | e :: es => (busScan p e).bind (fun q => scanFrom q es)

/-- The phase the lines are in. -/
def linePhase (s : State) : BusPhase :=
  match s.cs with
  | .inactive => .released
  | .active => .transferring s.dc

/-! ### The invariant -/

/-- The status bytes that can occur (95_test_vectors.md section 2.10). -/
def legalStatusBytes : List Byte := [0x00, 0x01, 0x04, 0x05, 0x06, 0x08, 0x09, 0x0C, 0x0D, 0x0E]

/-- What every step keeps: the buffer canonical, the layout legal, the reset line released between operations, chip-select active exactly
while an operation hangs (R29, R167 (a), R186), `LAST` = BUSFAULT only with `FAULTED` set (R180), the trace a run of the bus protocol that
ends in the phase the lines show (R167 (b)), every record's status byte one that can occur. -/
structure Inv (s : State) : Prop where
  fb      : s.fb.wf = true
  layout  : s.cfg.layout.Legal
  rst     : s.rst = .released
  idle    : s.engine = .idle → s.cs = .inactive
  hung    : s.engine ≠ .idle → s.cs = .active
  faulted : s.last = .busFault → s.faulted = true
  trace   : scanFrom .released s.trace = some (linePhase s)
  records : ∀ c ∈ s.hostOut, c.status ∈ legalStatusBytes

end Sys2Proof.Machine
end

