-- ==== Sys2Proof/Certificates/Slice0/Obligations.lean ====
section
/-! DEFINITION. The statements for the provers. Each docstring names the rules of spec/ it rests on and what it leaves to a log entry. -/

open Sys2Proof Sys2Proof.Machine

/-! ### Reset and steps -/

/-- R39, R26, R210: every element the spec gives a reset value holds it after reset, `PM` the parameter `PM_RESET`, decided HighPower; and
again after the reset input in any state, which leaves the configuration. `DC` is unspecified there and not claimed (log 1). -/
def Obligations.ResetGivesTheSpecifiedValues : Prop :=
  State.reset.pm = .highPower ∧
  (∀ t : State, (t = State.reset ∨ ∃ s : State, t = s.resetInput) →
    (∀ i, t.fb.read i = 0x00) ∧ t.pm = t.cfg.pmReset ∧ t.faulted = false ∧ t.last = .ok ∧ t.cs = .inactive ∧
      t.rst = .released ∧ t.trace = [] ∧ t.engine = .idle) ∧
  ∀ s : State, s.resetInput.cfg = s.cfg

/-- R34, R21: an idle engine at whose host port a descriptor decodes runs that operation, its halfwords consumed and its operands in the
latches; nothing else happens around it. -/
def Obligations.StepRunsTheDecodedOperation : Prop :=
  ∀ (s : State) (i : Instr) (rest : List Half), s.engine = .idle → decode s.hostIn = .ok i rest →
    step s = exec i { s with hostIn := rest, engine := .executing i }

/-- R83, R210: an idle engine waits, unchanged, while nothing or only the beginning of a descriptor has come; that such a step answers the
state it began in is the model's choice (log 13). -/
def Obligations.StepWaitsForTheWholeDescriptor : Prop :=
  ∀ (s : State) (i : Instr) (n : Nat), s.engine = .idle → i.wellFormed = true → n < (encode i).length →
    s.hostIn = (encode i).take n → step s = .next s

/-- R82 (a), R83: an unassigned opcode is consumed as one halfword and rejected, with no other effect. -/
def Obligations.UnassignedOpcodeIsRejected : Prop :=
  ∀ (s : State) (w0 : Half) (rest : List Half), s.engine = .idle → s.hostIn = w0 :: rest →
    opcodeOf w0 ∉ ([0x01, 0x02, 0x03, 0x10, 0x11, 0x12, 0x13, 0x20, 0x21, 0x30, 0x31, 0x32, 0x33, 0x34, 0x35, 0x36, 0x37,
      0x38, 0x39] : List Byte) →
    ∃ t, step s = .next t ∧ Rejected (s.withHostIn rest) t

/-- R82 (b), (c), (d), R83: a descriptor of an operation of fixed length with a reserved bit set, or with `f` or `g` not 0 where the
operation has none, is consumed whole and rejected. The rows are R81's: opcode, length, whether it has a boolean, whether it has a level. -/
def Obligations.UnusedFieldsAreRejected : Prop :=
  ∀ (s : State) (op : Byte) (len : Nat) (hasF hasG : Bool) (d rest : List Half),
    (op, len, hasF, hasG) ∈ ([(0x01, 3, false, true), (0x02, 3, false, false), (0x03, 1, false, true), (0x10, 5, false, true),
      (0x11, 5, true, true), (0x12, 4, true, true), (0x13, 4, false, true), (0x20, 5, false, true), (0x32, 1, false, false),
      (0x33, 5, false, false), (0x34, 1, false, false), (0x35, 1, false, false), (0x36, 1, false, false), (0x37, 1, true, false),
      (0x38, 1, true, false), (0x39, 1, true, false)] : List (Byte × Nat × Bool × Bool)) →
    s.engine = .idle → d.length = len → s.hostIn = d ++ rest → opcodeOf (d.headD 0) = op →
    (reservedOf (d.headD 0) ≠ 0 ∨ (hasF = false ∧ fOf (d.headD 0) = true) ∨ (hasG = false ∧ gOf (d.headD 0) ≠ 0)) →
    ∃ t, step s = .next t ∧ Rejected (s.withHostIn rest) t

/-- R82 (b), (e), R83: a TEXT descriptor, `6 + ceil(n/2)` halfwords, with a reserved bit set, or with `n` odd and a last low byte that is
not 0, is consumed whole and rejected. -/
def Obligations.BadTextDescriptorIsRejected : Prop :=
  ∀ (s : State) (w0 x y a ss n : Half) (cs rest : List Half), s.engine = .idle → opcodeOf w0 = 0x21 →
    cs.length = (n.toNat + 1) / 2 → s.hostIn = w0 :: x :: y :: a :: ss :: n :: (cs ++ rest) →
    (reservedOf w0 ≠ 0 ∨ (n.toNat % 2 = 1 ∧ loByte (cs.getLastD 0) ≠ 0)) →
    ∃ t, step s = .next t ∧ Rejected (s.withHostIn rest) t

/-! ### Encoding -/

/-- R70 to R81: decoding the encoding of any well-formed operation gives it back, with every operand, and leaves what follows. -/
def Obligations.DecodeOfEncodeIsTheOperation : Prop :=
  ∀ (i : Instr) (rest : List Half), i.wellFormed = true → decode (encode i ++ rest) = .ok i rest

/-- R82, R84, D2: each legal descriptor has one meaning, and it is well-formed: what decodes to an operation is its encoding. -/
def Obligations.EncodeOfDecodeIsTheDescriptor : Prop :=
  ∀ (i : Instr) (ws rest : List Half), decode ws = .ok i rest → ws = encode i ++ rest ∧ i.wellFormed = true

/-- R88: the worked encodings, and each decodes to its operation. -/
def Obligations.WorkedEncodings : Prop :=
  ∀ p ∈ ([(.setpx 5 7 2, [0x0102, 0x0005, 0x0007]),
      (.line 0 0 299 399 3, [0x1003, 0x0000, 0x0000, 0x012B, 0x018F]),
      (.rect (-1) 2 10 4 1 true, [0x1105, 0xFFFF, 0x0002, 0x000A, 0x0004]),
      (.circle 150 200 50 3 false, [0x1203, 0x0096, 0x00C8, 0x0032]),
      (.glyph 0x41 10 20 3 2 90, [0x2003, 0x000A, 0x0014, 0x005A, 0x0241]),
      (.text [0x48, 0x69, 0x0A] 0 0 3 1 1 0 false, [0x2103, 0x0000, 0x0000, 0x0000, 0x0101, 0x0003, 0x4869, 0x0A00]),
      (.wrcmd 0x2C, [0x302C]), (.sleep true, [0x3704]), (.flush, [0x3400])] : List (Instr × List Half)),
    encode p.1 = p.2 ∧ decode p.2 = .ok p.1 []

/-! ### The pixel codec and the frame-buffer operations -/

/-- R42: the decided layout is the table of R42, and it is legal (R7). -/
def Obligations.DecidedLayoutIsTheTable : Prop :=
  Params.layout.Legal ∧ ∀ x y : Int, ((fieldOf Params.layout x y).hi.val : Int) = 7 - 2 * (2 * (y % 2) + x % 2) ∧
    ((fieldOf Params.layout x y).lo.val : Int) = 6 - 2 * (2 * (y % 2) + x % 2)

/-- R46: `PACK4` under any legal layout, its values under the decided one, and `UNPACK` as its inverse view. -/
def Obligations.PackedByteHoldsOneLevelInAllFields : Prop :=
  (∀ L : Layout, L.Legal → pack4 L 0 = 0x00 ∧ pack4 L 3 = 0xFF ∧ ∀ g, unpack L (pack4 L g) = [g, g, g, g]) ∧
  pack4 Params.layout 1 = 0x55 ∧ pack4 Params.layout 2 = 0xAA

/-- R44: the pixel-write primitive under any legal layout. On the panel it changes one byte, `i = (y/2)·150 + x/2`, and of it the two bits of
the pixel's field, `hi` to bit 1 of the level and `lo` to bit 0; under the decided layout that is `(FB[i] & ~(3 << lo)) | (g << lo)`. Off
the panel it changes nothing. -/
def Obligations.PixelWriteSetsItsTwoBits : Prop :=
  ∀ (L : Layout) (m : Memory) (x y : Int) (g : Gray), L.Legal → m.wf = true →
    (¬ InPanel x y → pixWrite L x y g m = m) ∧
    (InPanel x y → ∀ i : Fin NB,
      ((i.val : Int) ≠ y / 2 * 150 + x / 2 → (pixWrite L x y g m).read i = m.read i) ∧
      ((i.val : Int) = y / 2 * 150 + x / 2 →
        (∀ k : Fin 8, ((pixWrite L x y g m).read i).getLsbD k =
          if k = (fieldOf L x y).hi then g.getLsbD 1 else if k = (fieldOf L x y).lo then g.getLsbD 0 else (m.read i).getLsbD k) ∧
        (L = Params.layout → ∀ lo : Nat, (lo : Int) = 6 - 2 * (2 * (y % 2) + x % 2) →
          (pixWrite L x y g m).read i = (m.read i &&& ~~~ ((3#8) <<< lo)) ||| ((g.setWidth 8 : Byte) <<< lo))))

/-- R47: writing one pixel leaves every other pixel of the panel as it was, and a clipped write changes nothing at all. -/
def Obligations.FieldsAreIndependent : Prop :=
  ∀ (L : Layout) (m : Memory) (x y : Int) (g : Gray), L.Legal → m.wf = true →
    (InPanel x y → ∀ x' y', InPanel x' y' → (x', y') ≠ (x, y) →
      pixRead L x' y' (pixWrite L x y g m) = pixRead L x' y' m) ∧
    (¬ InPanel x y → pixWrite L x y g m = m)

/-- R100, R44, R48: SETPX completes with status OK, writes exactly the pixel `(x, y)`, if it is on the panel, and nothing else. -/
def Obligations.SetpxWritesOnePixel : Prop :=
  ∀ (s : State) (x y : Half) (g : Gray), s.cfg.layout.Legal → s.fb.wf = true →
    ∃ t, exec (.setpx x y g) s = .next t ∧ Drew (fun px py => px = x.toInt ∧ py = y.toInt) g s t ∧ DrawEnded s t ∧ t.free = s.free

/-- R101, R45: on the panel GETPX returns the pixel's level, under the decided layout `(FB[i] >> lo) & 3`, with status OK, and changes
nothing but the completion. -/
def Obligations.GetpxReturnsTheLevel : Prop :=
  ∀ (s : State) (x y : Half) (i : Fin NB) (lo : Nat), s.cfg.layout = Params.layout → InPanel x.toInt y.toInt →
    (i.val : Int) = y.toInt / 2 * 150 + x.toInt / 2 → (lo : Int) = 6 - 2 * (2 * (y.toInt % 2) + x.toInt % 2) →
    ∃ t, exec (.getpx x y) s = .next t ∧ Completed .ok ((s.fb.read i >>> lo).setWidth 2) s t ∧
      BusUntouched s t ∧ PortUntouched s t ∧ t.fb = s.fb ∧ t.pm = s.pm ∧ t.free = s.free

/-- R101, D6: outside the panel GETPX returns 0 with status OK, and changes nothing but the completion. -/
def Obligations.GetpxOutsideThePanelReturnsZero : Prop :=
  ∀ (s : State) (x y : Half), ¬ InPanel x.toInt y.toInt →
    ∃ t, exec (.getpx x y) s = .next t ∧ Completed .ok 0 s t ∧ BusUntouched s t ∧ PortUntouched s t ∧ t.fb = s.fb ∧
      t.pm = s.pm ∧ t.free = s.free

/-- R45, R100, R101: "`set_pixel(x,y,g); get_pixel(x,y) == g`", under any legal layout. -/
def Obligations.GetpxAfterSetpxReturnsTheLevel : Prop :=
  ∀ (s : State) (x y : Half) (g : Gray), s.cfg.layout.Legal → s.fb.wf = true → InPanel x.toInt y.toInt →
    ∃ t u, exec (.setpx x y g) s = .next t ∧ exec (.getpx x y) t = .next u ∧ Completed .ok g t u ∧ u.fb = t.fb

/-- R102: FILL writes `PACK4(g)` to every byte, so every pixel of the panel reads `g`, and changes nothing outside `FB`. -/
def Obligations.FillSetsEveryPixel : Prop :=
  ∀ (s : State) (g : Gray), s.cfg.layout.Legal →
    ∃ t, exec (.fill g) s = .next t ∧ (∀ x y, InPanel x y → levelAt t x y = g) ∧
      (∀ i, t.fb.read i = pack4 s.cfg.layout g) ∧ DrawEnded s t ∧ t.free = s.free

/-- R52: every drawing operation is idempotent, CIRCLEAA with its free band too: doing it twice leaves the buffer the first left. -/
def Obligations.DrawingTwiceIsDrawingOnce : Prop :=
  ∀ (s t : State) (i : Instr), s.cfg.layout.Legal → s.fb.wf = true → drawingOp i = true →
    exec i s = .next t → ∃ u, exec i t = .next u ∧ u.fb = t.fb

/-! ### The rasterizer -/

/-- R110, R111 (d): LINE writes exactly the points of the ideal line, halves rounded towards the left end, clipped. -/
def Obligations.LineDrawsTheIdealLine : Prop :=
  ∀ (s : State) (x1 y1 x2 y2 : Half) (g : Gray), s.cfg.layout.Legal → s.fb.wf = true →
    ∃ t, exec (.line x1 y1 x2 y2 g) s = .next t ∧ Drew (LineSet x1.toInt y1.toInt x2.toInt y2.toInt) g s t ∧ DrawEnded s t ∧
      t.free = s.free

/-- R111 (c): a LINE and the LINE with its endpoints exchanged end in the same state. -/
def Obligations.LineDoesNotDependOnTheOrderOfItsEnds : Prop :=
  ∀ (s : State) (x1 y1 x2 y2 : Half) (g : Gray), exec (.line x1 y1 x2 y2 g) s = exec (.line x2 y2 x1 y1 g) s

/-- R113, R115: filled RECT of sizes 0 or more writes exactly the closed rectangle, clipped; nothing if a size is 0. -/
def Obligations.FilledRectDrawsTheClosedRectangle : Prop :=
  ∀ (s : State) (x y w h : Half) (g : Gray), s.cfg.layout.Legal → s.fb.wf = true → 0 ≤ w.toInt → 0 ≤ h.toInt →
    ∃ t, exec (.rect x y w h g true) s = .next t ∧ Drew (RectSet x.toInt y.toInt w.toInt h.toInt) g s t ∧ DrawEnded s t ∧
      t.free = s.free

/-- R113, R114: outline RECT of sizes 0 or more writes exactly the border of the closed rectangle, clipped; nothing if a size is 0. -/
def Obligations.OutlineRectDrawsTheBorder : Prop :=
  ∀ (s : State) (x y w h : Half) (g : Gray), s.cfg.layout.Legal → s.fb.wf = true → 0 ≤ w.toInt → 0 ≤ h.toInt →
    ∃ t, exec (.rect x y w h g false) s = .next t ∧ Drew (RectBorder x.toInt y.toInt w.toInt h.toInt) g s t ∧ DrawEnded s t ∧
      t.free = s.free

/-- R115: `RECT 0, 0, 300, 400, g, 1` leaves `FB` as `FILL g` does. -/
def Obligations.RectOverThePanelIsFill : Prop :=
  ∀ (s : State) (g : Gray), s.cfg.layout.Legal → s.fb.wf = true →
    ∃ t u, exec (.rect 0 0 300 400 g true) s = .next t ∧ exec (.fill g) s = .next u ∧ t.fb = u.fb

/-- R117: `Oct(r)` emits exactly the octant points whose `b` is nearest the ideal circle. -/
def Obligations.OctantPointsAreTheNearest : Prop :=
  ∀ r a b : Int, 0 ≤ r → ((a, b) ∈ oct r ↔ OctPair r a b)

/-- R116: outline CIRCLE of radius 0 or more writes exactly the eight reflections of the octant points, clipped. -/
def Obligations.OutlineCircleDrawsTheReflections : Prop :=
  ∀ (s : State) (x0 y0 r : Half) (g : Gray), s.cfg.layout.Legal → s.fb.wf = true → 0 ≤ r.toInt →
    ∃ t, exec (.circle x0 y0 r g false) s = .next t ∧ Drew (CircleBorder x0.toInt y0.toInt r.toInt) g s t ∧ DrawEnded s t ∧
      t.free = s.free

/-- R116: filled CIRCLE of radius 0 or more writes exactly the spans of the octant points, clipped. -/
def Obligations.FilledCircleDrawsTheSpans : Prop :=
  ∀ (s : State) (x0 y0 r : Half) (g : Gray), s.cfg.layout.Legal → s.fb.wf = true → 0 ≤ r.toInt →
    ∃ t, exec (.circle x0 y0 r g true) s = .next t ∧ Drew (CircleDisc x0.toInt y0.toInt r.toInt) g s t ∧ DrawEnded s t ∧
      t.free = s.free

/-- R119 (b): after a filled CIRCLE every panel pixel within `r - 1` of the centre is `g` and every one beyond `r + 1` is as before. -/
def Obligations.FilledCircleCoversTheDisc : Prop :=
  ∀ (s : State) (x0 y0 r : Half) (g : Gray), s.cfg.layout.Legal → s.fb.wf = true → 0 ≤ r.toInt →
    ∃ t, exec (.circle x0 y0 r g true) s = .next t ∧ ∀ px py, InPanel px py →
      (1 ≤ r.toInt → (px - x0.toInt) ^ 2 + (py - y0.toInt) ^ 2 ≤ (r.toInt - 1) ^ 2 → levelAt t px py = g) ∧
      ((r.toInt + 1) ^ 2 < (px - x0.toInt) ^ 2 + (py - y0.toInt) ^ 2 → levelAt t px py = levelAt s px py)

/-- R118: with `HAS_AA`, CIRCLEAA of radius 0 or more sets the inside to `g`, leaves the outside, and leaves each band pixel as it was or
sets it to some level up to `g`, whichever the free value says (log 8). -/
def Obligations.CircleaaFixesInsideAndOutside : Prop :=
  ∀ (s : State) (x0 y0 r : Half) (g : Gray), s.cfg.layout.Legal → s.fb.wf = true → s.cfg.hasAA = true → 0 ≤ r.toInt →
    ∃ t, exec (.circleaa x0 y0 r g) s = .next t ∧ DrawEnded s t ∧ t.free = s.free ∧
      (∀ px py, InPanel px py →
        (1 ≤ r.toInt ∧ (px - x0.toInt) ^ 2 + (py - y0.toInt) ^ 2 ≤ (r.toInt - 1) ^ 2 → levelAt t px py = g) ∧
        ((r.toInt + 1) ^ 2 ≤ (px - x0.toInt) ^ 2 + (py - y0.toInt) ^ 2 → levelAt t px py = levelAt s px py) ∧
        ((px - x0.toInt) ^ 2 + (py - y0.toInt) ^ 2 < (r.toInt + 1) ^ 2 → levelAt t px py = levelAt s px py ∨ levelAt t px py ≤ g)) ∧
      (∀ i : Fin NB, (∀ px py, InPanel px py → (px - x0.toInt) ^ 2 + (py - y0.toInt) ^ 2 < (r.toInt + 1) ^ 2 →
        byteIndex px py ≠ i.val) → t.fb.read i = s.fb.read i)

/-- R182, R121, R82 (f): every operand test that fails, and CIRCLEAA without `HAS_AA`, rejects: no byte of `FB` written, nothing sent, `PM`
and `FAULTED` as before. -/
def Obligations.BadOperandsAreRejected : Prop :=
  ∀ (s : State) (x y w h r cs ce rs re angle : Half) (g : Gray) (f : Bool) (ch spacing : Byte) (chars : List Byte) (i : Instr),
    ((i = .rect x y w h g f ∧ (w.toInt < 0 ∨ h.toInt < 0)) ∨ (i = .circle x y r g f ∧ r.toInt < 0) ∨
      (i = .circleaa x y r g ∧ (r.toInt < 0 ∨ s.cfg.hasAA = false)) ∨ i = .glyph ch x y g 0 angle ∨
      i = .text chars x y g 0 spacing angle f ∨
      (i = .setwin cs ce rs re ∧ ∃ v ∈ [cs, ce, rs, re], v.toInt < 0 ∨ 255 < v.toInt)) →
    ∃ t, exec i s = .next t ∧ Rejected s t

/-! ### The glyph compositor -/

/-- R131, R134, R136: at the four right angles a glyph whose cell lies on the panel is drawn as its set cell pixels turned clockwise by
that angle about the cell's centre; the other pixels of the cell keep their levels. -/
def Obligations.GlyphDrawsItsTurnedCell : Prop :=
  ∀ (s : State) (ch : Byte) (x y : Half) (g : Gray) (scale : Byte) (angle : Half) (G : Glyph) (q : Nat),
    s.cfg.layout.Legal → s.fb.wf = true → scale ≠ 0 → q < 4 → angle.toInt % 360 = 90 * q → fontGlyph s.cfg ch = some G →
    CellOnPanel scale.toNat x.toInt y.toInt →
    ∃ t, exec (.glyph ch x y g scale angle) s = .next t ∧ Drew (GlyphSet G scale.toNat q x.toInt y.toInt) g s t ∧
      DrawEnded s t ∧ t.free = s.free

/-- R135, R132, R138, R184: at any angle an absent character, a glyph whose box (`BBOX`, log 9) is not wholly on the panel, at a right angle
one whose cell is not, and every glyph of scale 38 or more, write no pixel and end with status OK. -/
def Obligations.GlyphThatDoesNotFitDrawsNothing : Prop :=
  ∀ (s : State) (ch : Byte) (x y : Half) (g : Gray) (scale : Byte) (angle : Half), scale ≠ 0 →
    (fontGlyph s.cfg ch = none ∨ ¬ BoxOnPanel (bbox s.cfg (angle.toInt % 360).toNat scale.toNat) x.toInt y.toInt ∨
      38 ≤ scale.toNat ∨ (angle.toInt % 90 = 0 ∧ ¬ CellOnPanel scale.toNat x.toInt y.toInt)) →
    ∃ t, exec (.glyph ch x y g scale angle) s = .next t ∧ t.fb = s.fb ∧ DrawEnded s t ∧ t.free = s.free

/-- R135, R136, R137 (a): at any angle, whatever `ROT` and `BBOX` the chip has (log 9), a glyph whose box is on the panel writes exactly its
set cell pixels turned by `ROT`, all of them on the panel; one whose box is not writes no pixel. -/
def Obligations.GlyphIsDrawnWholeOrNotAtAll : Prop :=
  ∀ (s : State) (ch : Byte) (x y : Half) (g : Gray) (scale : Byte) (angle : Half) (G : Glyph),
    s.cfg.layout.Legal → s.fb.wf = true → scale ≠ 0 → fontGlyph s.cfg ch = some G →
    ∃ t, exec (.glyph ch x y g scale angle) s = .next t ∧ DrawEnded s t ∧
      (if BoxOnPanel (bbox s.cfg (angle.toInt % 360).toNat scale.toNat) x.toInt y.toInt then
        ((∀ u v : Nat, u < 8 * scale.toNat → v < 8 * scale.toNat →
            InPanel (x.toInt + (rot s.cfg (angle.toInt % 360).toNat scale.toNat u v).1)
              (y.toInt + (rot s.cfg (angle.toInt % 360).toNat scale.toNat u v).2)) ∧
          Drew (fun px py => ∃ u v : Nat, u < 8 * scale.toNat ∧ v < 8 * scale.toNat ∧
            glyphBit G (v / scale.toNat) (u / scale.toNat) = true ∧
            px = x.toInt + (rot s.cfg (angle.toInt % 360).toNat scale.toNat u v).1 ∧
            py = y.toInt + (rot s.cfg (angle.toInt % 360).toNat scale.toNat u v).2) g s t)
      else t.fb = s.fb)

/-- R134, R137 (b), (c): at the right angles `ROT` is that many quarter turns, stays in the cell, and four quarter turns are the identity. -/
def Obligations.RightAnglesAreQuarterTurns : Prop :=
  ∀ (cfg : Config) (scale u v q : Nat), u < 8 * scale → v < 8 * scale → q < 4 →
    rot cfg (90 * q) scale u v = quarterTurns (8 * scale) q (u, v) ∧
    0 ≤ (rot cfg (90 * q) scale u v).1 ∧ (rot cfg (90 * q) scale u v).1 < 8 * scale ∧
    0 ≤ (rot cfg (90 * q) scale u v).2 ∧ (rot cfg (90 * q) scale u v).2 < 8 * scale ∧
    quarterTurns (8 * scale) 4 (u, v) = ((u : Int), (v : Int))

/-- R139, R140: a TEXT of present characters whose lines need no wrap. In line `j` (counting from 0), the `k`-th character drawn, counting
from the line's beginning, or in reverse from its end, has its cell at `x + k·adv`, in reverse at `x - N - k·adv`, and at
`y + j·(N + LINE_GAP)`; the TEXT writes exactly the points of those glyphs. -/
def Obligations.TextLaysOutItsLines : Prop :=
  ∀ (s : State) (lines : List (List Byte)) (x y : Half) (g : Gray) (scale spacing : Byte) (angle : Half) (f : Bool) (n adv : Int),
    s.cfg.layout.Legal → s.fb.wf = true → scale ≠ 0 → lines ≠ [] → n = 8 * scale.toNat → adv = n + spacing.toNat →
    (∀ l ∈ lines, ∀ c ∈ l, c ≠ s.cfg.newline ∧ fontGlyph s.cfg c ≠ none) →
    (∀ l ∈ lines, ∀ k : Nat, k < l.length →
      if f then 0 ≤ x.toInt - k * adv - n else x.toInt + k * adv + n ≤ 300) →
    ∃ t, exec (.text (List.intercalate [s.cfg.newline] lines) x y g scale spacing angle f) s = .next t ∧ DrawEnded s t ∧
      t.free = s.free ∧
      Drew (fun px py => ∃ (j k : Nat) (l : List Byte) (c : Byte), lines[j]? = some l ∧
        (if f then l.reverse else l)[k]? = some c ∧
        (px, py) ∈ glyphPoints s.cfg c (if f then x.toInt - n - k * adv else x.toInt + k * adv)
          (y.toInt + j * (n + s.cfg.lineGap)) scale.toNat (angle.toInt % 360).toNat) g s t

/-- R139, R140: the wrap rule, for every TEXT: any characters, absent ones and newlines among them, any number of wraps. The cells of line
`j`, which begins at row `cy j`, are those of `LineCells`: its present characters in drawing order, each one advance on from the last if it
fits there, else at the line's start one line height down; the next line begins one line height below the last cell, or below its own
beginning if it has none. The TEXT writes exactly the points of the glyphs in these cells. -/
def Obligations.TextCellsKeepTheWrapRule : Prop :=
  ∀ (s : State) (lines : List (List Byte)) (x y : Half) (g : Gray) (scale spacing : Byte) (angle : Half) (f : Bool) (n lh : Int),
    s.cfg.layout.Legal → s.fb.wf = true → scale ≠ 0 → lines ≠ [] → (∀ l ∈ lines, s.cfg.newline ∉ l) →
    n = 8 * scale.toNat → lh = n + s.cfg.lineGap →
    ∃ (t : State) (cy : Nat → Int) (ps : Nat → List Place),
      exec (.text (List.intercalate [s.cfg.newline] lines) x y g scale spacing angle f) s = .next t ∧ DrawEnded s t ∧ t.free = s.free ∧
      cy 0 = y.toInt ∧
      (∀ (j : Nat) (l : List Byte), lines[j]? = some l →
        LineCells s.cfg (if f then x.toInt - n else x.toInt) n (n + spacing.toNat) lh f l (cy j) (ps j) ∧
        cy (j + 1) = lastRow (cy j) (ps j) + lh) ∧
      Drew (fun px py => ∃ (j : Nat) (p : Place), j < lines.length ∧ p ∈ ps j ∧
        (px, py) ∈ glyphPoints s.cfg p.ch p.gx p.gy scale.toNat (angle.toInt % 360).toNat) g s t

/-- R138, R139: absent characters leave no trace in a TEXT, not even in the cursor: the TEXT without them does the same. -/
def Obligations.TextSkipsAbsentCharacters : Prop :=
  ∀ (s : State) (chars : List Byte) (x y : Half) (g : Gray) (scale spacing : Byte) (angle : Half) (f : Bool),
    exec (.text chars x y g scale spacing angle f) s =
      exec (.text (chars.filter (fun c => c == s.cfg.newline || (fontGlyph s.cfg c).isSome)) x y g scale spacing angle f) s

/-! ### The display protocol -/

/-- R155, R156: with the answer Done, WRCMD and WRDATA send one transaction of their byte and change nothing outside the bus; `PM` stays
whatever the byte is. -/
def Obligations.RawBytesSendOneTransaction : Prop :=
  ∀ (s : State) (b : Byte), NextDone 1 s →
    (∃ t, exec (.wrcmd b) s = .next t ∧ Sent (transaction .cmd [b]) 1 .cmd s t ∧ t.fb = s.fb ∧ t.pm = s.pm ∧ t.rst = s.rst) ∧
    (∃ t, exec (.wrdata b) s = .next t ∧ Sent (transaction .data [b]) 1 .data s t ∧ t.fb = s.fb ∧ t.pm = s.pm ∧ t.rst = s.rst)

/-- R162 to R165: with the answer Done, the toggles send their one command and their delay, whatever was sent before, and leave `PM` and
`FB`. -/
def Obligations.TogglesSendOneCommandAndTheirDelay : Prop :=
  ∀ (s : State) (f : Bool), NextDone 1 s →
    (∃ t, exec (.sleep f) s = .next t ∧
      Sent (transaction .cmd [if f then s.cfg.cmdSlpin else s.cfg.cmdSlpout] ++ delayEvents (if f then s.cfg.tSlpin else s.cfg.tSlpout))
        1 .cmd s t ∧ t.fb = s.fb ∧ t.pm = s.pm ∧ t.rst = s.rst) ∧
    (∃ t, exec (.dispon f) s = .next t ∧
      Sent (transaction .cmd [if f then s.cfg.cmdDispon else s.cfg.cmdDispoff] ++ delayEvents (if f then s.cfg.tDispon else s.cfg.tDispoff))
        1 .cmd s t ∧ t.fb = s.fb ∧ t.pm = s.pm ∧ t.rst = s.rst) ∧
    (∃ t, exec (.invert f) s = .next t ∧
      Sent (transaction .cmd [if f then s.cfg.cmdInvon else s.cfg.cmdInvoff] ++ delayEvents (if f then s.cfg.tInvon else s.cfg.tInvoff))
        1 .cmd s t ∧ t.fb = s.fb ∧ t.pm = s.pm ∧ t.rst = s.rst)

/-- R158: with six answers Done, SETWIN with operands 0 to 255 sends the column command and its two bytes, then the row command and its two,
six transactions, and keeps nothing. -/
def Obligations.SetwinSendsTheWindow : Prop :=
  ∀ (s : State) (cs ce rs re : Half), (∀ v ∈ [cs, ce, rs, re], 0 ≤ v.toInt ∧ v.toInt ≤ 255) → NextDone 6 s →
    ∃ t, exec (.setwin cs ce rs re) s = .next t ∧
      Sent (windowEvents s.cfg (BitVec.ofInt 8 cs.toInt) (BitVec.ofInt 8 ce.toInt) (BitVec.ofInt 8 rs.toInt) (BitVec.ofInt 8 re.toInt))
        6 .data s t ∧ t.fb = s.fb ∧ t.pm = s.pm ∧ t.rst = s.rst

/-- R159, R56: with eight answers Done, FLUSH sends the full-extent window, the write command, and the 30000 bytes of `FB` in ascending
index as one transaction, 30031 events in all, and leaves `FB`. -/
def Obligations.FlushStreamsTheBuffer : Prop :=
  ∀ s : State, NextDone 8 s →
    ∃ (t : State) (es : List BusEvent), exec .flush s = .next t ∧ Sent es 8 .data s t ∧ t.fb = s.fb ∧ t.pm = s.pm ∧ t.rst = s.rst ∧
      es.length = 30031 ∧ es.take 28 = windowEvents s.cfg s.cfg.winCs s.cfg.winCe s.cfg.winRs s.cfg.winRe ++ transaction .cmd [s.cfg.cmdRamwr] ∧
      es[28]? = some (.dc .data) ∧ es[29]? = some (.cs .active) ∧ (∀ i : Fin NB, es[30 + i.val]? = some (.byte (s.fb.read i))) ∧
      es[30030]? = some (.cs .inactive)

/-- R159, R183: a burst that fails after `j` bytes leaves those `j` bytes in the trace, chip-select released, and the status BUSFAULT; `FB`
and `PM` are as before. -/
def Obligations.FailedBurstLeavesItsBytes : Prop :=
  ∀ (s : State) (j : Nat) (rest : List BusAnswer), j < NB → s.answers = List.replicate 7 .done ++ .fail j :: rest →
    ∃ t, exec .flush s = .next t ∧ Completed .busFault 0 s t ∧ PortUntouched s t ∧ t.fb = s.fb ∧ t.pm = s.pm ∧ t.cs = .inactive ∧
      t.rst = s.rst ∧ t.answers = rest ∧
      t.trace = s.trace ++ (windowEvents s.cfg s.cfg.winCs s.cfg.winCe s.cfg.winRs s.cfg.winRe ++ transaction .cmd [s.cfg.cmdRamwr] ++
        [.dc .data, .cs .active] ++ (s.fb.bytes.take j).map .byte ++ [.cs .inactive])

/-- R157: with every answer Done, INIT sends the reset pulse with its delays, the table, and a flush of a zeroed buffer, and leaves `FB` all
zero, `PM` HighPower and `RST` released. -/
def Obligations.InitConfiguresClearsAndFlushes : Prop :=
  ∀ s : State, NextDone (tableXfers s.cfg.initTable + 8) s →
    ∃ t, exec .init s = .next t ∧
      Sent (initHead s.cfg ++ flushEvents s.cfg State.reset.fb) (tableXfers s.cfg.initTable + 8) .data s t ∧
      (∀ i, t.fb.read i = 0x00) ∧ t.pm = .highPower ∧ t.rst = .released

/-- R157, R183, D30: where INIT's first failing transaction is the one after `k` good ones, it ends with BUSFAULT and leaves `PM`; it leaves
`FB` untouched if that is in the table, and cleared if it is in the flush. -/
def Obligations.FailedInitKeepsThePowerMode : Prop :=
  ∀ (s : State) (k j : Nat) (rest : List BusAnswer), k < tableXfers s.cfg.initTable + 8 →
    s.answers = List.replicate k .done ++ .fail j :: rest →
    ∃ t, exec .init s = .next t ∧ Completed .busFault 0 s t ∧ PortUntouched s t ∧ t.pm = s.pm ∧ t.cs = .inactive ∧
      t.rst = .released ∧ t.answers = rest ∧
      (k < tableXfers s.cfg.initTable → t.fb = s.fb) ∧ (tableXfers s.cfg.initTable ≤ k → ∀ i, t.fb.read i = 0x00)

/-- R160: from HighPower, with every answer Done, LPM sends the mode command, the table and the settle delay, and sets `PM` to LowPower. -/
def Obligations.LpmEntersLowPower : Prop :=
  ∀ s : State, s.pm = .highPower → NextDone (tableXfers s.cfg.lpmTable + 1) s →
    ∃ t, exec .lpm s = .next t ∧
      Sent (transaction .cmd [s.cfg.cmdLpm] ++ tableEvents s.cfg.lpmTable ++ delayEvents s.cfg.tLpm)
        (tableXfers s.cfg.lpmTable + 1) (tableKind s.cfg.lpmTable) s t ∧
      t.pm = .lowPower ∧ t.fb = s.fb ∧ t.rst = s.rst

/-- R161: from LowPower, with every answer Done, HPM sends the mode command, the table and the settle delay, and sets `PM` to HighPower. -/
def Obligations.HpmEntersHighPower : Prop :=
  ∀ s : State, s.pm = .lowPower → NextDone (tableXfers s.cfg.hpmTable + 1) s →
    ∃ t, exec .hpm s = .next t ∧
      Sent (transaction .cmd [s.cfg.cmdHpm] ++ tableEvents s.cfg.hpmTable ++ delayEvents s.cfg.tHpm)
        (tableXfers s.cfg.hpmTable + 1) (tableKind s.cfg.hpmTable) s t ∧
      t.pm = .highPower ∧ t.fb = s.fb ∧ t.rst = s.rst

/-- R160, R161: in its target mode each power-mode operation sends nothing and cannot fail, whatever the transport would answer. -/
def Obligations.PowerModeOperationsAreIdempotent : Prop :=
  ∀ (s : State) (i : Instr), ((i = .lpm ∧ s.pm = .lowPower) ∨ (i = .hpm ∧ s.pm = .highPower)) →
    ∃ t, exec i s = .next t ∧ Completed .ok 0 s t ∧ BusUntouched s t ∧ PortUntouched s t ∧ t.fb = s.fb ∧ t.pm = s.pm ∧ t.free = s.free

/-- R183, R189, R151, R27, R153: whichever transaction of an operation fails first, after `k` good ones, the operation ends with BUSFAULT, which sets
`FAULTED`; `PM` is not written and chip-select is released; no later answer is asked for; and what was sent is every event before that
transaction, its mode-select and chip-select, its first `j` bytes and the release, and nothing after. -/
def Obligations.FirstFailureEndsInBusfault : Prop :=
  ∀ (s : State) (i : Instr) (k j : Nat) (rest : List BusAnswer), k < opXfers s i →
    s.answers = List.replicate k .done ++ .fail j :: rest →
    ∃ t, exec i s = .next t ∧ Completed .busFault 0 s t ∧ t.faulted = true ∧ t.pm = s.pm ∧ t.cs = .inactive ∧
      t.answers = rest ∧ s.trace <+: t.trace ∧
      (j < burstLength k (opEvents s i) → t.trace = s.trace ++ cutAt j k (opEvents s i) ++ [.cs .inactive])

/-- R186, R151: whichever transaction of the accepted operation stalls first, the step ends with the operation never completing: no record,
`CS` active, `LAST` and `FAULTED` as before, sent is every event before that transaction, its mode-select and chip-select and its first
`j` bytes, and nothing after, and the engine has no further step, which the model says with the fault `busStalled` (log 12),
so no later operation is accepted. -/
def Obligations.StalledTransferHangsTheEngine : Prop :=
  ∀ (s : State) (i : Instr) (rest : List Half) (k j : Nat) (more : List BusAnswer), s.engine = .idle →
    decode s.hostIn = .ok i rest → k < opXfers s i → s.answers = List.replicate k .done ++ .stall j :: more →
    ∃ t, step s = .next t ∧ t.hostOut = s.hostOut ∧ t.cs = .active ∧ t.last = s.last ∧ t.faulted = s.faulted ∧
      t.engine = .executing i ∧ s.trace <+: t.trace ∧
      (j < burstLength k (opEvents s i) → t.trace = s.trace ++ cutAt j k (opEvents s i)) ∧ step t = .fault .busStalled

/-! ### The whole machine -/

/-- R180, R185, R34: in every state every operation answers a next state, it neither faults nor is refused; it completes once, with one
record, a status R185 allows it and a value that is 0 but for GETPX, or, a protocol operation only, it hangs; either way the host's
halfwords and the configuration are as before. -/
def Obligations.OperationsEndAsTheTableSays : Prop :=
  ∀ (i : Instr) (s : State), ∃ t, exec i s = .next t ∧
    ((∃ st v, Completed st v s t ∧ mayEnd i st = true ∧ (v ≠ 0 → ∃ x y, i = .getpx x y)) ∨ (Hung s t ∧ drawingOp i = false)) ∧
    PortUntouched s t

/-- R167 (c), R120, 41_rasterizer.md and 42_text.md preambles: the drawing operations always complete, send nothing, ask the transport
nothing, and leave `PM` and `FAULTED`. -/
def Obligations.DrawingNeverTouchesTheBus : Prop :=
  ∀ (i : Instr) (s : State), drawingOp i = true →
    ∃ t st v, exec i s = .next t ∧ Completed st v s t ∧ BusUntouched s t ∧ PortUntouched s t ∧ t.pm = s.pm ∧ t.faulted = s.faulted ∧
      t.free = s.free

/-- R182, R189, R167 (e): an operation that completes with REJECT had no effect at all. -/
def Obligations.RejectedOperationsHaveNoEffect : Prop :=
  ∀ (i : Instr) (s t : State), exec i s = .next t → Completed .reject 0 s t → Rejected s t

/-- R25, R150, R165: only INIT, LPM and HPM change `PM`, each to its own mode, and only when they complete with status OK. -/
def Obligations.OnlyThreeOperationsChangeThePowerMode : Prop :=
  ∀ (i : Instr) (s t : State), exec i s = .next t → t.pm ≠ s.pm →
    Completed .ok 0 s t ∧ ((i = .init ∧ t.pm = .highPower) ∨ (i = .lpm ∧ t.pm = .lowPower) ∨ (i = .hpm ∧ t.pm = .highPower))

/-- R24: an operation that is neither a drawing operation nor INIT leaves `FB`, and so does GETPX. -/
def Obligations.OnlyDrawingAndInitWriteTheBuffer : Prop :=
  ∀ (i : Instr) (s t : State), (drawingOp i = false ∧ i ≠ .init ∨ ∃ x y, i = .getpx x y) → exec i s = .next t → t.fb = s.fb

/-- R27: `FAULTED` is set by a BUSFAULT and by nothing else, and no step clears it. -/
def Obligations.FaultedIsSticky : Prop :=
  ∀ s t : State, step s = .next t → (s.faulted = true → t.faulted = true) ∧
    (s.faulted = false → t.faulted = true → t.last = .busFault)

/-- R27: `FAULTED` gates nothing: with the flag the other way every operation does the same to everything else, and the records differ in
their status bytes at most. -/
def Obligations.FaultedGatesNothing : Prop :=
  ∀ (i : Instr) (s : State) (b : Bool), ∃ t u, exec i s = .next t ∧ exec i { s with faulted := b } = .next u ∧
    u.fb = t.fb ∧ u.pm = t.pm ∧ u.last = t.last ∧ u.cs = t.cs ∧ u.dc = t.dc ∧ u.rst = t.rst ∧ u.trace = t.trace ∧
    u.engine = t.engine ∧ u.hostIn = t.hostIn ∧ u.answers = t.answers ∧ u.free = t.free ∧ u.cfg = t.cfg ∧
    u.hostOut.map (fun c => c.value) = t.hostOut.map (fun c => c.value)

/-- R28, R25, R180: the status byte: `LAST` in bits 1:0 with codes 0, 1, 2, `FAULTED` in bit 2, `PM` in bit 3 (1 = LowPower), zeros above. -/
def Obligations.StatusByteHasItsFields : Prop :=
  ∀ s : State, (statusByte s).extractLsb' 0 2 = (match s.last with | .ok => 0 | .reject => 1 | .busFault => 2 : BitVec 2) ∧
    (statusByte s).getLsbD 2 = s.faulted ∧ (statusByte s).getLsbD 3 = decide (s.pm = .lowPower) ∧
    (statusByte s).extractLsb' 4 4 = 0

/-- R30, R38, R34: a step only appends to the trace and to the records, consumes halfwords only from the front, and leaves the
configuration. -/
def Obligations.StepsOnlyAppend : Prop :=
  ∀ s t : State, step s = .next t →
    s.trace <+: t.trace ∧ s.hostOut <+: t.hostOut ∧ t.hostIn <:+ s.hostIn ∧ t.cfg = s.cfg

/-- R29, R167 (a), (b), R40, R180: the invariant (Safety.lean, `Inv`) holds after reset. -/
def Obligations.InvariantHoldsAtReset : Prop := Inv State.reset

/-- R29, R167 (a), (b), R180, R186: every step keeps the invariant: the buffer canonical, chip-select active exactly while an operation hangs,
the reset line released, the trace a run of the bus protocol, every reported status byte one that can occur. -/
def Obligations.EveryStepKeepsTheInvariant : Prop :=
  ∀ s t : State, Inv s → step s = .next t → Inv t
end

