-- ==== Sys2Proof/Laws/State.lean ====
section
/-! SUPPORT. One lemma per field per named update of the state, and the small lemmas of the operations made of them. -/

namespace Sys2Proof.Machine

/-! ### withFb -/

@[simp] theorem State.withFb_fb (s : State) (m : Memory) : (s.withFb m).fb = m := rfl
@[simp] theorem State.withFb_pm (s : State) (m : Memory) : (s.withFb m).pm = s.pm := rfl
@[simp] theorem State.withFb_faulted (s : State) (m : Memory) : (s.withFb m).faulted = s.faulted := rfl
@[simp] theorem State.withFb_last (s : State) (m : Memory) : (s.withFb m).last = s.last := rfl
@[simp] theorem State.withFb_cs (s : State) (m : Memory) : (s.withFb m).cs = s.cs := rfl
@[simp] theorem State.withFb_dc (s : State) (m : Memory) : (s.withFb m).dc = s.dc := rfl
@[simp] theorem State.withFb_rst (s : State) (m : Memory) : (s.withFb m).rst = s.rst := rfl
@[simp] theorem State.withFb_trace (s : State) (m : Memory) : (s.withFb m).trace = s.trace := rfl
@[simp] theorem State.withFb_engine (s : State) (m : Memory) : (s.withFb m).engine = s.engine := rfl
@[simp] theorem State.withFb_hostIn (s : State) (m : Memory) : (s.withFb m).hostIn = s.hostIn := rfl
@[simp] theorem State.withFb_hostOut (s : State) (m : Memory) : (s.withFb m).hostOut = s.hostOut := rfl
@[simp] theorem State.withFb_answers (s : State) (m : Memory) : (s.withFb m).answers = s.answers := rfl
@[simp] theorem State.withFb_free (s : State) (m : Memory) : (s.withFb m).free = s.free := rfl
@[simp] theorem State.withFb_cfg (s : State) (m : Memory) : (s.withFb m).cfg = s.cfg := rfl

/-! ### withPm -/

@[simp] theorem State.withPm_fb (s : State) (p : PowerMode) : (s.withPm p).fb = s.fb := rfl
@[simp] theorem State.withPm_pm (s : State) (p : PowerMode) : (s.withPm p).pm = p := rfl
@[simp] theorem State.withPm_faulted (s : State) (p : PowerMode) : (s.withPm p).faulted = s.faulted := rfl
@[simp] theorem State.withPm_last (s : State) (p : PowerMode) : (s.withPm p).last = s.last := rfl
@[simp] theorem State.withPm_cs (s : State) (p : PowerMode) : (s.withPm p).cs = s.cs := rfl
@[simp] theorem State.withPm_dc (s : State) (p : PowerMode) : (s.withPm p).dc = s.dc := rfl
@[simp] theorem State.withPm_rst (s : State) (p : PowerMode) : (s.withPm p).rst = s.rst := rfl
@[simp] theorem State.withPm_trace (s : State) (p : PowerMode) : (s.withPm p).trace = s.trace := rfl
@[simp] theorem State.withPm_engine (s : State) (p : PowerMode) : (s.withPm p).engine = s.engine := rfl
@[simp] theorem State.withPm_hostIn (s : State) (p : PowerMode) : (s.withPm p).hostIn = s.hostIn := rfl
@[simp] theorem State.withPm_hostOut (s : State) (p : PowerMode) : (s.withPm p).hostOut = s.hostOut := rfl
@[simp] theorem State.withPm_answers (s : State) (p : PowerMode) : (s.withPm p).answers = s.answers := rfl
@[simp] theorem State.withPm_free (s : State) (p : PowerMode) : (s.withPm p).free = s.free := rfl
@[simp] theorem State.withPm_cfg (s : State) (p : PowerMode) : (s.withPm p).cfg = s.cfg := rfl

/-! ### withCs -/

@[simp] theorem State.withCs_fb (s : State) (a : ChipSelect) : (s.withCs a).fb = s.fb := rfl
@[simp] theorem State.withCs_pm (s : State) (a : ChipSelect) : (s.withCs a).pm = s.pm := rfl
@[simp] theorem State.withCs_faulted (s : State) (a : ChipSelect) : (s.withCs a).faulted = s.faulted := rfl
@[simp] theorem State.withCs_last (s : State) (a : ChipSelect) : (s.withCs a).last = s.last := rfl
@[simp] theorem State.withCs_cs (s : State) (a : ChipSelect) : (s.withCs a).cs = a := rfl
@[simp] theorem State.withCs_dc (s : State) (a : ChipSelect) : (s.withCs a).dc = s.dc := rfl
@[simp] theorem State.withCs_rst (s : State) (a : ChipSelect) : (s.withCs a).rst = s.rst := rfl
@[simp] theorem State.withCs_trace (s : State) (a : ChipSelect) : (s.withCs a).trace = s.trace := rfl
@[simp] theorem State.withCs_engine (s : State) (a : ChipSelect) : (s.withCs a).engine = s.engine := rfl
@[simp] theorem State.withCs_hostIn (s : State) (a : ChipSelect) : (s.withCs a).hostIn = s.hostIn := rfl
@[simp] theorem State.withCs_hostOut (s : State) (a : ChipSelect) : (s.withCs a).hostOut = s.hostOut := rfl
@[simp] theorem State.withCs_answers (s : State) (a : ChipSelect) : (s.withCs a).answers = s.answers := rfl
@[simp] theorem State.withCs_free (s : State) (a : ChipSelect) : (s.withCs a).free = s.free := rfl
@[simp] theorem State.withCs_cfg (s : State) (a : ChipSelect) : (s.withCs a).cfg = s.cfg := rfl

/-! ### withDc -/

@[simp] theorem State.withDc_fb (s : State) (k : BusKind) : (s.withDc k).fb = s.fb := rfl
@[simp] theorem State.withDc_pm (s : State) (k : BusKind) : (s.withDc k).pm = s.pm := rfl
@[simp] theorem State.withDc_faulted (s : State) (k : BusKind) : (s.withDc k).faulted = s.faulted := rfl
@[simp] theorem State.withDc_last (s : State) (k : BusKind) : (s.withDc k).last = s.last := rfl
@[simp] theorem State.withDc_cs (s : State) (k : BusKind) : (s.withDc k).cs = s.cs := rfl
@[simp] theorem State.withDc_dc (s : State) (k : BusKind) : (s.withDc k).dc = k := rfl
@[simp] theorem State.withDc_rst (s : State) (k : BusKind) : (s.withDc k).rst = s.rst := rfl
@[simp] theorem State.withDc_trace (s : State) (k : BusKind) : (s.withDc k).trace = s.trace := rfl
@[simp] theorem State.withDc_engine (s : State) (k : BusKind) : (s.withDc k).engine = s.engine := rfl
@[simp] theorem State.withDc_hostIn (s : State) (k : BusKind) : (s.withDc k).hostIn = s.hostIn := rfl
@[simp] theorem State.withDc_hostOut (s : State) (k : BusKind) : (s.withDc k).hostOut = s.hostOut := rfl
@[simp] theorem State.withDc_answers (s : State) (k : BusKind) : (s.withDc k).answers = s.answers := rfl
@[simp] theorem State.withDc_free (s : State) (k : BusKind) : (s.withDc k).free = s.free := rfl
@[simp] theorem State.withDc_cfg (s : State) (k : BusKind) : (s.withDc k).cfg = s.cfg := rfl

/-! ### withRst -/

@[simp] theorem State.withRst_fb (s : State) (a : ResetLine) : (s.withRst a).fb = s.fb := rfl
@[simp] theorem State.withRst_pm (s : State) (a : ResetLine) : (s.withRst a).pm = s.pm := rfl
@[simp] theorem State.withRst_faulted (s : State) (a : ResetLine) : (s.withRst a).faulted = s.faulted := rfl
@[simp] theorem State.withRst_last (s : State) (a : ResetLine) : (s.withRst a).last = s.last := rfl
@[simp] theorem State.withRst_cs (s : State) (a : ResetLine) : (s.withRst a).cs = s.cs := rfl
@[simp] theorem State.withRst_dc (s : State) (a : ResetLine) : (s.withRst a).dc = s.dc := rfl
@[simp] theorem State.withRst_rst (s : State) (a : ResetLine) : (s.withRst a).rst = a := rfl
@[simp] theorem State.withRst_trace (s : State) (a : ResetLine) : (s.withRst a).trace = s.trace := rfl
@[simp] theorem State.withRst_engine (s : State) (a : ResetLine) : (s.withRst a).engine = s.engine := rfl
@[simp] theorem State.withRst_hostIn (s : State) (a : ResetLine) : (s.withRst a).hostIn = s.hostIn := rfl
@[simp] theorem State.withRst_hostOut (s : State) (a : ResetLine) : (s.withRst a).hostOut = s.hostOut := rfl
@[simp] theorem State.withRst_answers (s : State) (a : ResetLine) : (s.withRst a).answers = s.answers := rfl
@[simp] theorem State.withRst_free (s : State) (a : ResetLine) : (s.withRst a).free = s.free := rfl
@[simp] theorem State.withRst_cfg (s : State) (a : ResetLine) : (s.withRst a).cfg = s.cfg := rfl

/-! ### emit -/

@[simp] theorem State.emit_fb (s : State) (es : List BusEvent) : (s.emit es).fb = s.fb := rfl
@[simp] theorem State.emit_pm (s : State) (es : List BusEvent) : (s.emit es).pm = s.pm := rfl
@[simp] theorem State.emit_faulted (s : State) (es : List BusEvent) : (s.emit es).faulted = s.faulted := rfl
@[simp] theorem State.emit_last (s : State) (es : List BusEvent) : (s.emit es).last = s.last := rfl
@[simp] theorem State.emit_cs (s : State) (es : List BusEvent) : (s.emit es).cs = s.cs := rfl
@[simp] theorem State.emit_dc (s : State) (es : List BusEvent) : (s.emit es).dc = s.dc := rfl
@[simp] theorem State.emit_rst (s : State) (es : List BusEvent) : (s.emit es).rst = s.rst := rfl
@[simp] theorem State.emit_trace (s : State) (es : List BusEvent) : (s.emit es).trace = s.trace ++ es := rfl
@[simp] theorem State.emit_engine (s : State) (es : List BusEvent) : (s.emit es).engine = s.engine := rfl
@[simp] theorem State.emit_hostIn (s : State) (es : List BusEvent) : (s.emit es).hostIn = s.hostIn := rfl
@[simp] theorem State.emit_hostOut (s : State) (es : List BusEvent) : (s.emit es).hostOut = s.hostOut := rfl
@[simp] theorem State.emit_answers (s : State) (es : List BusEvent) : (s.emit es).answers = s.answers := rfl
@[simp] theorem State.emit_free (s : State) (es : List BusEvent) : (s.emit es).free = s.free := rfl
@[simp] theorem State.emit_cfg (s : State) (es : List BusEvent) : (s.emit es).cfg = s.cfg := rfl

/-! ### withAnswers -/

@[simp] theorem State.withAnswers_fb (s : State) (as : List BusAnswer) : (s.withAnswers as).fb = s.fb := rfl
@[simp] theorem State.withAnswers_pm (s : State) (as : List BusAnswer) : (s.withAnswers as).pm = s.pm := rfl
@[simp] theorem State.withAnswers_faulted (s : State) (as : List BusAnswer) : (s.withAnswers as).faulted = s.faulted := rfl
@[simp] theorem State.withAnswers_last (s : State) (as : List BusAnswer) : (s.withAnswers as).last = s.last := rfl
@[simp] theorem State.withAnswers_cs (s : State) (as : List BusAnswer) : (s.withAnswers as).cs = s.cs := rfl
@[simp] theorem State.withAnswers_dc (s : State) (as : List BusAnswer) : (s.withAnswers as).dc = s.dc := rfl
@[simp] theorem State.withAnswers_rst (s : State) (as : List BusAnswer) : (s.withAnswers as).rst = s.rst := rfl
@[simp] theorem State.withAnswers_trace (s : State) (as : List BusAnswer) : (s.withAnswers as).trace = s.trace := rfl
@[simp] theorem State.withAnswers_engine (s : State) (as : List BusAnswer) : (s.withAnswers as).engine = s.engine := rfl
@[simp] theorem State.withAnswers_hostIn (s : State) (as : List BusAnswer) : (s.withAnswers as).hostIn = s.hostIn := rfl
@[simp] theorem State.withAnswers_hostOut (s : State) (as : List BusAnswer) : (s.withAnswers as).hostOut = s.hostOut := rfl
@[simp] theorem State.withAnswers_answers (s : State) (as : List BusAnswer) : (s.withAnswers as).answers = as := rfl
@[simp] theorem State.withAnswers_free (s : State) (as : List BusAnswer) : (s.withAnswers as).free = s.free := rfl
@[simp] theorem State.withAnswers_cfg (s : State) (as : List BusAnswer) : (s.withAnswers as).cfg = s.cfg := rfl

/-! ### spendFree -/

@[simp] theorem State.spendFree_fb (s : State) : (s.spendFree).fb = s.fb := rfl
@[simp] theorem State.spendFree_pm (s : State) : (s.spendFree).pm = s.pm := rfl
@[simp] theorem State.spendFree_faulted (s : State) : (s.spendFree).faulted = s.faulted := rfl
@[simp] theorem State.spendFree_last (s : State) : (s.spendFree).last = s.last := rfl
@[simp] theorem State.spendFree_cs (s : State) : (s.spendFree).cs = s.cs := rfl
@[simp] theorem State.spendFree_dc (s : State) : (s.spendFree).dc = s.dc := rfl
@[simp] theorem State.spendFree_rst (s : State) : (s.spendFree).rst = s.rst := rfl
@[simp] theorem State.spendFree_trace (s : State) : (s.spendFree).trace = s.trace := rfl
@[simp] theorem State.spendFree_engine (s : State) : (s.spendFree).engine = s.engine := rfl
@[simp] theorem State.spendFree_hostIn (s : State) : (s.spendFree).hostIn = s.hostIn := rfl
@[simp] theorem State.spendFree_hostOut (s : State) : (s.spendFree).hostOut = s.hostOut := rfl
@[simp] theorem State.spendFree_answers (s : State) : (s.spendFree).answers = s.answers := rfl
@[simp] theorem State.spendFree_free (s : State) : (s.spendFree).free = s.free + 1 := rfl
@[simp] theorem State.spendFree_cfg (s : State) : (s.spendFree).cfg = s.cfg := rfl

/-! ### withHostIn -/

@[simp] theorem State.withHostIn_fb (s : State) (ws : List Half) : (s.withHostIn ws).fb = s.fb := rfl
@[simp] theorem State.withHostIn_pm (s : State) (ws : List Half) : (s.withHostIn ws).pm = s.pm := rfl
@[simp] theorem State.withHostIn_faulted (s : State) (ws : List Half) : (s.withHostIn ws).faulted = s.faulted := rfl
@[simp] theorem State.withHostIn_last (s : State) (ws : List Half) : (s.withHostIn ws).last = s.last := rfl
@[simp] theorem State.withHostIn_cs (s : State) (ws : List Half) : (s.withHostIn ws).cs = s.cs := rfl
@[simp] theorem State.withHostIn_dc (s : State) (ws : List Half) : (s.withHostIn ws).dc = s.dc := rfl
@[simp] theorem State.withHostIn_rst (s : State) (ws : List Half) : (s.withHostIn ws).rst = s.rst := rfl
@[simp] theorem State.withHostIn_trace (s : State) (ws : List Half) : (s.withHostIn ws).trace = s.trace := rfl
@[simp] theorem State.withHostIn_engine (s : State) (ws : List Half) : (s.withHostIn ws).engine = s.engine := rfl
@[simp] theorem State.withHostIn_hostIn (s : State) (ws : List Half) : (s.withHostIn ws).hostIn = ws := rfl
@[simp] theorem State.withHostIn_hostOut (s : State) (ws : List Half) : (s.withHostIn ws).hostOut = s.hostOut := rfl
@[simp] theorem State.withHostIn_answers (s : State) (ws : List Half) : (s.withHostIn ws).answers = s.answers := rfl
@[simp] theorem State.withHostIn_free (s : State) (ws : List Half) : (s.withHostIn ws).free = s.free := rfl
@[simp] theorem State.withHostIn_cfg (s : State) (ws : List Half) : (s.withHostIn ws).cfg = s.cfg := rfl

/-! ### withEngine -/

@[simp] theorem State.withEngine_fb (s : State) (e : Engine) : (s.withEngine e).fb = s.fb := rfl
@[simp] theorem State.withEngine_pm (s : State) (e : Engine) : (s.withEngine e).pm = s.pm := rfl
@[simp] theorem State.withEngine_faulted (s : State) (e : Engine) : (s.withEngine e).faulted = s.faulted := rfl
@[simp] theorem State.withEngine_last (s : State) (e : Engine) : (s.withEngine e).last = s.last := rfl
@[simp] theorem State.withEngine_cs (s : State) (e : Engine) : (s.withEngine e).cs = s.cs := rfl
@[simp] theorem State.withEngine_dc (s : State) (e : Engine) : (s.withEngine e).dc = s.dc := rfl
@[simp] theorem State.withEngine_rst (s : State) (e : Engine) : (s.withEngine e).rst = s.rst := rfl
@[simp] theorem State.withEngine_trace (s : State) (e : Engine) : (s.withEngine e).trace = s.trace := rfl
@[simp] theorem State.withEngine_engine (s : State) (e : Engine) : (s.withEngine e).engine = e := rfl
@[simp] theorem State.withEngine_hostIn (s : State) (e : Engine) : (s.withEngine e).hostIn = s.hostIn := rfl
@[simp] theorem State.withEngine_hostOut (s : State) (e : Engine) : (s.withEngine e).hostOut = s.hostOut := rfl
@[simp] theorem State.withEngine_answers (s : State) (e : Engine) : (s.withEngine e).answers = s.answers := rfl
@[simp] theorem State.withEngine_free (s : State) (e : Engine) : (s.withEngine e).free = s.free := rfl
@[simp] theorem State.withEngine_cfg (s : State) (e : Engine) : (s.withEngine e).cfg = s.cfg := rfl

/-! ### complete -/

@[simp] theorem State.complete_fb (s : State) (st : Status) (v : Gray) : (s.complete st v).fb = s.fb := rfl
@[simp] theorem State.complete_pm (s : State) (st : Status) (v : Gray) : (s.complete st v).pm = s.pm := rfl
@[simp] theorem State.complete_faulted (s : State) (st : Status) (v : Gray) : (s.complete st v).faulted = faultedAfter s st := rfl
@[simp] theorem State.complete_last (s : State) (st : Status) (v : Gray) : (s.complete st v).last = st := rfl
@[simp] theorem State.complete_cs (s : State) (st : Status) (v : Gray) : (s.complete st v).cs = s.cs := rfl
@[simp] theorem State.complete_dc (s : State) (st : Status) (v : Gray) : (s.complete st v).dc = s.dc := rfl
@[simp] theorem State.complete_rst (s : State) (st : Status) (v : Gray) : (s.complete st v).rst = s.rst := rfl
@[simp] theorem State.complete_trace (s : State) (st : Status) (v : Gray) : (s.complete st v).trace = s.trace := rfl
@[simp] theorem State.complete_engine (s : State) (st : Status) (v : Gray) : (s.complete st v).engine = .idle := rfl
@[simp] theorem State.complete_hostIn (s : State) (st : Status) (v : Gray) : (s.complete st v).hostIn = s.hostIn := rfl
@[simp] theorem State.complete_hostOut (s : State) (st : Status) (v : Gray) : (s.complete st v).hostOut = s.hostOut ++ [⟨statusByte (s.complete st v), v⟩] := rfl
@[simp] theorem State.complete_answers (s : State) (st : Status) (v : Gray) : (s.complete st v).answers = s.answers := rfl
@[simp] theorem State.complete_free (s : State) (st : Status) (v : Gray) : (s.complete st v).free = s.free := rfl
@[simp] theorem State.complete_cfg (s : State) (st : Status) (v : Gray) : (s.complete st v).cfg = s.cfg := rfl

/-! ### Operands -/

@[simp] theorem sx_eq (cfg : Config) (v : Half) : sx cfg v = v.toInt := rfl
@[simp] theorem zx_eq (v : Byte) : zx v = v.toNat := rfl
@[simp] theorem angleOf_eq (cfg : Config) (v : Half) : angleOf cfg v = (v.toInt % 360).toNat := rfl

/-! ### Operations made of them -/

theorem State.accept_eq (s : State) (i : Instr) (ws : List Half) :
    s.accept i ws = (s.withHostIn ws).withEngine (.executing i) := rfl

theorem State.select_eq (s : State) (k : BusKind) :
    s.select k = ((s.withDc k).withCs .active).emit [.dc k, .cs .active] := rfl

theorem State.release_eq (s : State) : s.release = (s.withCs .inactive).emit [.cs .inactive] := rfl

theorem State.sendBytes_eq (s : State) (bs : List Byte) : s.sendBytes bs = s.emit (bs.map .byte) := rfl

/-- An answer taken leaves everything but the environment's two fields. -/
theorem State.takeAnswer_eq (s : State) :
    s.takeAnswer = (s.withAnswers s.answers.tail) ∨ s.takeAnswer = s.spendFree := by
  unfold State.takeAnswer
  cases h : s.answers <;> simp

/-- The completion of R180. -/
theorem completed_complete (s : State) (st : Status) (v : Gray) : Completed st v s (s.complete st v) :=
  ⟨rfl, rfl, rfl, rfl⟩

/-- A rejection changes nothing but the completion (R182). -/
theorem rejected_rejectOp (s : State) : Rejected s s.rejectOp :=
  ⟨completed_complete s .reject 0, ⟨rfl, rfl, rfl, rfl, rfl⟩, ⟨rfl, rfl⟩, rfl, rfl, rfl⟩

end Sys2Proof.Machine
end

