-- ==== Sys2Proof/Laws/Bus.lean ====
section
/-! SUPPORT. What a run of bus requests can do (spec 43_display_protocol.md R151 to R154): the parts of the state it never touches, the
exact state after a run whose every answer is Done, after one that fails, after one that stalls. -/

namespace Sys2Proof.Machine

/-! ### The parts no request touches -/

/-- Everything but the lines, the trace and the environment's two fields is the same. -/
structure BusSide (s u : State) : Prop where
  fb      : u.fb = s.fb
  pm      : u.pm = s.pm
  faulted : u.faulted = s.faulted
  last    : u.last = s.last
  engine  : u.engine = s.engine
  hostIn  : u.hostIn = s.hostIn
  hostOut : u.hostOut = s.hostOut
  cfg     : u.cfg = s.cfg

theorem BusSide.refl (s : State) : BusSide s s := ⟨rfl, rfl, rfl, rfl, rfl, rfl, rfl, rfl⟩

theorem BusSide.trans {s t u : State} (h : BusSide s t) (h' : BusSide t u) : BusSide s u :=
  ⟨h'.fb.trans h.fb, h'.pm.trans h.pm, h'.faulted.trans h.faulted, h'.last.trans h.last, h'.engine.trans h.engine,
   h'.hostIn.trans h.hostIn, h'.hostOut.trans h.hostOut, h'.cfg.trans h.cfg⟩

/-- The state a run got to. -/
def Ran.state : Ran → State
  | .done s => s
  | .failed s => s
  | .stalled s => s

theorem busSide_takeAnswer (s : State) : BusSide s s.takeAnswer := by
  rcases s.takeAnswer_eq with h | h <;> rw [h] <;> exact ⟨rfl, rfl, rfl, rfl, rfl, rfl, rfl, rfl⟩

theorem trace_takeAnswer (s : State) : s.takeAnswer.trace = s.trace := by
  rcases s.takeAnswer_eq with h | h <;> rw [h] <;> rfl

theorem cs_takeAnswer (s : State) : s.takeAnswer.cs = s.cs := by
  rcases s.takeAnswer_eq with h | h <;> rw [h] <;> rfl

theorem dc_takeAnswer (s : State) : s.takeAnswer.dc = s.dc := by
  rcases s.takeAnswer_eq with h | h <;> rw [h] <;> rfl

theorem rst_takeAnswer (s : State) : s.takeAnswer.rst = s.rst := by
  rcases s.takeAnswer_eq with h | h <;> rw [h] <;> rfl

/-! ### One transaction -/

/-- The three ends of a transaction (R151): what is in the trace, and chip-select released unless it stalls. -/
theorem busXfer_cases (k : BusKind) (bytes : List Byte) (s : State) :
    (∃ u, busXfer k bytes s = .done u ∧ u.trace = s.trace ++ transaction k bytes ∧ u.cs = .inactive ∧ u.dc = k ∧
      u.rst = s.rst ∧ BusSide s u ∧ nextAnswer s = .done) ∨
    (∃ u j, busXfer k bytes s = .failed u ∧ u.trace = s.trace ++ transaction k (accepted j bytes) ∧ u.cs = .inactive ∧
      u.dc = k ∧ u.rst = s.rst ∧ BusSide s u ∧ nextAnswer s = .fail j) ∨
    (∃ u j, busXfer k bytes s = .stalled u ∧
      u.trace = s.trace ++ ([.dc k, .cs .active] ++ (accepted j bytes).map .byte) ∧ u.cs = .active ∧ u.dc = k ∧
      u.rst = s.rst ∧ BusSide s u ∧ nextAnswer s = .stall j) := by
  have hn : nextAnswer (s.select k) = nextAnswer s := rfl
  have hside : BusSide s (s.select k).takeAnswer :=
    BusSide.trans (t := s.select k) ⟨rfl, rfl, rfl, rfl, rfl, rfl, rfl, rfl⟩ (busSide_takeAnswer _)
  have htr : (s.select k).takeAnswer.trace = s.trace ++ [.dc k, .cs .active] := trace_takeAnswer _
  have hdc : (s.select k).takeAnswer.dc = k := dc_takeAnswer _
  have hrst : (s.select k).takeAnswer.rst = s.rst := rst_takeAnswer _
  unfold busXfer
  simp only [hn]
  cases h : nextAnswer s with
  | done =>
    refine .inl ⟨_, rfl, ?_, rfl, hdc, hrst, hside.trans ⟨rfl, rfl, rfl, rfl, rfl, rfl, rfl, rfl⟩, rfl⟩
    simp [State.release_eq, State.sendBytes_eq, htr, transaction]
  | fail j =>
    refine .inr (.inl ⟨_, j, rfl, ?_, rfl, hdc, hrst, hside.trans ⟨rfl, rfl, rfl, rfl, rfl, rfl, rfl, rfl⟩, rfl⟩)
    simp [State.release_eq, State.sendBytes_eq, htr, transaction]
  | stall j =>
    refine .inr (.inr ⟨_, j, rfl, ?_, cs_takeAnswer _, hdc, hrst, hside.trans ⟨rfl, rfl, rfl, rfl, rfl, rfl, rfl, rfl⟩, rfl⟩)
    simp [State.sendBytes_eq, htr]

/-! ### Runs -/

theorem Ran.andThen_assoc (r : Ran) (f g : State → Ran) :
    (r.andThen f).andThen g = r.andThen (fun s => (f s).andThen g) := by
  cases r <;> rfl

theorem runActs_append (as bs : List BusAct) (s : State) :
    runActs (as ++ bs) s = (runActs as s).andThen (runActs bs) := by
  induction as generalizing s with
  | nil => rfl
  | cons a as ih =>
    simp only [List.cons_append, runActs, Ran.andThen_assoc]
    congr 1
    funext t
    exact ih t

/-- No run of requests touches the other parts of the state. -/
theorem busSide_runActs (as : List BusAct) (s : State) : BusSide s (runActs as s).state := by
  induction as generalizing s with
  | nil => exact BusSide.refl s
  | cons a as ih =>
    have go : ∀ u, BusSide s u → BusSide s (runActs as u).state := fun u hu => hu.trans (ih u)
    cases a with
    | xfer k bytes =>
      rcases busXfer_cases k bytes s with ⟨u, h, -, -, -, -, hu, -⟩ | ⟨u, j, h, -, -, -, -, hu, -⟩ | ⟨u, j, h, -, -, -, -, hu, -⟩ <;>
        simp only [runActs, runAct, h, Ran.andThen]
      · exact go u hu
      · exact hu
      · exact hu
    | delay t =>
      refine go _ ?_
      unfold busDelay
      split <;> exact ⟨rfl, rfl, rfl, rfl, rfl, rfl, rfl, rfl⟩
    | rst a => exact go _ ⟨rfl, rfl, rfl, rfl, rfl, rfl, rfl, rfl⟩

/-! ### Runs whose every answer is Done -/

/-- The events of one request that is done. -/
def actEvents : BusAct → List BusEvent
  | .xfer k bytes => transaction k bytes
  | .delay t => delayEvents t
  | .rst a => [.rst a]

/-- The number of transactions of a run. -/
def actsXfers : List BusAct → Nat
  | [] => 0
  | .xfer _ _ :: as => actsXfers as + 1
  | .delay _ :: as => actsXfers as
  | .rst _ :: as => actsXfers as

/-- The state after a run whose every answer is Done. -/
def afterDone : List BusAct → State → State
  | [], s => s
  | .xfer k bytes :: as, s =>
    afterDone as { s with dc := k, cs := .inactive, trace := s.trace ++ transaction k bytes, answers := s.answers.tail }
  | .delay t :: as, s => afterDone as { s with trace := s.trace ++ delayEvents t }
  | .rst a :: as, s => afterDone as { s with rst := a, trace := s.trace ++ [.rst a] }

theorem busDelay_eq (t : Nat) (s : State) : busDelay t s = { s with trace := s.trace ++ delayEvents t } := by
  unfold busDelay delayEvents
  split
  · simp
  · rfl

theorem busXfer_done {k : BusKind} {bytes : List Byte} {s : State} {as : List BusAnswer} (h : s.answers = .done :: as) :
    busXfer k bytes s =
      .done { s with dc := k, cs := .inactive, trace := s.trace ++ transaction k bytes, answers := as } := by
  simp [busXfer, nextAnswer, State.takeAnswer, State.select_eq, State.release_eq, State.sendBytes_eq, State.withDc, State.withCs,
    State.emit, State.withAnswers, h, transaction]

theorem busXfer_fail {k : BusKind} {bytes : List Byte} {s : State} {j : Nat} {as : List BusAnswer} (h : s.answers = .fail j :: as) :
    busXfer k bytes s =
      .failed { s with dc := k, cs := .inactive, trace := s.trace ++ transaction k (accepted j bytes), answers := as } := by
  simp [busXfer, nextAnswer, State.takeAnswer, State.select_eq, State.release_eq, State.sendBytes_eq, State.withDc, State.withCs,
    State.emit, State.withAnswers, h, transaction]

theorem busXfer_stall {k : BusKind} {bytes : List Byte} {s : State} {j : Nat} {as : List BusAnswer} (h : s.answers = .stall j :: as) :
    busXfer k bytes s =
      .stalled { s with dc := k, cs := .active, trace := s.trace ++ ([.dc k, .cs .active] ++ (accepted j bytes).map .byte), answers := as } := by
  simp [busXfer, nextAnswer, State.takeAnswer, State.select_eq, State.sendBytes_eq, State.withDc, State.withCs,
    State.emit, State.withAnswers, h]

theorem NextDone.cons {n : Nat} {s : State} (h : NextDone (n + 1) s) :
    ∃ as, s.answers = .done :: as ∧ as.take n = List.replicate n .done := by
  unfold NextDone at h
  cases hs : s.answers with
  | nil => simp [hs, List.replicate_succ] at h
  | cons a as =>
    rw [hs, List.take_succ_cons, List.replicate_succ, List.cons.injEq] at h
    exact ⟨as, by rw [h.1], h.2⟩

/-- With as many Done answers ahead as it has transactions, a run is done (R153: "a claim that an operation succeeds needs the premise
that every answer is Done"). -/
theorem runActs_done (as : List BusAct) (s : State) (h : NextDone (actsXfers as) s) :
    runActs as s = .done (afterDone as s) := by
  induction as generalizing s with
  | nil => rfl
  | cons a as ih =>
    cases a with
    | xfer k bytes =>
      obtain ⟨bs, hs, hbs⟩ := NextDone.cons h
      simp only [runActs, runAct, busXfer_done hs, Ran.andThen, afterDone, hs, List.tail_cons]
      exact ih _ hbs
    | delay t =>
      simp only [runActs, runAct, busDelay_eq, Ran.andThen, afterDone]
      exact ih _ h
    | rst a => exact ih _ h

theorem trace_afterDone (as : List BusAct) (s : State) : (afterDone as s).trace = s.trace ++ as.flatMap actEvents := by
  induction as generalizing s with
  | nil => simp [afterDone]
  | cons a as ih => cases a <;> simp [afterDone, ih, actEvents]

theorem answers_afterDone (as : List BusAct) (s : State) : (afterDone as s).answers = s.answers.drop (actsXfers as) := by
  induction as generalizing s with
  | nil => rfl
  | cons a as ih => cases a <;> simp [afterDone, ih, actsXfers, List.drop_tail]

theorem busSide_afterDone (as : List BusAct) (s : State) : BusSide s (afterDone as s) := by
  induction as generalizing s with
  | nil => exact BusSide.refl s
  | cons a as ih =>
    cases a <;> simp only [afterDone] <;> refine BusSide.trans ?_ (ih _) <;>
      exact ⟨rfl, rfl, rfl, rfl, rfl, rfl, rfl, rfl⟩

theorem free_afterDone (as : List BusAct) (s : State) : (afterDone as s).free = s.free := by
  induction as generalizing s with
  | nil => rfl
  | cons a as ih => cases a <;> simp [afterDone, ih]

theorem afterDone_append (as bs : List BusAct) (s : State) : afterDone (as ++ bs) s = afterDone bs (afterDone as s) := by
  induction as generalizing s with
  | nil => rfl
  | cons a as ih => cases a <;> simp [afterDone, ih]

theorem actsXfers_append (as bs : List BusAct) : actsXfers (as ++ bs) = actsXfers as + actsXfers bs := by
  induction as with
  | nil => simp [actsXfers]
  | cons a as ih =>
    cases a with
    | xfer k bytes =>
      simp only [List.cons_append, actsXfers, ih]
      omega
    | delay t => simpa only [List.cons_append, actsXfers] using ih
    | rst a => simpa only [List.cons_append, actsXfers] using ih

/-! ### The tables and sequences -/

theorem actEvents_entryActs (e : TableEntry) : (entryActs e).flatMap actEvents = entryEvents e := by
  simp [entryActs, entryEvents, actEvents, List.flatMap_map]

theorem actEvents_tableActs (es : List TableEntry) : (tableActs es).flatMap actEvents = tableEvents es := by
  simp [tableActs, tableEvents, List.flatMap_assoc, actEvents_entryActs]

theorem actEvents_windowActs (cfg : Config) (a b c d : Byte) :
    (windowActs cfg a b c d).flatMap actEvents = windowEvents cfg a b c d := by
  simp [windowActs, windowEvents, actEvents]

theorem actEvents_flushActs (cfg : Config) (m : Memory) : (flushActs cfg m).flatMap actEvents = flushEvents cfg m := by
  rw [flushActs, List.flatMap_append, actEvents_windowActs, flushEvents, flushHead]
  simp [actEvents, List.append_assoc]

theorem actsXfers_entryActs (e : TableEntry) : actsXfers (entryActs e) = 1 + e.data.length := by
  have h : ∀ l : List Byte, actsXfers (l.map (fun d => BusAct.xfer .data [d]) ++ [.delay e.delay]) = l.length := by
    intro l
    induction l with
    | nil => rfl
    | cons d l ih => simp [actsXfers, ih]
  simp only [entryActs, actsXfers, h]
  omega

theorem actsXfers_tableActs (es : List TableEntry) : actsXfers (tableActs es) = tableXfers es := by
  induction es with
  | nil => rfl
  | cons e es ih =>
    simp only [tableActs, List.flatMap_cons, actsXfers_append, actsXfers_entryActs, tableXfers, List.map_cons, List.sum_cons]
    congr 1

/-! ### The trace stays a run of the protocol -/

theorem scanFrom_append (p : BusPhase) (es fs : List BusEvent) :
    scanFrom p (es ++ fs) = (scanFrom p es).bind (fun q => scanFrom q fs) := by
  induction es generalizing p with
  | nil => rfl
  | cons e es ih =>
    simp only [List.cons_append, scanFrom]
    cases busScan p e with
    | none => rfl
    | some q => exact ih q

theorem scanFrom_bytes (k : BusKind) (bs : List Byte) :
    scanFrom (.transferring k) (bs.map .byte) = some (.transferring k) := by
  induction bs with
  | nil => rfl
  | cons b bs ih => simpa [scanFrom, busScan] using ih

theorem scanFrom_transaction (k : BusKind) (bs : List Byte) : scanFrom .released (transaction k bs) = some .released := by
  rw [transaction, scanFrom_append, scanFrom_append]
  simp [scanFrom, busScan, scanFrom_bytes]

theorem scanFrom_delayEvents (t : Nat) : scanFrom .released (delayEvents t) = some .released := by
  unfold delayEvents
  split <;> rfl

/-- A run from released lines: done or failed it ends with released lines, stalled with chip-select active; the trace stays a run of the
protocol (R167 (a), (b)). -/
theorem scan_runActs (as : List BusAct) (s : State) (hcs : s.cs = .inactive)
    (ht : scanFrom .released s.trace = some .released) :
    scanFrom .released (runActs as s).state.trace = some (linePhase (runActs as s).state) ∧
      (∀ u, runActs as s = .done u → u.cs = .inactive) ∧ (∀ u, runActs as s = .failed u → u.cs = .inactive) ∧
      (∀ u, runActs as s = .stalled u → u.cs = .active) := by
  induction as generalizing s with
  | nil =>
    refine ⟨?_, ?_, ?_, ?_⟩
    · simpa [runActs, Ran.state, linePhase, hcs] using ht
    · rintro u ⟨⟩
      exact hcs
    · rintro u ⟨⟩
    · rintro u ⟨⟩
  | cons a as ih =>
    cases a with
    | xfer k bytes =>
      rcases busXfer_cases k bytes s with ⟨u, h, htr, hc, -, -, -, -⟩ | ⟨u, j, h, htr, hc, hd, -, -, -⟩ | ⟨u, j, h, htr, hc, hd, -, -, -⟩ <;>
        simp only [runActs, runAct, h, Ran.andThen]
      · exact ih u hc (by rw [htr, scanFrom_append, ht]; exact scanFrom_transaction k bytes)
      · refine ⟨?_, by rintro v ⟨⟩, by rintro v ⟨⟩; exact hc, by rintro v ⟨⟩⟩
        simp only [Ran.state, linePhase, hc]
        rw [htr, scanFrom_append, ht]
        exact scanFrom_transaction k _
      · refine ⟨?_, by rintro v ⟨⟩, by rintro v ⟨⟩, by rintro v ⟨⟩; exact hc⟩
        simp only [Ran.state, linePhase, hc, hd]
        rw [htr, scanFrom_append, ht]
        simpa [scanFrom, busScan] using scanFrom_bytes k _
    | delay t =>
      simp only [runActs, runAct, busDelay_eq, Ran.andThen]
      exact ih _ hcs (by simp only [scanFrom_append, ht]; exact scanFrom_delayEvents t)
    | rst a =>
      refine ih (busRst a s) hcs ?_
      simp [busRst, scanFrom_append, ht, scanFrom, busScan]

/-- Every run only appends to the trace (R30). -/
theorem trace_runActs (as : List BusAct) (s : State) : ∃ es, (runActs as s).state.trace = s.trace ++ es := by
  induction as generalizing s with
  | nil => exact ⟨[], by simp [runActs, Ran.state]⟩
  | cons a as ih =>
    have go : ∀ u es, u.trace = s.trace ++ es → ∃ fs, (runActs as u).state.trace = s.trace ++ fs := by
      intro u es hu
      obtain ⟨fs, hf⟩ := ih u
      exact ⟨es ++ fs, by rw [hf, hu, List.append_assoc]⟩
    cases a with
    | xfer k bytes =>
      rcases busXfer_cases k bytes s with ⟨u, h, htr, -⟩ | ⟨u, j, h, htr, -⟩ | ⟨u, j, h, htr, -⟩ <;>
        simp only [runActs, runAct, h, Ran.andThen]
      · exact go u _ htr
      · exact ⟨_, htr⟩
      · exact ⟨_, htr⟩
    | delay t =>
      simp only [runActs, runAct, busDelay_eq, Ran.andThen]
      exact go _ _ rfl
    | rst a => exact go _ _ rfl

/-! ### Runs with a failing or a stalling answer -/

/-- Request `xfer kd bytes` is transaction number `k` of the run `as`: `pre` comes before it. -/
structure XferAt (as : List BusAct) (k : Nat) (pre : List BusAct) (kd : BusKind) (bytes : List Byte) : Prop where
  split : ∃ post, as = pre ++ .xfer kd bytes :: post
  count : actsXfers pre = k

theorem XferAt.cons_xfer {as pre : List BusAct} {k : Nat} {kd : BusKind} {bytes : List Byte} (h : XferAt as k pre kd bytes)
    (kd' : BusKind) (bytes' : List Byte) : XferAt (.xfer kd' bytes' :: as) (k + 1) (.xfer kd' bytes' :: pre) kd bytes :=
  ⟨h.split.imp fun post e => by rw [e, List.cons_append], by rw [actsXfers, h.count]⟩

theorem XferAt.cons_delay {as pre : List BusAct} {k : Nat} {kd : BusKind} {bytes : List Byte} (h : XferAt as k pre kd bytes)
    (t : Nat) : XferAt (.delay t :: as) k (.delay t :: pre) kd bytes :=
  ⟨h.split.imp fun post e => by rw [e, List.cons_append], by rw [actsXfers, h.count]⟩

theorem XferAt.cons_rst {as pre : List BusAct} {k : Nat} {kd : BusKind} {bytes : List Byte} (h : XferAt as k pre kd bytes)
    (a : ResetLine) : XferAt (.rst a :: as) k (.rst a :: pre) kd bytes :=
  ⟨h.split.imp fun post e => by rw [e, List.cons_append], by rw [actsXfers, h.count]⟩

/-- More requests after the run leave its transactions where they are. -/
theorem XferAt.append {as pre : List BusAct} {k : Nat} {kd : BusKind} {bytes : List Byte} (h : XferAt as k pre kd bytes)
    (bs : List BusAct) : XferAt (as ++ bs) k pre kd bytes := by
  obtain ⟨⟨post, rfl⟩, hk⟩ := h
  exact ⟨⟨post ++ bs, by simp⟩, hk⟩

/-- Requests before the run shift its transactions by the number they have. -/
theorem XferAt.prepend {as pre : List BusAct} {k : Nat} {kd : BusKind} {bytes : List Byte} (h : XferAt as k pre kd bytes)
    (bs : List BusAct) : XferAt (bs ++ as) (actsXfers bs + k) (bs ++ pre) kd bytes := by
  obtain ⟨⟨post, rfl⟩, hk⟩ := h
  exact ⟨⟨post, by simp⟩, by rw [actsXfers_append, hk]⟩

/-- A run whose first answer that is not Done is Fail ends there: chip-select released, no later answer asked for, and in the trace what
came before, then the failed transaction's accepted bytes (R151, R183). -/
theorem runActs_fail (as : List BusAct) (s : State) (k j : Nat) (rest : List BusAnswer) (hk : k < actsXfers as)
    (h : s.answers = List.replicate k .done ++ .fail j :: rest) :
    ∃ u, runActs as s = .failed u ∧ u.answers = rest ∧ u.cs = .inactive ∧ u.free = s.free ∧
      ((∀ a, BusAct.rst a ∉ as) → u.rst = s.rst) ∧
      ∃ pre kd bytes, XferAt as k pre kd bytes ∧
        u.trace = s.trace ++ pre.flatMap actEvents ++ transaction kd (accepted j bytes) := by
  induction as generalizing s k with
  | nil => simp [actsXfers] at hk
  | cons a as ih =>
    cases a with
    | xfer kd bytes =>
      cases k with
      | zero =>
        simp only [runActs, runAct, busXfer_fail h, Ran.andThen]
        exact ⟨_, rfl, rfl, rfl, rfl, fun _ => rfl, [], kd, bytes, ⟨⟨as, rfl⟩, rfl⟩, by simp⟩
      | succ k =>
        rw [List.replicate_succ, List.cons_append] at h
        simp only [runActs, runAct, busXfer_done h, Ran.andThen]
        obtain ⟨u, hu, ha, hc, hf, hr, pre, kd', bs, hx, ht⟩ := ih
          { s with dc := kd, cs := .inactive, trace := s.trace ++ transaction kd bytes, answers := List.replicate k .done ++ .fail j :: rest }
          k (by simpa [actsXfers] using hk) rfl
        exact ⟨u, hu, ha, hc, hf, fun hn => hr (fun a ha => hn a (List.mem_cons_of_mem _ ha)), _, _, _, hx.cons_xfer kd bytes,
          by simp [ht, actEvents]⟩
    | delay t =>
      simp only [runActs, runAct, busDelay_eq, Ran.andThen]
      obtain ⟨u, hu, ha, hc, hf, hr, pre, kd', bs, hx, ht⟩ := ih { s with trace := s.trace ++ delayEvents t } k hk h
      exact ⟨u, hu, ha, hc, hf, fun hn => hr (fun a ha => hn a (List.mem_cons_of_mem _ ha)), _, _, _, hx.cons_delay t,
        by simp [ht, actEvents]⟩
    | rst b =>
      obtain ⟨u, hu, ha, hc, hf, -, pre, kd', bs, hx, ht⟩ := ih (busRst b s) k hk h
      exact ⟨u, hu, ha, hc, hf, fun hn => absurd List.mem_cons_self (hn b), _, _, _, hx.cons_rst b,
        by simp [ht, actEvents, busRst]⟩

/-- A run whose first answer that is not Done is Stall ends there with chip-select active, and in the trace what came before, then the
stalled transaction's mode-select, chip-select and accepted bytes (R151, R186). -/
theorem runActs_stall (as : List BusAct) (s : State) (k j : Nat) (rest : List BusAnswer) (hk : k < actsXfers as)
    (h : s.answers = List.replicate k .done ++ .stall j :: rest) :
    ∃ u, runActs as s = .stalled u ∧ u.cs = .active ∧
      ∃ pre kd bytes, XferAt as k pre kd bytes ∧
        u.trace = s.trace ++ pre.flatMap actEvents ++ ([.dc kd, .cs .active] ++ (accepted j bytes).map .byte) := by
  induction as generalizing s k with
  | nil => simp [actsXfers] at hk
  | cons a as ih =>
    cases a with
    | xfer kd bytes =>
      cases k with
      | zero =>
        simp only [runActs, runAct, busXfer_stall h, Ran.andThen]
        exact ⟨_, rfl, rfl, [], kd, bytes, ⟨⟨as, rfl⟩, rfl⟩, by simp⟩
      | succ k =>
        rw [List.replicate_succ, List.cons_append] at h
        simp only [runActs, runAct, busXfer_done h, Ran.andThen]
        obtain ⟨u, hu, hc, pre, kd', bs, hx, ht⟩ := ih
          { s with dc := kd, cs := .inactive, trace := s.trace ++ transaction kd bytes, answers := List.replicate k .done ++ .stall j :: rest }
          k (by simpa [actsXfers] using hk) rfl
        exact ⟨u, hu, hc, _, _, _, hx.cons_xfer kd bytes, by simp [ht, actEvents]⟩
    | delay t =>
      simp only [runActs, runAct, busDelay_eq, Ran.andThen]
      obtain ⟨u, hu, hc, pre, kd', bs, hx, ht⟩ := ih { s with trace := s.trace ++ delayEvents t } k hk h
      exact ⟨u, hu, hc, _, _, _, hx.cons_delay t, by simp [ht, actEvents]⟩
    | rst b =>
      obtain ⟨u, hu, hc, pre, kd', bs, hx, ht⟩ := ih (busRst b s) k hk h
      exact ⟨u, hu, hc, _, _, _, hx.cons_rst b, by simp [ht, actEvents, busRst]⟩

/-! ### Where a transaction's events are cut off -/

theorem cutAt_skip (j k : Nat) (e : BusEvent) (es : List BusEvent) (h : e ≠ .cs .active) :
    cutAt j k (e :: es) = e :: cutAt j k es := by
  cases k <;> simp [cutAt, h]

theorem burstLength_skip (k : Nat) (e : BusEvent) (es : List BusEvent) (h : e ≠ .cs .active) :
    burstLength k (e :: es) = burstLength k es := by
  cases k <;> simp [burstLength, h]

theorem cutAt_append_skip (j k : Nat) (es fs : List BusEvent) (h : .cs .active ∉ es) : cutAt j k (es ++ fs) = es ++ cutAt j k fs := by
  induction es with
  | nil => rfl
  | cons e es ih =>
    rw [List.mem_cons, not_or] at h
    rw [List.cons_append, cutAt_skip _ _ _ _ (Ne.symm h.1), ih h.2, List.cons_append]

theorem burstLength_append_skip (k : Nat) (es fs : List BusEvent) (h : .cs .active ∉ es) :
    burstLength k (es ++ fs) = burstLength k fs := by
  induction es with
  | nil => rfl
  | cons e es ih =>
    rw [List.mem_cons, not_or] at h
    rw [List.cons_append, burstLength_skip _ _ _ (Ne.symm h.1), ih h.2]

theorem cutAt_transaction (j k : Nat) (kd : BusKind) (bytes : List Byte) (fs : List BusEvent) :
    cutAt j (k + 1) (transaction kd bytes ++ fs) = transaction kd bytes ++ cutAt j k fs := by
  have h : transaction kd bytes ++ fs = .dc kd :: .cs .active :: ((bytes.map .byte ++ [.cs .inactive]) ++ fs) := by simp [transaction]
  rw [h, cutAt_skip _ _ _ _ (by simp), cutAt, if_pos rfl]
  simp only [cutAt_append_skip j k (bytes.map .byte ++ [.cs .inactive]) fs (by simp), transaction]
  simp

theorem burstLength_transaction (k : Nat) (kd : BusKind) (bytes : List Byte) (fs : List BusEvent) :
    burstLength (k + 1) (transaction kd bytes ++ fs) = burstLength k fs := by
  have h : transaction kd bytes ++ fs = .dc kd :: .cs .active :: ((bytes.map .byte ++ [.cs .inactive]) ++ fs) := by simp [transaction]
  rw [h, burstLength_skip _ _ _ (by simp), burstLength, if_pos rfl]
  exact burstLength_append_skip k _ fs (by simp)

/-- The events of the requests before transaction number `k` are before its cut. -/
theorem cutAt_prefix (j : Nat) (pre : List BusAct) (fs : List BusEvent) :
    cutAt j (actsXfers pre) (pre.flatMap actEvents ++ fs) = pre.flatMap actEvents ++ cutAt j 0 fs ∧
      burstLength (actsXfers pre) (pre.flatMap actEvents ++ fs) = burstLength 0 fs := by
  induction pre with
  | nil => exact ⟨rfl, rfl⟩
  | cons a pre ih =>
    rw [List.flatMap_cons, List.append_assoc, List.append_assoc]
    cases a with
    | xfer kd bytes =>
      rw [actsXfers, actEvents, cutAt_transaction, burstLength_transaction, ih.1, ih.2]
      exact ⟨rfl, rfl⟩
    | delay t =>
      have h : .cs .active ∉ actEvents (.delay t) := by
        simp only [actEvents, delayEvents]
        split <;> simp
      rw [actsXfers, cutAt_append_skip _ _ _ _ h, burstLength_append_skip _ _ _ h, ih.1, ih.2]
      exact ⟨rfl, rfl⟩
    | rst b =>
      have h : .cs .active ∉ actEvents (.rst b) := by simp [actEvents]
      rw [actsXfers, cutAt_append_skip _ _ _ _ h, burstLength_append_skip _ _ _ h, ih.1, ih.2]
      exact ⟨rfl, rfl⟩

/-- The cut of a run's events in transaction number `k`, and that transaction's length. -/
theorem XferAt.cutAt_eq {as pre : List BusAct} {k j : Nat} {kd : BusKind} {bytes : List Byte} (h : XferAt as k pre kd bytes)
    (hj : j < burstLength k (as.flatMap actEvents)) :
    cutAt j k (as.flatMap actEvents) = pre.flatMap actEvents ++ ([.dc kd, .cs .active] ++ (accepted j bytes).map .byte) := by
  obtain ⟨⟨post, rfl⟩, rfl⟩ := h
  have hfs : (pre ++ .xfer kd bytes :: post).flatMap actEvents =
      pre.flatMap actEvents ++ (.dc kd :: .cs .active :: (bytes.map .byte ++ (.cs .inactive :: post.flatMap actEvents))) := by
    simp [actEvents, transaction]
  obtain ⟨h1, h2⟩ := cutAt_prefix j pre (.dc kd :: .cs .active :: (bytes.map .byte ++ (.cs .inactive :: post.flatMap actEvents)))
  rw [hfs, h2, burstLength_skip _ _ _ (by simp), burstLength, if_pos rfl] at hj
  have hlen : (bytes.map BusEvent.byte ++ (.cs .inactive :: post.flatMap actEvents)).takeWhile BusEvent.isByte =
      bytes.map .byte := by
    rw [List.takeWhile_append_of_pos (by simp [BusEvent.isByte])]
    simp [BusEvent.isByte]
  rw [hlen, List.length_map] at hj
  rw [hfs, h1, cutAt_skip _ _ _ _ (by simp), cutAt, if_pos rfl, List.take_append_of_le_length (by simpa using hj.le), ← List.map_take, accepted,
    Nat.min_eq_left (by omega)]
  rfl

/-- With more Done answers ahead than transactions, the next answers are Done. -/
theorem nextDone_of_replicate {s : State} {k n : Nat} {more : List BusAnswer}
    (h : s.answers = List.replicate k .done ++ more) (hn : n ≤ k) : NextDone n s := by
  rw [NextDone, h, List.take_append_of_le_length (by simpa using hn), List.take_replicate, Nat.min_eq_left hn]

/-- The reset line is where the last reset request of a run that is done left it. -/
theorem rst_afterDone (as : List BusAct) (s : State) (h : ∀ a, BusAct.rst a ∉ as) : (afterDone as s).rst = s.rst := by
  induction as generalizing s with
  | nil => rfl
  | cons a as ih =>
    have h' : ∀ a, BusAct.rst a ∉ as := fun b hb => h b (List.mem_cons_of_mem _ hb)
    cases a with
    | rst b => exact absurd List.mem_cons_self (h b)
    | xfer k bytes => exact ih _ h'
    | delay t => exact ih _ h'

theorem cs_afterDone (as : List BusAct) (s : State) (h : s.cs = .inactive) : (afterDone as s).cs = .inactive := by
  induction as generalizing s with
  | nil => exact h
  | cons a as ih => cases a <;> exact ih _ (by first | rfl | exact h)

theorem dc_afterDone_concat (as : List BusAct) (k : BusKind) (bytes : List Byte) (s : State) :
    (afterDone (as ++ [.xfer k bytes]) s).dc = k := by
  rw [afterDone_append]
  rfl

/-! ### The end of a protocol operation -/

/-- How a protocol operation ends: completed OK after `onOk`, completed BUSFAULT, or not completed (R180, R183, R186). -/
theorem Ran.conclude_cases (r : Ran) (f : State → State) :
    (∃ u, r = .done u ∧ r.conclude f = (f u).complete .ok 0) ∨
    (∃ u, r = .failed u ∧ r.conclude f = u.busFault) ∨
    (∃ u, r = .stalled u ∧ r.conclude f = u) := by
  cases r with
  | done u => exact .inl ⟨u, rfl, rfl⟩
  | failed u => exact .inr (.inl ⟨u, rfl, rfl⟩)
  | stalled u => exact .inr (.inr ⟨u, rfl, rfl⟩)

end Sys2Proof.Machine
end

