-- ==== Sys2Proof/Laws/Encoding.lean ====
section
/-! SUPPORT. The fields of encoded halfwords and the length of encoded descriptors (spec 30_encoding.md R72 to R83). -/

namespace Sys2Proof

/-! ### Fields of `W0` -/

@[simp] theorem hiByte_append (a b : Byte) : hiByte (a ++ b) = a := by
  unfold hiByte
  ext i hi
  simp only [BitVec.getElem_extractLsb', BitVec.getLsbD_append]
  rw [if_neg (by omega), show 8 + i - 8 = i by omega, BitVec.getLsbD_eq_getElem hi]

@[simp] theorem loByte_append (a b : Byte) : loByte (a ++ b) = b := by
  unfold loByte
  ext i hi
  simp only [BitVec.getElem_extractLsb', BitVec.getLsbD_append]
  rw [if_pos (by omega), show 0 + i = i by omega, BitVec.getLsbD_eq_getElem hi]

/-- Every halfword is its two bytes. -/
theorem hiByte_append_loByte (w : Half) : hiByte w ++ loByte w = w := by
  unfold hiByte loByte
  ext i hi
  simp only [BitVec.getElem_append, BitVec.getElem_extractLsb']
  split
  · simp [BitVec.getLsbD_eq_getElem hi]
  · rw [show 8 + (i - 8) = i by omega]
    simp [BitVec.getLsbD_eq_getElem hi]

@[simp] theorem opcodeOf_word0 (op : Byte) (f : Bool) (g : Gray) : opcodeOf (word0 op f g) = op := by
  unfold opcodeOf hiByte word0
  ext i hi
  simp only [BitVec.getElem_extractLsb', BitVec.getLsbD_append]
  split
  · omega
  · split
    · omega
    · split
      · omega
      · rw [show 8 + i - 2 - 1 - 5 = i by omega]
        simp [BitVec.getLsbD_eq_getElem hi]

@[simp] theorem opcodeOf_wordI (op b : Byte) : opcodeOf (wordI op b) = op := hiByte_append op b

@[simp] theorem loByte_wordI (op b : Byte) : loByte (wordI op b) = b := loByte_append op b

@[simp] theorem reservedOf_word0 (op : Byte) (f : Bool) (g : Gray) : reservedOf (word0 op f g) = 0 := by
  unfold reservedOf word0
  ext i hi
  simp only [BitVec.getElem_extractLsb', BitVec.getLsbD_append]
  split
  · omega
  · split
    · omega
    · split
      · simp
      · omega

@[simp] theorem fOf_word0 (op : Byte) (f : Bool) (g : Gray) : fOf (word0 op f g) = f := by
  unfold fOf word0
  simp only [BitVec.getLsbD_append]
  cases f <;> rfl

@[simp] theorem gOf_word0 (op : Byte) (f : Bool) (g : Gray) : gOf (word0 op f g) = g := by
  unfold gOf word0
  ext i hi
  simp only [BitVec.getElem_extractLsb', BitVec.getLsbD_append]
  rw [if_pos (by omega), show 0 + i = i by omega, BitVec.getLsbD_eq_getElem hi]

/-! ### Characters -/

theorem length_packChars (cs : List Byte) : (packChars cs).length = charHalves cs.length := by
  fun_induction packChars cs with
  | case1 => rfl
  | case2 a => simp [charHalves]
  | case3 a b t ih =>
    simp only [List.length_cons, ih, charHalves]
    omega

/-- The packed characters come back, with the padding byte after an odd count. -/
theorem charsOf_packChars (cs : List Byte) :
    charsOf (packChars cs) = cs ++ (if cs.length % 2 = 1 then [0x00] else []) := by
  fun_induction packChars cs with
  | case1 => rfl
  | case2 a => simp [charsOf]
  | case3 a b t ih =>
    simp only [charsOf] at ih
    simp only [charsOf, List.flatMap_cons, hiByte_append, loByte_append, ih, List.length_cons,
      show (t.length + 1 + 1) % 2 = t.length % 2 by omega]
    rfl

/-! ### Legality -/

/-- A descriptor is legal exactly where none of R82 (b) to (e) holds. -/
theorem illegality_eq_none_iff (row : OpRow) (d : List Half) :
    illegality row d = none ↔
      ¬ (row.format ≠ .I ∧ reservedOf (d.headD 0) ≠ 0) ∧
      ¬ (row.format ≠ .I ∧ row.usesF = false ∧ fOf (d.headD 0) = true) ∧
      ¬ (row.format ≠ .I ∧ row.usesG = false ∧ gOf (d.headD 0) ≠ 0) ∧
      ¬ (row.format = .T ∧ (d.getD 5 0).toNat % 2 = 1 ∧ loByte (d.getLastD 0) ≠ 0) := by
  unfold illegality
  constructor
  · intro h
    split_ifs at h with h1 h2 h3 h4
    exact ⟨h1, h2, h3, h4⟩
  · rintro ⟨h1, h2, h3, h4⟩
    rw [if_neg h1, if_neg h2, if_neg h3, if_neg h4]

/-- The operation of an encoded descriptor is the one encoded. -/
theorem assemble_encode (i : Instr) (h : i.wellFormed = true) : assemble (encode i) = some i := by
  cases i with
  | text chars x y g scale spacing angle f =>
    have hl : chars.length < 65536 := by simpa [Instr.wellFormed] using h
    have hn : (BitVec.ofNat 16 chars.length).toNat = chars.length := by
      simp [Nat.mod_eq_of_lt hl]
    simp only [encode, assemble, opcodeOf_word0]
    simp [assembleOps, charsOf_packChars, Nat.mod_eq_of_lt hl]
  | _ =>
    simp only [encode, assemble, opcodeOf_word0, opcodeOf_wordI]
    simp [assembleOps]

/-! ### Byte streams (R71) -/

theorem ofByteStream_toByteStream (ws : List Half) : ofByteStream (toByteStream ws) = ws := by
  induction ws with
  | nil => rfl
  | cons w ws ih =>
    simp only [toByteStream] at ih
    simp [toByteStream, ofByteStream, ih, hiByte_append_loByte]

end Sys2Proof
end

