-- ==== Sys2Proof/Laws/Memory.lean ====
section
/-! SUPPORT. The laws of the frame buffer: reads after writes, the canonical form, equality from equal bytes (spec 20_memory.md R40). -/

namespace Sys2Proof.Machine

/-! ### Listed bytes -/

theorem Memory.lookup_of_lt {m : Memory} {lo i : Nat} (h : Memory.wfFrom lo m = true) (hi : i < lo) :
    Memory.lookup m i = Memory.unlisted := by
  induction m generalizing lo with
  | nil => rfl
  | cons c m ih =>
    obtain ⟨a, w⟩ := c
    simp only [Memory.wfFrom, Bool.and_eq_true, decide_eq_true_eq] at h
    have hne : a ≠ i := by omega
    simp only [Memory.lookup, hne, if_false]
    exact ih h.2 (by omega)

theorem Memory.lookup_put (m : Memory) (i j : Nat) (v : Byte) (lo : Nat) (h : Memory.wfFrom lo m = true) :
    Memory.lookup (Memory.put m i v) j = if i = j then v else Memory.lookup m j := by
  induction m generalizing lo with
  | nil =>
    by_cases hv : v = Memory.unlisted <;> by_cases hij : i = j <;>
      simp [Memory.put, Memory.lookup, hv, hij]
  | cons c m ih =>
    obtain ⟨a, w⟩ := c
    simp only [Memory.wfFrom, Bool.and_eq_true, decide_eq_true_eq] at h
    rcases Nat.lt_trichotomy i a with hia | hia | hia
    · by_cases hv : v = Memory.unlisted
      · by_cases hij : i = j
        · subst hij
          have hne : a ≠ i := by omega
          simp [Memory.put, Memory.lookup, hia, hv, hne, Memory.lookup_of_lt h.2 (Nat.lt_succ_of_le (Nat.le_of_lt hia))]
        · simp [Memory.put, hia, hv, hij]
      · simp [Memory.put, Memory.lookup, hia, hv]
    · subst hia
      by_cases hv : v = Memory.unlisted
      · by_cases hij : i = j
        · subst hij
          simp [Memory.put, hv, Memory.lookup_of_lt h.2 (Nat.lt_succ_self i)]
        · simp [Memory.put, Memory.lookup, hv, hij]
      · by_cases hij : i = j <;> simp [Memory.put, Memory.lookup, hv, hij]
    · have h1 : ¬ i < a := by omega
      have h2 : i ≠ a := by omega
      simp only [Memory.put, h1, h2, if_false, Memory.lookup]
      by_cases haj : a = j
      · have : i ≠ j := by omega
        simp [haj, this]
      · simp only [haj, if_false]
        exact ih (a + 1) h.2

theorem Memory.wfFrom_mono {m : Memory} {lo lo' : Nat} (h : Memory.wfFrom lo m = true) (hle : lo' ≤ lo) :
    Memory.wfFrom lo' m = true := by
  cases m with
  | nil => rfl
  | cons c m =>
    obtain ⟨a, w⟩ := c
    simp only [Memory.wfFrom, Bool.and_eq_true, decide_eq_true_eq] at h ⊢
    exact ⟨⟨⟨by omega, h.1.1.2⟩, h.1.2⟩, h.2⟩

theorem Memory.wfFrom_put (m : Memory) (i : Nat) (v : Byte) (lo : Nat) (h : Memory.wfFrom lo m = true)
    (hlo : lo ≤ i) (hi : i < NB) : Memory.wfFrom lo (Memory.put m i v) = true := by
  induction m generalizing lo with
  | nil => by_cases hv : v = Memory.unlisted <;> simp [Memory.put, Memory.wfFrom, hv, hlo, hi]
  | cons c m ih =>
    obtain ⟨a, w⟩ := c
    have h0 := h
    simp only [Memory.wfFrom, Bool.and_eq_true, decide_eq_true_eq] at h
    rcases Nat.lt_trichotomy i a with hia | hia | hia
    · by_cases hv : v = Memory.unlisted
      · simpa [Memory.put, hia, hv] using h0
      · simp only [Memory.put, hia, hv, if_true, if_false, Memory.wfFrom, Bool.and_eq_true, decide_eq_true_eq]
        exact ⟨⟨⟨hlo, hi⟩, hv⟩, ⟨⟨by omega, h.1.1.2⟩, h.1.2⟩, h.2⟩
    · subst hia
      by_cases hv : v = Memory.unlisted
      · simpa [Memory.put, hv] using Memory.wfFrom_mono h.2 (by omega)
      · simp only [Memory.put, Nat.lt_irrefl, hv, if_true, if_false, Memory.wfFrom, Bool.and_eq_true, decide_eq_true_eq]
        exact ⟨⟨⟨hlo, hi⟩, hv⟩, h.2⟩
    · have h1 : ¬ i < a := by omega
      have h2 : i ≠ a := by omega
      simp only [Memory.put, h1, h2, if_false, Memory.wfFrom, Bool.and_eq_true, decide_eq_true_eq]
      exact ⟨⟨⟨h.1.1.1, h.1.1.2⟩, h.1.2⟩, ih (a + 1) h.2 (by omega)⟩

/-! ### The buffer -/

/-- A read after a write gives the value written at that index and the old byte at every other. -/
theorem Memory.read_write (m : Memory) (i j : Fin NB) (v : Byte) (h : m.wf = true) :
    (m.write i v).read j = if i = j then v else m.read j := by
  simp only [Memory.read, Memory.write, Memory.lookup_put m i.val j.val v 0 h, Fin.ext_iff]

/-- A write keeps the canonical form. -/
theorem Memory.wf_write (m : Memory) (i : Fin NB) (v : Byte) (h : m.wf = true) : (m.write i v).wf = true :=
  Memory.wfFrom_put m i.val v 0 h (Nat.zero_le _) i.isLt

theorem Memory.wfFrom_range' (v : Byte) (hv : v ≠ Memory.unlisted) (n lo : Nat) (h : lo + n ≤ NB) :
    Memory.wfFrom lo ((List.range' lo n).map (fun i => (i, v))) = true := by
  induction n generalizing lo with
  | zero => rfl
  | succ n ih =>
    simp only [List.range'_succ, List.map_cons, Memory.wfFrom, Bool.and_eq_true, decide_eq_true_eq]
    exact ⟨⟨⟨le_refl _, by omega⟩, hv⟩, ih (lo + 1) (by omega)⟩

/-- A filled buffer is canonical. -/
theorem Memory.wf_fill (v : Byte) : (Memory.fill v).wf = true := by
  unfold Memory.fill Memory.wf
  split
  · rfl
  · next hv =>
    rw [List.range_eq_range']
    exact Memory.wfFrom_range' v hv NB 0 (by omega)

theorem Memory.lookup_range' (v : Byte) (n lo i : Nat) (h1 : lo ≤ i) (h2 : i < lo + n) :
    Memory.lookup ((List.range' lo n).map (fun i => (i, v))) i = v := by
  induction n generalizing lo with
  | zero => omega
  | succ n ih =>
    simp only [List.range'_succ, List.map_cons, Memory.lookup]
    split
    · rfl
    · exact ih (lo + 1) (by omega) (by omega)

/-- Every byte of a filled buffer is the one filled with (R102). -/
@[simp] theorem Memory.read_fill (v : Byte) (i : Fin NB) : (Memory.fill v).read i = v := by
  unfold Memory.fill Memory.read
  split
  · next hv => simp [Memory.lookup, hv]
  · rw [List.range_eq_range']
    exact Memory.lookup_range' v NB 0 i.val (by omega) (by omega)

@[simp] theorem Memory.length_bytes (m : Memory) : m.bytes.length = NB := by
  rw [Memory.bytes, List.length_map, List.length_range]

/-- The burst carries byte `i` at place `i` (R49). -/
theorem Memory.getElem_bytes (m : Memory) (i : Fin NB) : m.bytes[i.val]? = some (m.read i) := by
  rw [Memory.bytes, List.getElem?_map, List.getElem?_range i.isLt]
  rfl

theorem Memory.ext_from (m m' : Memory) (lo : Nat) (h : Memory.wfFrom lo m = true) (h' : Memory.wfFrom lo m' = true)
    (heq : ∀ i, i < NB → Memory.lookup m i = Memory.lookup m' i) : m = m' := by
  induction m generalizing m' lo with
  | nil =>
    cases m' with
    | nil => rfl
    | cons c m' =>
      obtain ⟨a, w⟩ := c
      simp only [Memory.wfFrom, Bool.and_eq_true, decide_eq_true_eq] at h'
      have := heq a h'.1.1.2
      simp only [Memory.lookup, if_true] at this
      exact absurd this.symm h'.1.2
  | cons c m ih =>
    obtain ⟨a, w⟩ := c
    simp only [Memory.wfFrom, Bool.and_eq_true, decide_eq_true_eq] at h
    cases m' with
    | nil =>
      have := heq a h.1.1.2
      simp only [Memory.lookup, if_true] at this
      exact absurd this h.1.2
    | cons c' m' =>
      obtain ⟨b, w'⟩ := c'
      simp only [Memory.wfFrom, Bool.and_eq_true, decide_eq_true_eq] at h'
      have hab : a = b := by
        rcases Nat.lt_trichotomy a b with hlt | heq' | hlt
        · have hne : b ≠ a := by omega
          have := heq a h.1.1.2
          simp only [Memory.lookup, if_true, hne, if_false] at this
          rw [Memory.lookup_of_lt h'.2 (by omega)] at this
          exact absurd this h.1.2
        · exact heq'
        · have hne : a ≠ b := by omega
          have := heq b h'.1.1.2
          simp only [Memory.lookup, if_true, hne, if_false] at this
          rw [Memory.lookup_of_lt h.2 (by omega)] at this
          exact absurd this.symm h'.1.2
      subst hab
      have hw : w = w' := by
        have := heq a h.1.1.2
        simpa [Memory.lookup] using this
      subst hw
      congr 1
      refine ih m' (a + 1) h.2 h'.2 (fun i hi => ?_)
      by_cases hai : a = i
      · subst hai
        rw [Memory.lookup_of_lt h.2 (by omega), Memory.lookup_of_lt h'.2 (by omega)]
      · have := heq i hi
        simpa [Memory.lookup, hai] using this

/-- Equal bytes, equal buffers: the canonical form is canonical. -/
theorem Memory.ext_of_read {m m' : Memory} (h : m.wf = true) (h' : m'.wf = true)
    (heq : ∀ i, m.read i = m'.read i) : m = m' :=
  Memory.ext_from m m' 0 h h' (fun i hi => heq ⟨i, hi⟩)

/-- The buffer after reset is canonical. -/
theorem Memory.wf_reset : State.reset.fb.wf = true := rfl

end Sys2Proof.Machine
end

