-- ==== Sys2Proof/Laws/Pixel.lean ====
section
/-! SUPPORT. The laws of the pixel codec and of the pixel-write primitive (spec 20_memory.md R41 to R48), and what a list of pixel writes
does to the buffer. -/

namespace Sys2Proof.Machine

/-! ### Bits and fields -/

theorem getLsbD_setBit (b : Byte) (i j : Fin 8) (v : Bool) :
    (setBit b i v).getLsbD j = if i = j then v else b.getLsbD j := by
  have hj : j.val < 8 := j.isLt
  have hi : i.val < 8 := i.isLt
  unfold setBit
  by_cases hij : i = j
  · subst hij
    cases v <;> simp
  · have hne : i.val ≠ j.val := fun h => hij (Fin.ext h)
    cases v <;> simp [hij, hj] <;> intros <;> omega

theorem gray_eq_iff (a b : Gray) : a = b ↔ a.getLsbD 0 = b.getLsbD 0 ∧ a.getLsbD 1 = b.getLsbD 1 := by
  revert a b; decide

@[simp] theorem getField_bit0 (p : FieldPos) (b : Byte) : (getField p b).getLsbD 0 = b.getLsbD p.lo := by
  simp only [getField]
  cases b.getLsbD p.hi <;> cases b.getLsbD p.lo <;> rfl

@[simp] theorem getField_bit1 (p : FieldPos) (b : Byte) : (getField p b).getLsbD 1 = b.getLsbD p.hi := by
  simp only [getField]
  cases b.getLsbD p.hi <;> cases b.getLsbD p.lo <;> rfl

/-- Two fields share no bit. -/
def FieldsApart (p q : FieldPos) : Prop := p.hi ≠ q.hi ∧ p.hi ≠ q.lo ∧ p.lo ≠ q.hi ∧ p.lo ≠ q.lo

theorem getField_setField_same (p : FieldPos) (g : Gray) (b : Byte) (h : p.hi ≠ p.lo) :
    getField p (setField p g b) = g := by
  rw [gray_eq_iff]
  simp only [setField, getField_bit0, getField_bit1, getLsbD_setBit, h.symm, if_true, if_false, and_self]

theorem getField_setField_apart {p q : FieldPos} (g : Gray) (b : Byte) (h : FieldsApart p q) :
    getField q (setField p g b) = getField q b := by
  obtain ⟨h1, h2, h3, h4⟩ := h
  rw [gray_eq_iff]
  simp only [setField, getField_bit0, getField_bit1, getLsbD_setBit, h1, h2, h3, h4, if_false, and_self]

/-- Writing the level a field holds changes no bit. -/
theorem setField_getField (p : FieldPos) (b : Byte) : setField p (getField p b) b = b := by
  apply BitVec.eq_of_getLsbD_eq
  intro i hi
  have := getLsbD_setBit (setBit b p.hi ((getField p b).getLsbD 1)) p.lo ⟨i, hi⟩ ((getField p b).getLsbD 0)
  have h2 := getLsbD_setBit b p.hi ⟨i, hi⟩ ((getField p b).getLsbD 1)
  simp only [] at this h2
  rw [setField, this, h2]
  split
  · next h => rw [getField_bit0, h]
  · split
    · next h => rw [getField_bit1, h]
    · rfl

/-! ### Legal layouts -/

theorem fieldOf_hi_ne_lo {L : Layout} (hL : L.Legal) (x y : Int) : (fieldOf L x y).hi ≠ (fieldOf L x y).lo := by
  simp only [Layout.Legal, Layout.positions, List.nodup_cons, List.mem_cons, List.not_mem_nil, not_or] at hL
  unfold fieldOf
  split <;> tauto

/-- Different sub-pixels own different bits (R47). -/
theorem fieldOf_apart {L : Layout} (hL : L.Legal) {x y x' y' : Int} (h : ¬ (x % 2 = x' % 2 ∧ y % 2 = y' % 2)) :
    FieldsApart (fieldOf L x y) (fieldOf L x' y') := by
  simp only [Layout.Legal, Layout.positions, List.nodup_cons, List.mem_cons, List.not_mem_nil, not_or] at hL
  obtain ⟨h1, h2, h3, h4, h5, h6, h7, -⟩ := hL
  have hx := Int.emod_two_eq x
  have hy := Int.emod_two_eq y
  have hx' := Int.emod_two_eq x'
  have hy' := Int.emod_two_eq y'
  unfold FieldsApart fieldOf
  rcases hx with hx | hx <;> rcases hy with hy | hy <;> rcases hx' with hx' | hx' <;> rcases hy' with hy' | hy' <;>
    simp only [hx, hy, hx', hy', and_self, not_true_eq_false] at h ⊢ <;>
    simp only [decide_true, decide_false, zero_ne_one] <;> grind

theorem byteIndex_eq_iff {x y x' y' : Int} (h : InPanel x y) (h' : InPanel x' y') :
    byteIndex x y = byteIndex x' y' ↔ x / 2 = x' / 2 ∧ y / 2 = y' / 2 := by
  unfold InPanel at h h'
  unfold byteIndex
  omega

/-! ### The pixel primitive -/

theorem pixWrite_off {L : Layout} {x y : Int} (h : ¬ InPanel x y) (g : Gray) (m : Memory) :
    pixWrite L x y g m = m := by
  rw [pixWrite, dif_neg h]

/-- A pixel write keeps the canonical form. -/
theorem wf_pixWrite (L : Layout) (x y : Int) (g : Gray) {m : Memory} (hm : m.wf = true) :
    (pixWrite L x y g m).wf = true := by
  unfold pixWrite
  split
  · exact Memory.wf_write _ _ _ hm
  · exact hm

/-- Only the byte of the pixel can change (R44). -/
theorem read_pixWrite_other (L : Layout) (x y : Int) (g : Gray) {m : Memory} (hm : m.wf = true) (i : Fin NB)
    (h : InPanel x y → byteIndex x y ≠ i.val) : (pixWrite L x y g m).read i = m.read i := by
  unfold pixWrite
  split
  · next hp =>
    have hne : pixelByte hp ≠ i := fun he => h hp (by rw [← he]; rfl)
    rw [Memory.read_write _ _ _ _ hm, if_neg hne]
  · rfl

/-- A pixel read after a pixel write: the level at that pixel, the old level at every other (R45, R47). -/
theorem pixRead_pixWrite {L : Layout} (hL : L.Legal) {m : Memory} (hm : m.wf = true) (x y : Int) (g : Gray)
    {x' y' : Int} (h' : InPanel x' y') :
    pixRead L x' y' (pixWrite L x y g m) = if x = x' ∧ y = y' then g else pixRead L x' y' m := by
  by_cases h : InPanel x y
  · rw [pixWrite, dif_pos h, pixRead, dif_pos h', pixRead, dif_pos h', Memory.read_write _ _ _ _ hm]
    by_cases hb : pixelByte h = pixelByte h'
    · have hdiv := (byteIndex_eq_iff h h').mp (congrArg Fin.val hb)
      rw [if_pos hb, hb]
      by_cases hxy : x = x' ∧ y = y'
      · obtain ⟨rfl, rfl⟩ := hxy
        rw [if_pos ⟨rfl, rfl⟩, getField_setField_same _ _ _ (fieldOf_hi_ne_lo hL _ _)]
      · have hmod : ¬ (x % 2 = x' % 2 ∧ y % 2 = y' % 2) := by omega
        rw [if_neg hxy, getField_setField_apart _ _ (fieldOf_apart hL hmod)]
    · rw [if_neg hb]
      have hxy : ¬ (x = x' ∧ y = y') := by
        rintro ⟨rfl, rfl⟩
        exact hb rfl
      rw [if_neg hxy]
  · rw [pixWrite_off h]
    have hxy : ¬ (x = x' ∧ y = y') := by
      rintro ⟨rfl, rfl⟩
      exact h h'
    rw [if_neg hxy]

/-! ### Lists of pixel writes -/

theorem plotAll_append (L : Layout) (ps qs : List Plot) (m : Memory) :
    plotAll L (ps ++ qs) m = plotAll L qs (plotAll L ps m) := List.foldl_append

theorem wf_plotAll (L : Layout) (ps : List Plot) {m : Memory} (hm : m.wf = true) : (plotAll L ps m).wf = true := by
  induction ps generalizing m with
  | nil => exact hm
  | cons p ps ih => exact ih (wf_pixWrite L p.x p.y p.g hm)

/-- A byte none of whose pixels is plotted is unchanged. -/
theorem read_plotAll_other (L : Layout) (ps : List Plot) {m : Memory} (hm : m.wf = true) (i : Fin NB)
    (h : ∀ p ∈ ps, InPanel p.x p.y → byteIndex p.x p.y ≠ i.val) : (plotAll L ps m).read i = m.read i := by
  induction ps generalizing m with
  | nil => rfl
  | cons p ps ih =>
    rw [show plotAll L (p :: ps) m = plotAll L ps (pixWrite L p.x p.y p.g m) from rfl,
      ih (wf_pixWrite L p.x p.y p.g hm) (fun q hq => h q (List.mem_cons_of_mem p hq)),
      read_pixWrite_other L p.x p.y p.g hm i (h p List.mem_cons_self)]

/-- A pixel no write names keeps its level. -/
theorem pixRead_plotAll_other {L : Layout} (hL : L.Legal) (ps : List Plot) {m : Memory} (hm : m.wf = true) {x y : Int}
    (hp : InPanel x y) (h : ∀ p ∈ ps, ¬ (p.x = x ∧ p.y = y)) :
    pixRead L x y (plotAll L ps m) = pixRead L x y m := by
  induction ps generalizing m with
  | nil => rfl
  | cons p ps ih =>
    rw [show plotAll L (p :: ps) m = plotAll L ps (pixWrite L p.x p.y p.g m) from rfl,
      ih (wf_pixWrite L p.x p.y p.g hm) (fun q hq => h q (List.mem_cons_of_mem p hq)),
      pixRead_pixWrite hL hm _ _ _ hp, if_neg (h p List.mem_cons_self)]

/-- A pixel some write names, every such write with a level of `S`, ends with a level of `S`. -/
theorem pixRead_plotAll_named {L : Layout} (hL : L.Legal) (S : Gray → Prop) (ps : List Plot) {m : Memory} (hm : m.wf = true)
    {x y : Int} (hp : InPanel x y) (hex : ∃ p ∈ ps, p.x = x ∧ p.y = y)
    (hall : ∀ p ∈ ps, p.x = x ∧ p.y = y → S p.g) : S (pixRead L x y (plotAll L ps m)) := by
  induction ps generalizing m with
  | nil => simp at hex
  | cons p ps ih =>
    rw [show plotAll L (p :: ps) m = plotAll L ps (pixWrite L p.x p.y p.g m) from rfl]
    by_cases hrest : ∃ q ∈ ps, q.x = x ∧ q.y = y
    · exact ih (wf_pixWrite L p.x p.y p.g hm) hrest (fun q hq => hall q (List.mem_cons_of_mem p hq))
    · have hx : p.x = x ∧ p.y = y := by
        obtain ⟨q, hq, hqx⟩ := hex
        rcases List.mem_cons.mp hq with rfl | hq
        · exact hqx
        · exact absurd ⟨q, hq, hqx⟩ hrest
      rw [pixRead_plotAll_other hL ps (wf_pixWrite L p.x p.y p.g hm) hp
          (fun q hq hqx => hrest ⟨q, hq, hqx⟩), pixRead_pixWrite hL hm _ _ _ hp, if_pos hx]
      exact hall p List.mem_cons_self hx

theorem mem_plotsOf {g : Gray} {pts : List (Int × Int)} {p : Plot} :
    p ∈ plotsOf g pts ↔ (p.x, p.y) ∈ pts ∧ p.g = g := by
  simp only [plotsOf, List.mem_map]
  constructor
  · rintro ⟨q, hq, rfl⟩
    exact ⟨hq, rfl⟩
  · rintro ⟨h, rfl⟩
    exact ⟨_, h, rfl⟩

/-- What a list of points drawn with one level does (R55: the end state depends only on the set). -/
theorem drew_draw {s : State} (hL : s.cfg.layout.Legal) (hm : s.fb.wf = true) (g : Gray) (pts : List (Int × Int)) :
    Drew (fun x y => (x, y) ∈ pts) g s (s.draw (plotsOf g pts)) where
  painted x y hp hin := by
    refine pixRead_plotAll_named hL (fun l => l = g) (plotsOf g pts) hm hp ⟨⟨x, y, g⟩, ?_, rfl, rfl⟩ ?_
    · exact mem_plotsOf.mpr ⟨hin, rfl⟩
    · exact fun p hpm _ => (mem_plotsOf.mp hpm).2
  kept x y hp hout := by
    refine pixRead_plotAll_other hL (plotsOf g pts) hm hp (fun p hpm hx => hout ?_)
    obtain ⟨rfl, rfl⟩ := hx
    exact (mem_plotsOf.mp hpm).1
  bytes i h := by
    refine read_plotAll_other _ (plotsOf g pts) hm i (fun p hpm hin => ?_)
    exact h p.x p.y hin (mem_plotsOf.mp hpm).1

/-- `Drew` speaks of the set only. -/
theorem Drew.congr {P Q : Int → Int → Prop} {g : Gray} {s t : State} (h : Drew P g s t) (hPQ : ∀ x y, P x y ↔ Q x y) :
    Drew Q g s t where
  painted x y hp hq := h.painted x y hp ((hPQ x y).mpr hq)
  kept x y hp hq := h.kept x y hp (fun hP => hq ((hPQ x y).mp hP))
  bytes i hi := h.bytes i (fun x y hp hP => hi x y hp ((hPQ x y).mp hP))

/-- Drawing changes `FB` and completes with status OK, nothing else. -/
theorem drawEnded_draw (s : State) (ps : List Plot) : DrawEnded s (s.draw ps) :=
  ⟨⟨rfl, rfl, rfl, rfl⟩, ⟨rfl, rfl, rfl, rfl, rfl⟩, ⟨rfl, rfl⟩, rfl⟩

/-! ### Equal pixels, equal buffers -/

/-- The eight positions of a legal layout are all of 0 to 7 (R7). -/
theorem mem_positions {L : Layout} (hL : L.Legal) (i : Fin 8) : i ∈ L.positions := by
  have h : L.positions.toFinset = Finset.univ :=
    Finset.eq_univ_of_card _ (by rw [List.toFinset_card_of_nodup hL]; rfl)
  have hi := Finset.mem_univ i
  rw [← h] at hi
  simpa using hi

/-- A byte is its four fields. -/
theorem byte_ext_of_fields {L : Layout} (hL : L.Legal) {b c : Byte} (h : unpack L b = unpack L c) : b = c := by
  simp only [unpack, List.cons.injEq, and_true] at h
  obtain ⟨h1, h2, h3, h4⟩ := h
  have bit : ∀ p : FieldPos, getField p b = getField p c →
      b.getLsbD p.hi = c.getLsbD p.hi ∧ b.getLsbD p.lo = c.getLsbD p.lo := by
    intro p hp
    rw [← getField_bit1, ← getField_bit0, hp, getField_bit0, getField_bit1]
    exact ⟨rfl, rfl⟩
  apply BitVec.eq_of_getLsbD_eq
  intro i hi
  have := mem_positions hL ⟨i, hi⟩
  simp only [Layout.positions, List.mem_cons, List.not_mem_nil, or_false, Fin.ext_iff] at this
  rcases this with h | h | h | h | h | h | h | h <;> rw [h]
  exacts [(bit _ h1).1, (bit _ h1).2, (bit _ h2).1, (bit _ h2).2, (bit _ h3).1, (bit _ h3).2, (bit _ h4).1, (bit _ h4).2]

/-- Canonical buffers with equal panel pixels are equal (R53: each byte is the block of four panel pixels). -/
theorem fb_ext_of_pixRead {L : Layout} (hL : L.Legal) {m m' : Memory} (hm : m.wf = true) (hm' : m'.wf = true)
    (h : ∀ x y, InPanel x y → pixRead L x y m = pixRead L x y m') : m = m' := by
  refine Memory.ext_of_read hm hm' (fun i => byte_ext_of_fields hL ?_)
  have hi := i.isLt
  have hb : ∀ sx sy : Int, 0 ≤ sx → sx ≤ 1 → 0 ≤ sy → sy ≤ 1 →
      getField (fieldOf L sx sy) (m.read i) = getField (fieldOf L sx sy) (m'.read i) := by
    intro sx sy h1 h2 h3 h4
    have hp : InPanel (2 * ((i.val : Int) % 150) + sx) (2 * ((i.val : Int) / 150) + sy) := by
      unfold NB at hi
      unfold InPanel
      omega
    have hpix := h _ _ hp
    have hbyte : pixelByte hp = i := by
      apply Fin.ext
      show byteIndex _ _ = _
      unfold byteIndex
      omega
    have hf : fieldOf L (2 * ((i.val : Int) % 150) + sx) (2 * ((i.val : Int) / 150) + sy) = fieldOf L sx sy := by
      unfold fieldOf
      rw [show (2 * ((i.val : Int) % 150) + sx) % 2 = sx % 2 by omega,
        show (2 * ((i.val : Int) / 150) + sy) % 2 = sy % 2 by omega]
    rw [pixRead, dif_pos hp, pixRead, dif_pos hp, hbyte, hf] at hpix
    exact hpix
  simp only [unpack, List.cons.injEq, and_true]
  exact ⟨hb 0 0 (by omega) (by omega) (by omega) (by omega), hb 1 0 (by omega) (by omega) (by omega) (by omega),
    hb 0 1 (by omega) (by omega) (by omega) (by omega), hb 1 1 (by omega) (by omega) (by omega) (by omega)⟩

/-- Every field of `PACK4(g)` holds `g` (R46). -/
theorem getField_pack4 {L : Layout} (hL : L.Legal) (g : Gray) (x y : Int) : getField (fieldOf L x y) (pack4 L g) = g := by
  have h11 := fieldOf_apart hL (x := 1) (y := 1) (x' := x) (y' := y)
  have h01 := fieldOf_apart hL (x := 0) (y := 1) (x' := x) (y' := y)
  have h10 := fieldOf_apart hL (x := 1) (y := 0) (x' := x) (y' := y)
  have hne := fieldOf_hi_ne_lo hL x y
  have e11 : fieldOf L 1 1 = L.p11 := rfl
  have e01 : fieldOf L 0 1 = L.p01 := rfl
  have e10 : fieldOf L 1 0 = L.p10 := rfl
  rw [e11] at h11
  rw [e01] at h01
  rw [e10] at h10
  unfold pack4
  rcases Int.emod_two_eq x with hx | hx <;> rcases Int.emod_two_eq y with hy | hy
  · rw [getField_setField_apart _ _ (h11 (by omega)), getField_setField_apart _ _ (h01 (by omega)),
      getField_setField_apart _ _ (h10 (by omega))]
    rw [show fieldOf L x y = L.p00 by simp [fieldOf, hx, hy]] at hne ⊢
    exact getField_setField_same _ _ _ hne
  · rw [getField_setField_apart _ _ (h11 (by omega))]
    rw [show fieldOf L x y = L.p01 by simp [fieldOf, hx, hy]] at hne ⊢
    exact getField_setField_same _ _ _ hne
  · rw [getField_setField_apart _ _ (h11 (by omega)), getField_setField_apart _ _ (h01 (by omega))]
    rw [show fieldOf L x y = L.p10 by simp [fieldOf, hx, hy]] at hne ⊢
    exact getField_setField_same _ _ _ hne
  · rw [show fieldOf L x y = L.p11 by simp [fieldOf, hx, hy]] at hne ⊢
    exact getField_setField_same _ _ _ hne

/-- A filled buffer shows one level everywhere (R102). -/
theorem pixRead_fill {L : Layout} (hL : L.Legal) (g : Gray) {x y : Int} (h : InPanel x y) :
    pixRead L x y (Memory.fill (pack4 L g)) = g := by
  rw [pixRead, dif_pos h, Memory.read_fill, getField_pack4 hL]

/-! ### Idempotency (R52) -/

/-- What a run of pixel writes leaves in a pixel it names does not depend on the buffer it began with. -/
theorem pixRead_plotAll_congr {L : Layout} (hL : L.Legal) (ps : List Plot) {m m' : Memory} (hm : m.wf = true) (hm' : m'.wf = true)
    {x y : Int} (hp : InPanel x y) (hex : ∃ p ∈ ps, p.x = x ∧ p.y = y) :
    pixRead L x y (plotAll L ps m) = pixRead L x y (plotAll L ps m') := by
  induction ps generalizing m m' with
  | nil => simp at hex
  | cons p ps ih =>
    show pixRead L x y (plotAll L ps (pixWrite L p.x p.y p.g m)) = pixRead L x y (plotAll L ps (pixWrite L p.x p.y p.g m'))
    have h := wf_pixWrite L p.x p.y p.g hm
    have h' := wf_pixWrite L p.x p.y p.g hm'
    by_cases he : ∃ q ∈ ps, q.x = x ∧ q.y = y
    · exact ih h h' he
    · obtain ⟨q, hq, hqx⟩ := hex
      have hqp : q = p := (List.mem_cons.mp hq).resolve_right (fun hq' => he ⟨q, hq', hqx⟩)
      have ho : ∀ r ∈ ps, ¬ (r.x = x ∧ r.y = y) := fun r hr hrx => he ⟨r, hr, hrx⟩
      rw [pixRead_plotAll_other hL ps h hp ho, pixRead_plotAll_other hL ps h' hp ho, pixRead_pixWrite hL hm _ _ _ hp,
        pixRead_pixWrite hL hm' _ _ _ hp, ← hqp, if_pos hqx, if_pos hqx]

/-- Doing the same pixel writes twice leaves what the first time left. -/
theorem plotAll_idem {L : Layout} (hL : L.Legal) (ps : List Plot) {m : Memory} (hm : m.wf = true) :
    plotAll L ps (plotAll L ps m) = plotAll L ps m := by
  have h1 := wf_plotAll L ps hm
  refine fb_ext_of_pixRead hL (wf_plotAll _ _ h1) h1 fun x y hp => ?_
  by_cases h : ∃ p ∈ ps, p.x = x ∧ p.y = y
  · exact pixRead_plotAll_congr hL ps h1 hm hp h
  · exact pixRead_plotAll_other hL _ h1 hp (fun p hpm hx => h ⟨p, hpm, hx⟩)

/-! ### Ranges -/

theorem mem_intRange {a b k : Int} : k ∈ intRange a b ↔ a ≤ k ∧ k ≤ b := by
  simp only [intRange, List.mem_map, List.mem_range]
  constructor
  · rintro ⟨n, hn, rfl⟩
    omega
  · rintro ⟨h1, h2⟩
    exact ⟨(k - a).toNat, by omega, by omega⟩

theorem mem_hSpan {xa xb yy : Int} {p : Int × Int} : p ∈ hSpan xa xb yy ↔ (xa ≤ p.1 ∧ p.1 ≤ xb) ∧ p.2 = yy := by
  simp only [hSpan, List.mem_map, mem_intRange]
  constructor
  · rintro ⟨k, hk, rfl⟩
    exact ⟨hk, rfl⟩
  · rintro ⟨h, rfl⟩
    exact ⟨p.1, h, rfl⟩

end Sys2Proof.Machine
end

