-- ==== Sys2Proof/Laws/Exec.lean ====
section
/-! SUPPORT. Inversion of `exec`: everything an operation can do, said once (spec 60_exceptions.md R180 to R186). -/

namespace Sys2Proof.Machine

/-! ### What a run of requests does to the lines -/

/-- A run with no reset request leaves the reset line. -/
theorem rst_runActs (as : List BusAct) (s : State) (h : ∀ a, BusAct.rst a ∉ as) : (runActs as s).state.rst = s.rst := by
  induction as generalizing s with
  | nil => rfl
  | cons a as ih =>
    have h' : ∀ a, BusAct.rst a ∉ as := fun a ha => h a (List.mem_cons_of_mem _ ha)
    cases a with
    | xfer k bytes =>
      rcases busXfer_cases k bytes s with ⟨u, hu, -, -, -, hr, -⟩ | ⟨u, j, hu, -, -, -, hr, -⟩ | ⟨u, j, hu, -, -, -, hr, -⟩ <;>
        simp only [runActs, runAct, hu, Ran.andThen]
      · rw [ih _ h', hr]
      · exact hr
      · exact hr
    | delay t =>
      simp only [runActs, runAct, busDelay_eq, Ran.andThen]
      exact ih _ h'
    | rst a => exact absurd List.mem_cons_self (h a)

/-- A run that stalls leaves chip-select active (R186). -/
theorem cs_stalled (as : List BusAct) (s u : State) (h : runActs as s = .stalled u) : u.cs = .active := by
  induction as generalizing s with
  | nil => cases h
  | cons a as ih =>
    cases a with
    | xfer k bytes =>
      rcases busXfer_cases k bytes s with ⟨v, hu, -⟩ | ⟨v, j, hu, -⟩ | ⟨v, j, hu, -, hc, -⟩ <;>
        simp only [runActs, runAct, hu, Ran.andThen] at h
      · exact ih _ h
      · cases h
      · cases h
        exact hc
    | delay t =>
      simp only [runActs, runAct, Ran.andThen] at h
      exact ih _ h
    | rst a =>
      simp only [runActs, runAct, Ran.andThen] at h
      exact ih _ h

theorem tableActs_no_rst (es : List TableEntry) : ∀ a, BusAct.rst a ∉ tableActs es := by
  intro a
  simp [tableActs, entryActs]

/-- INIT's pulse leaves the reset line released, however far its table gets (R157). -/
theorem rst_initActs (s : State) : (runActs (initActs s.cfg) s).state.rst = .released := by
  have e : runActs (initActs s.cfg) s = runActs (tableActs s.cfg.initTable)
      (busDelay s.cfg.tRstRelease (busRst .released (busDelay s.cfg.tRstAssert (busRst .asserted s)))) := rfl
  rw [e, rst_runActs _ _ (tableActs_no_rst _), busDelay_eq]
  rfl

/-! ### The state a protocol operation has got to -/

/-- A state `u` reached from `s` by requests of operation `i`: only the bus side has changed, and `FB` where INIT has cleared it; the
trace has only grown; from released lines the trace is still a run of the protocol and the reset line is released. -/
structure Reached (i : Instr) (s u : State) : Prop where
  side  : BusSide { s with fb := u.fb } u
  fb    : u.fb = s.fb ∨ (i = .init ∧ u.fb = [])
  trace : s.trace <+: u.trace
  scan  : s.cs = .inactive → s.rst = .released → scanFrom .released s.trace = some .released →
    scanFrom .released u.trace = some (linePhase u) ∧ u.rst = .released

/-- What a successful operation does last: nothing, or `PM <- p` for the operation's own mode (R157, R160, R161). -/
def Finish (i : Instr) (f : State → State) : Prop :=
  f = id ∨ (i = .init ∧ f = fun t => t.withPm .highPower) ∨ (i = .lpm ∧ f = fun t => t.withPm .lowPower) ∨
    (i = .hpm ∧ f = fun t => t.withPm .highPower)

/-- Everything `exec i s` can answer. -/
inductive Ends (i : Instr) (s t : State) : Prop where
  /-- A drawing operation that completes with status OK: only `FB` differs before the completion. -/
  | drew (fb : Memory) (v : Gray) (hd : drawingOp i = true) (hm : mayEnd i .ok = true)
      (hv : v ≠ 0 → ∃ x y, i = .getpx x y) (hw : s.fb.wf = true → fb.wf = true) (hg : (∃ x y, i = .getpx x y) → fb = s.fb)
      (ht : t = State.complete { s with fb := fb } .ok v)
  /-- REJECT: nothing but the completion. -/
  | rejected (hm : mayEnd i .reject = true) (ht : t = s.rejectOp)
  /-- LPM or HPM in its target mode: nothing but the completion. -/
  | idempotent (hp : i = .lpm ∨ i = .hpm) (ht : t = s.complete .ok 0)
  /-- A protocol operation whose requests all succeeded. -/
  | sent (u : State) (f : State → State) (hd : drawingOp i = false) (hm : mayEnd i .ok = true) (hr : Reached i s u)
      (hc : s.cs = .inactive → u.cs = .inactive) (hf : Finish i f) (ht : t = (f u).complete .ok 0)
  /-- A protocol operation one of whose transactions failed. -/
  | failed (u : State) (hd : drawingOp i = false) (hm : mayEnd i .busFault = true) (hr : Reached i s u)
      (hc : u.cs = .inactive) (ht : t = u.busFault)
  /-- A protocol operation one of whose transactions stalled. -/
  | hung (hd : drawingOp i = false) (hr : Reached i s t) (hc : t.cs = .active)

/-- A finish writes `PM` at most. -/
theorem Finish.eq {i : Instr} {f : State → State} (h : Finish i f) (u : State) : f u = u ∨ ∃ p, f u = u.withPm p := by
  rcases h with rfl | ⟨-, rfl⟩ | ⟨-, rfl⟩ | ⟨-, rfl⟩
  exacts [.inl rfl, .inr ⟨_, rfl⟩, .inr ⟨_, rfl⟩, .inr ⟨_, rfl⟩]

theorem cs_failed (as : List BusAct) (s u : State) (h : runActs as s = .failed u) : u.cs = .inactive := by
  induction as generalizing s with
  | nil => cases h
  | cons a as ih =>
    cases a with
    | xfer k bytes =>
      rcases busXfer_cases k bytes s with ⟨v, hu, -⟩ | ⟨v, j, hu, -, hc, -⟩ | ⟨v, j, hu, -⟩ <;>
        simp only [runActs, runAct, hu, Ran.andThen] at h
      · exact ih _ h
      · cases h
        exact hc
      · cases h
    | delay t =>
      simp only [runActs, runAct, Ran.andThen] at h
      exact ih _ h
    | rst a =>
      simp only [runActs, runAct, Ran.andThen] at h
      exact ih _ h

theorem cs_done (as : List BusAct) (s u : State) (hs : s.cs = .inactive) (h : runActs as s = .done u) : u.cs = .inactive := by
  induction as generalizing s with
  | nil =>
    cases h
    exact hs
  | cons a as ih =>
    cases a with
    | xfer k bytes =>
      rcases busXfer_cases k bytes s with ⟨v, hu, -, hc, -⟩ | ⟨v, j, hu, -⟩ | ⟨v, j, hu, -⟩ <;>
        simp only [runActs, runAct, hu, Ran.andThen] at h
      · exact ih v hc h
      · cases h
      · cases h
    | delay t =>
      simp only [runActs, runAct, busDelay_eq, Ran.andThen] at h
      exact ih { s with trace := s.trace ++ delayEvents t } hs h
    | rst a =>
      simp only [runActs, runAct, Ran.andThen] at h
      exact ih (busRst a s) hs h

/-- A run that leaves the reset line as it was, or released, reaches a `Reached` state. -/
theorem reached_runActs (i : Instr) (s : State) (as : List BusAct)
    (hr : (runActs as s).state.rst = s.rst ∨ (runActs as s).state.rst = .released) : Reached i s (runActs as s).state := by
  have hb := busSide_runActs as s
  obtain ⟨es, he⟩ := trace_runActs as s
  refine ⟨⟨rfl, hb.pm, hb.faulted, hb.last, hb.engine, hb.hostIn, hb.hostOut, hb.cfg⟩, .inl hb.fb, ⟨es, he.symm⟩, ?_⟩
  intro hc hrst ht
  refine ⟨(scan_runActs as s hc ht).1, ?_⟩
  rcases hr with h | h
  · rw [h, hrst]
  · exact h

/-- How a protocol operation made of one run ends. -/
theorem ends_conclude (i : Instr) (s : State) (as : List BusAct) (f : State → State) (hr : ∀ a, BusAct.rst a ∉ as)
    (hd : drawingOp i = false) (hok : mayEnd i .ok = true) (hbf : mayEnd i .busFault = true) (hf : Finish i f) :
    Ends i s ((runActs as s).conclude f) := by
  have h := reached_runActs i s as (.inl (rst_runActs as s hr))
  rcases Ran.conclude_cases (runActs as s) f with ⟨u, hu, hc⟩ | ⟨u, hu, hc⟩ | ⟨u, hu, hc⟩ <;> rw [hc] <;> rw [hu] at h <;>
    simp only [Ran.state] at h
  · exact .sent u f hd hok h (fun hs => cs_done as s u hs hu) hf rfl
  · exact .failed u hd hbf h (cs_failed as s u hu) rfl
  · exact .hung hd h (cs_stalled as s u hu)

/-- INIT: what is reached in its second part is reached from its beginning. -/
theorem Reached.init_trans {s v u : State} (h : Reached .init s v) (hc : s.cs = .inactive → v.cs = .inactive)
    (h' : Reached .init (v.withFb []) u) : Reached .init s u where
  side := by
    have a := h.side
    have b := h'.side
    exact ⟨rfl, b.pm.trans a.pm, b.faulted.trans a.faulted, b.last.trans a.last, b.engine.trans a.engine,
      b.hostIn.trans a.hostIn, b.hostOut.trans a.hostOut, b.cfg.trans a.cfg⟩
  fb := by
    rcases h'.fb with e | e
    · exact .inr ⟨rfl, e⟩
    · exact .inr e
  trace := List.IsPrefix.trans h.trace h'.trace
  scan hs hrst ht := by
    obtain ⟨h1, h2⟩ := h.scan hs hrst ht
    have hv := hc hs
    exact h'.scan hv h2 (by simpa [linePhase, hv] using h1)

theorem ends_init (s : State) :
    Ends .init s (((runActs (initActs s.cfg) s).andThen clearAndFlush).conclude (fun t => t.withPm .highPower)) := by
  have h := reached_runActs .init s (initActs s.cfg) (.inr (rst_initActs s))
  cases hu : runActs (initActs s.cfg) s with
  | failed u =>
    rw [hu] at h
    exact .failed u rfl rfl h (cs_failed _ s u hu) rfl
  | stalled u =>
    rw [hu] at h
    exact .hung rfl h (cs_stalled _ s u hu)
  | done v =>
    rw [hu] at h
    simp only [Ran.state] at h
    have hv : s.cs = .inactive → v.cs = .inactive := fun hs => cs_done _ s v hs hu
    have hno : ∀ a, BusAct.rst a ∉ flushActs (v.withFb []).cfg (v.withFb []).fb := by simp [flushActs, windowActs]
    have h2 := reached_runActs .init (v.withFb []) (flushActs (v.withFb []).cfg (v.withFb []).fb) (.inl (rst_runActs _ _ hno))
    have hfill : Memory.fill 0x00 = [] := rfl
    simp only [Ran.andThen, clearAndFlush, hfill]
    cases hw : runActs (flushActs (v.withFb []).cfg (v.withFb []).fb) (v.withFb []) with
    | done u =>
      rw [hw] at h2
      exact .sent u _ rfl rfl (h.init_trans hv h2) (fun hs => cs_done _ (v.withFb []) u (hv hs) hw) (.inr (.inl ⟨rfl, rfl⟩)) rfl
    | failed u =>
      rw [hw] at h2
      exact .failed u rfl rfl (h.init_trans hv h2) (cs_failed _ _ u hw) rfl
    | stalled u =>
      rw [hw] at h2
      exact .hung rfl (h.init_trans hv h2) (cs_stalled _ _ u hw)

/-! ### The inversion of `exec` -/

/-- Every operation answers a next state, and that state is one of `Ends`. -/
theorem exec_ends (i : Instr) (s : State) : ∃ t, exec i s = .next t ∧ Ends i s t := by
  cases i with
  | setpx x y g =>
    exact ⟨_, rfl, .drew _ 0 rfl rfl (by simp) (wf_plotAll _ [⟨sx s.cfg x, sx s.cfg y, g⟩]) (by simp) rfl⟩
  | getpx x y => exact ⟨_, rfl, .drew s.fb _ rfl rfl (fun _ => ⟨_, _, rfl⟩) id (fun _ => rfl) rfl⟩
  | fill g => exact ⟨_, rfl, .drew (Memory.fill (pack4 s.cfg.layout g)) 0 rfl rfl (by simp) (fun _ => Memory.wf_fill _) (by simp) rfl⟩
  | line x1 y1 x2 y2 g => exact ⟨_, rfl, .drew _ 0 rfl rfl (by simp) (wf_plotAll _ _) (by simp) rfl⟩
  | rect x y w h g f =>
    refine ⟨_, rfl, ?_⟩
    split
    · exact .rejected rfl rfl
    · split
      · exact .drew s.fb 0 rfl rfl (by simp) id (by simp) rfl
      · exact .drew _ 0 rfl rfl (by simp) (wf_plotAll _ _) (by simp) rfl
  | circle x0 y0 r g f =>
    refine ⟨_, rfl, ?_⟩
    split
    · exact .rejected rfl rfl
    · exact .drew _ 0 rfl rfl (by simp) (wf_plotAll _ _) (by simp) rfl
  | circleaa x0 y0 r g =>
    refine ⟨_, rfl, ?_⟩
    split
    · exact .rejected rfl rfl
    · split
      · exact .rejected rfl rfl
      · exact .drew _ 0 rfl rfl (by simp) (wf_plotAll _ _) (by simp) rfl
  | glyph ch x y g scale angle =>
    refine ⟨_, rfl, ?_⟩
    split
    · exact .rejected rfl rfl
    · exact .drew _ 0 rfl rfl (by simp) (wf_plotAll _ _) (by simp) rfl
  | text chars x y g scale spacing angle f =>
    refine ⟨_, rfl, ?_⟩
    split
    · exact .rejected rfl rfl
    · exact .drew _ 0 rfl rfl (by simp) (wf_plotAll _ _) (by simp) rfl
  | wrcmd b => exact ⟨_, rfl, ends_conclude _ s _ _ (by simp) rfl rfl rfl (.inl rfl)⟩
  | wrdata b => exact ⟨_, rfl, ends_conclude _ s _ _ (by simp) rfl rfl rfl (.inl rfl)⟩
  | init => exact ⟨_, rfl, ends_init s⟩
  | setwin cs ce rs re =>
    refine ⟨_, rfl, ?_⟩
    split
    · exact .rejected rfl rfl
    · exact ends_conclude _ s _ _ (by simp [windowActs]) rfl rfl rfl (.inl rfl)
  | flush => exact ⟨_, rfl, ends_conclude _ s _ _ (by simp [flushActs, windowActs]) rfl rfl rfl (.inl rfl)⟩
  | lpm =>
    refine ⟨_, rfl, ?_⟩
    split
    · exact .idempotent (.inl rfl) rfl
    · exact ends_conclude _ s _ _ (by simp [lpmActs, tableActs_no_rst]) rfl rfl rfl (.inr (.inr (.inl ⟨rfl, rfl⟩)))
  | hpm =>
    refine ⟨_, rfl, ?_⟩
    split
    · exact .idempotent (.inr rfl) rfl
    · exact ends_conclude _ s _ _ (by simp [hpmActs, tableActs_no_rst]) rfl rfl rfl (.inr (.inr (.inr ⟨rfl, rfl⟩)))
  | sleep f => cases f <;> exact ⟨_, rfl, ends_conclude _ s _ _ (by simp [commandActs]) rfl rfl rfl (.inl rfl)⟩
  | dispon f => cases f <;> exact ⟨_, rfl, ends_conclude _ s _ _ (by simp [commandActs]) rfl rfl rfl (.inl rfl)⟩
  | invert f => cases f <;> exact ⟨_, rfl, ends_conclude _ s _ _ (by simp [commandActs]) rfl rfl rfl (.inl rfl)⟩

end Sys2Proof.Machine
end

