-- ==== Sys2Proof/Laws/Glyph.lean ====
section
/-! SUPPORT. The rotation and the pre-flight check of a glyph (spec 42_text.md R132 to R135): the box is in order and contains every
rotated cell pixel; at the right angles the check is that the cell lies on the panel; a cell wider than the panel never fits. -/

namespace Sys2Proof.Machine

/-- The corners of a box are in order. -/
theorem bbox_ordered (cfg : Config) (a scale : Nat) (h : 0 < scale) :
    (bbox cfg a scale).uMin ≤ (bbox cfg a scale).uMax ∧ (bbox cfg a scale).vMin ≤ (bbox cfg a scale).vMax := by
  unfold bbox cellSide
  split <;> dsimp only <;> omega

/-- `BBOX` contains `ROT` of every cell pixel (R135). -/
theorem rot_mem_bbox (cfg : Config) (a scale u v : Nat) (hu : u < 8 * scale) (hv : v < 8 * scale) :
    ((bbox cfg a scale).uMin ≤ (rot cfg a scale u v).1 ∧ (rot cfg a scale u v).1 ≤ (bbox cfg a scale).uMax) ∧
      (bbox cfg a scale).vMin ≤ (rot cfg a scale u v).2 ∧ (rot cfg a scale u v).2 ≤ (bbox cfg a scale).vMax := by
  by_cases h : a = 0 ∨ a = 90 ∨ a = 180 ∨ a = 270
  · rcases h with rfl | rfl | rfl | rfl <;> simp [rot, bbox, cellSide] <;> omega
  · have ho := bbox_ordered cfg a scale (by omega)
    have hr : rot cfg a scale u v = holdTo (bbox cfg a scale) (chipRot cfg a scale u v) := by
      unfold rot
      rw [if_neg (by omega), if_neg (by omega), if_neg (by omega), if_neg (by omega)]
    rw [hr]
    simp only [holdTo]
    omega

/-- At the right angles a glyph fits where its cell lies on the panel (R135). -/
theorem fits_right_angle (cfg : Config) (gx gy : Int) (a scale : Nat) (ha : a % 90 = 0) :
    Fits cfg gx gy a scale ↔ CellOnPanel scale gx gy := by
  simp only [Fits, bbox, if_pos ha, CellOnPanel, cellSide]
  omega

/-- A cell wider than the panel fits nowhere, at any angle (R132). -/
theorem not_fits_wide (cfg : Config) (gx gy : Int) (a scale : Nat) (h : 38 ≤ scale) : ¬ Fits cfg gx gy a scale := by
  have h8 : (300 : Int) < ((8 * scale : Nat) : Int) := by omega
  unfold Fits bbox cellSide
  split
  · dsimp only
    omega
  · simp only [if_pos h8]
    omega

end Sys2Proof.Machine
end

