-- ==== Sys2Proof/Laws/PerInstr.lean ====
section
/-! SUPPORT. The per-instruction family EncodedLength: the descriptor an operation encodes to has the length the decoder finds from it
(spec 30_encoding.md R83), whatever halfwords follow. -/

namespace Sys2Proof.Laws.EncodedLength

/-- The length R83 gives the encoded descriptor, read from its own halfwords, is its length. -/
def Statement (i : Instr) : Prop :=
  i.wellFormed = true → ∀ rest, descriptorLength (encode i ++ rest) = (encode i).length

/-- For a format of fixed length the row decides. -/
theorem of_row {w0 : Half} {ws : List Half} {row : OpRow} (rest : List Half) (h : rowOf (opcodeOf w0) = some row)
    (hf : row.format ≠ .T) (hl : fixedLength row.format = ws.length + 1) :
    descriptorLength (w0 :: ws ++ rest) = (w0 :: ws).length := by
  simp only [descriptorLength, List.cons_append, List.headD_cons, h, List.length_cons]
  cases hfmt : row.format <;> simp_all

theorem setpx (x y : Half) (g : Gray) : Statement (.setpx x y g) :=
  fun _ rest => of_row (row := ⟨0x01, .P, false, true⟩) rest (by rw [opcodeOf_word0]; rfl) (by decide) rfl
theorem getpx (x y : Half) : Statement (.getpx x y) :=
  fun _ rest => of_row (row := ⟨0x02, .P, false, false⟩) rest (by rw [opcodeOf_word0]; rfl) (by decide) rfl
theorem fill (g : Gray) : Statement (.fill g) :=
  fun _ rest => of_row (row := ⟨0x03, .Z, false, true⟩) rest (by rw [opcodeOf_word0]; rfl) (by decide) rfl
theorem line (x1 y1 x2 y2 : Half) (g : Gray) : Statement (.line x1 y1 x2 y2 g) :=
  fun _ rest => of_row (row := ⟨0x10, .Q, false, true⟩) rest (by rw [opcodeOf_word0]; rfl) (by decide) rfl
theorem rect (x y w h : Half) (g : Gray) (f : Bool) : Statement (.rect x y w h g f) :=
  fun _ rest => of_row (row := ⟨0x11, .Q, true, true⟩) rest (by rw [opcodeOf_word0]; rfl) (by decide) rfl
theorem circle (x0 y0 r : Half) (g : Gray) (f : Bool) : Statement (.circle x0 y0 r g f) :=
  fun _ rest => of_row (row := ⟨0x12, .C, true, true⟩) rest (by rw [opcodeOf_word0]; rfl) (by decide) rfl
theorem circleaa (x0 y0 r : Half) (g : Gray) : Statement (.circleaa x0 y0 r g) :=
  fun _ rest => of_row (row := ⟨0x13, .C, false, true⟩) rest (by rw [opcodeOf_word0]; rfl) (by decide) rfl
theorem glyph (ch : Byte) (x y : Half) (g : Gray) (scale : Byte) (angle : Half) : Statement (.glyph ch x y g scale angle) :=
  fun _ rest => of_row (row := ⟨0x20, .G, false, true⟩) rest (by rw [opcodeOf_word0]; rfl) (by decide) rfl
theorem text (chars : List Byte) (x y : Half) (g : Gray) (scale spacing : Byte) (angle : Half) (f : Bool) :
    Statement (.text chars x y g scale spacing angle f) := by
  intro h rest
  have hlen : chars.length < 65536 := by simpa [Instr.wellFormed] using h
  have hrow : rowOf (opcodeOf (word0 0x21 f g)) = some ⟨0x21, .T, true, true⟩ := by rw [opcodeOf_word0]; rfl
  simp only [descriptorLength, encode, List.cons_append, List.headD_cons, hrow, List.length_cons, length_packChars]
  simp [Nat.mod_eq_of_lt hlen]
  omega
theorem wrcmd (b : Byte) : Statement (.wrcmd b) :=
  fun _ rest => of_row (row := ⟨0x30, .I, false, false⟩) rest (by rw [opcodeOf_wordI]; rfl) (by decide) rfl
theorem wrdata (b : Byte) : Statement (.wrdata b) :=
  fun _ rest => of_row (row := ⟨0x31, .I, false, false⟩) rest (by rw [opcodeOf_wordI]; rfl) (by decide) rfl
theorem init : Statement .init :=
  fun _ rest => of_row (row := ⟨0x32, .Z, false, false⟩) rest (by rw [opcodeOf_word0]; rfl) (by decide) rfl
theorem setwin (cs ce rs re : Half) : Statement (.setwin cs ce rs re) :=
  fun _ rest => of_row (row := ⟨0x33, .Q, false, false⟩) rest (by rw [opcodeOf_word0]; rfl) (by decide) rfl
theorem flush : Statement .flush :=
  fun _ rest => of_row (row := ⟨0x34, .Z, false, false⟩) rest (by rw [opcodeOf_word0]; rfl) (by decide) rfl
theorem lpm : Statement .lpm :=
  fun _ rest => of_row (row := ⟨0x35, .Z, false, false⟩) rest (by rw [opcodeOf_word0]; rfl) (by decide) rfl
theorem hpm : Statement .hpm :=
  fun _ rest => of_row (row := ⟨0x36, .Z, false, false⟩) rest (by rw [opcodeOf_word0]; rfl) (by decide) rfl
theorem sleep (f : Bool) : Statement (.sleep f) :=
  fun _ rest => of_row (row := ⟨0x37, .Z, true, false⟩) rest (by rw [opcodeOf_word0]; rfl) (by decide) rfl
theorem dispon (f : Bool) : Statement (.dispon f) :=
  fun _ rest => of_row (row := ⟨0x38, .Z, true, false⟩) rest (by rw [opcodeOf_word0]; rfl) (by decide) rfl
theorem invert (f : Bool) : Statement (.invert f) :=
  fun _ rest => of_row (row := ⟨0x39, .Z, true, false⟩) rest (by rw [opcodeOf_word0]; rfl) (by decide) rfl

end Sys2Proof.Laws.EncodedLength
end

