-- ==== Sys2Proof/Laws/Step.lean ====
section
/-! SUPPORT. Inversion of `step`: the engine was idle, and it waited, rejected an illegal descriptor, or ran an operation (spec
10_state.md R34, 30_encoding.md R82, R83). -/

namespace Sys2Proof.Machine

/-- The decoder only consumes halfwords, from the front (R83). -/
theorem decode_rest {ws rest : List Half} (h : (∃ i, decode ws = .ok i rest) ∨ ∃ why, decode ws = .illegal why rest) :
    rest <:+ ws := by
  cases ws with
  | nil => rcases h with ⟨i, h⟩ | ⟨why, h⟩ <;> cases h
  | cons w0 ws =>
    rcases h with ⟨i, h⟩ | ⟨why, h⟩ <;> simp only [decode] at h
    all_goals
      repeat' split at h
    all_goals
      cases h <;> first | exact List.suffix_cons _ _ | exact List.drop_suffix _ _

/-- Everything a step that answers a next state can have done. -/
theorem step_cases {s t : State} (h : step s = .next t) :
    s.engine = .idle ∧
      (t = s ∨ (∃ rest, rest <:+ s.hostIn ∧ t = s.refuseDescriptor rest) ∨
        ∃ i rest, decode s.hostIn = .ok i rest ∧ rest <:+ s.hostIn ∧ Ends i (s.accept i rest) t) := by
  unfold step at h
  split at h
  · cases h
  · next he =>
    refine ⟨he, ?_⟩
    split at h
    · next i rest hd =>
      obtain ⟨t', h', hs⟩ := exec_ends i (s.accept i rest)
      rw [h] at h'
      cases h'
      exact .inr (.inr ⟨i, rest, hd, decode_rest (.inl ⟨i, hd⟩), hs⟩)
    · next why rest hd =>
      cases h
      exact .inr (.inl ⟨rest, decode_rest (.inr ⟨why, hd⟩), rfl⟩)
    · cases h
      exact .inl rfl

end Sys2Proof.Machine
end

