-- ==== Sys2Proof/Laws/Text.lean ====
section
/-! SUPPORT. The layout of a TEXT (spec 42_text.md R139, R140): the lines of a string, the cells of one line, the cells of all lines. -/

namespace Sys2Proof.Machine

/-! ### The lines -/

theorem splitLines_append (nl : Byte) (l r : List Byte) (h : nl ∉ l) :
    splitLines nl (l ++ nl :: r) = l :: splitLines nl r := by
  induction l with
  | nil => simp [splitLines]
  | cons c l ih =>
    rw [List.mem_cons, not_or] at h
    simp only [List.cons_append, splitLines, if_neg (Ne.symm h.1), ih h.2]

theorem splitLines_single (nl : Byte) (l : List Byte) (h : nl ∉ l) : splitLines nl l = [l] := by
  induction l with
  | nil => rfl
  | cons c l ih =>
    rw [List.mem_cons, not_or] at h
    simp only [splitLines, if_neg (Ne.symm h.1), ih h.2]

/-- Splitting undoes joining with newlines: `k` newlines give `k + 1` lines. -/
theorem splitLines_intercalate (nl : Byte) (ls : List (List Byte)) (hne : ls ≠ []) (h : ∀ l ∈ ls, nl ∉ l) :
    splitLines nl (List.intercalate [nl] ls) = ls := by
  induction ls with
  | nil => exact absurd rfl hne
  | cons l ls ih =>
    cases ls with
    | nil => simpa [List.intercalate] using splitLines_single nl l (h l List.mem_cons_self)
    | cons m ms =>
      have hj : List.intercalate [nl] (l :: m :: ms) = l ++ nl :: List.intercalate [nl] (m :: ms) := by simp [List.intercalate]
      rw [hj, splitLines_append nl l _ (h l List.mem_cons_self), ih (by simp) (fun l hl => h l (List.mem_cons_of_mem _ hl))]

/-! ### The cells -/

/-- Where a cell at the beginning of a line stands. -/
def LineSpec.start (L : LineSpec) : Int := if L.rev then L.x - L.n else L.x

/-- Everything `layoutLine` does from cursor `(cx, cy)`: the present characters in order; the row it ends at; where the first cell stands;
where each next cell stands. -/
theorem layoutLine_spec (cfg : Config) (L : LineSpec) (cs : List Byte) (cx cy : Int) :
    (layoutLine cfg L cs cx cy).1.map (fun p => p.ch) = cs.filter (fun c => (fontGlyph cfg c).isSome) ∧
    (layoutLine cfg L cs cx cy).2 = lastRow cy (layoutLine cfg L cs cx cy).1 ∧
    (∀ p, (layoutLine cfg L cs cx cy).1[0]? = some p →
      if Wraps L cx then p.gx = L.start ∧ p.gy = cy + L.lh else p.gx = (if L.rev then cx - L.n else cx) ∧ p.gy = cy) ∧
    (∀ (k : Nat) (p q : Place), (layoutLine cfg L cs cx cy).1[k]? = some p → (layoutLine cfg L cs cx cy).1[k + 1]? = some q →
      if (if L.rev then 0 ≤ p.gx - L.adv else p.gx + L.adv + L.n ≤ 300) then
        q.gx = (if L.rev then p.gx - L.adv else p.gx + L.adv) ∧ q.gy = p.gy
      else q.gx = L.start ∧ q.gy = p.gy + L.lh) := by
  induction cs generalizing cx cy with
  | nil => simp [layoutLine, lastRow]
  | cons c cs ih =>
    simp only [layoutLine]
    by_cases hc : fontGlyph cfg c = none
    · simp only [hc, if_true]
      obtain ⟨h1, h2, h3, h4⟩ := ih cx cy
      exact ⟨by rw [h1]; simp [hc], h2, h3, h4⟩
    · simp only [hc, if_false]
      obtain ⟨cx1, e1⟩ : ∃ a, a = (if Wraps L cx then L.x else cx) := ⟨_, rfl⟩
      obtain ⟨cy1, e2⟩ : ∃ a, a = (if Wraps L cx then cy + L.lh else cy) := ⟨_, rfl⟩
      rw [← e1, ← e2]
      obtain ⟨h1, h2, h3, h4⟩ := ih (if L.rev then cx1 - L.adv else cx1 + L.adv) cy1
      refine ⟨?_, ?_, ?_, ?_⟩
      · rw [List.map_cons, h1, List.filter_cons_of_pos (by simpa [Option.isSome_iff_ne_none] using hc)]
      · rw [h2]
        unfold lastRow
        rw [List.getLast?_cons]
        cases (layoutLine cfg L cs (if L.rev then cx1 - L.adv else cx1 + L.adv) cy1).1.getLast? <;> rfl
      · rintro p hp
        simp only [List.getElem?_cons_zero, Option.some.injEq] at hp
        subst hp e1 e2
        split <;> simp [LineSpec.start]
      · intro k p q hp hq
        rw [List.getElem?_cons_succ] at hq
        cases k with
        | succ k => exact h4 k p q (by simpa using hp) hq
        | zero =>
          simp only [List.getElem?_cons_zero, Option.some.injEq] at hp
          have h := h3 q hq
          subst hp
          cases hr : L.rev <;> simp only [hr, Bool.false_eq_true, if_false, if_true, Wraps] at h ⊢ <;> split at h
          · rw [if_neg (by omega)]
            exact h
          · rw [if_pos (by omega)]
            exact h
          · rw [if_neg (by omega)]
            exact h
          · rw [if_pos (by omega)]
            exact ⟨by omega, h.2⟩

/-- The cells of one line from its start are `LineCells`, and it ends at the row of the last of them. -/
theorem lineCells_layoutLine (cfg : Config) (L : LineSpec) (cs : List Byte) (cy : Int) :
    LineCells cfg L.start L.n L.adv L.lh L.rev cs cy (layoutLine cfg L (if L.rev then cs.reverse else cs) L.x cy).1 ∧
      (layoutLine cfg L (if L.rev then cs.reverse else cs) L.x cy).2 =
        lastRow cy (layoutLine cfg L (if L.rev then cs.reverse else cs) L.x cy).1 := by
  obtain ⟨h1, h2, h3, h4⟩ := layoutLine_spec cfg L (if L.rev then cs.reverse else cs) L.x cy
  refine ⟨⟨h1, fun p hp => ?_, h4⟩, h2⟩
  have h := h3 p hp
  unfold LineSpec.start at h ⊢
  cases hr : L.rev <;> simp only [hr, Bool.false_eq_true, if_false, if_true, Wraps] at h ⊢ <;> split at h
  · rw [if_neg (by omega)]
    exact h
  · rw [if_pos (by omega)]
    exact h
  · rw [if_neg (by omega)]
    exact h
  · rw [if_pos (by omega)]
    exact h

end Sys2Proof.Machine
end

