-- ==== Sys2Proof/Tests/Slice0.lean ====
section
/-! SUPPORT. The model's own tests: the checks of WellFormed, decoding of words written out from spec/30_encoding.md, single steps whose results
are taken from spec/95_test_vectors.md, and a witness for the hypotheses of each statement that has any. -/

namespace Sys2Proof.Tests
open Sys2Proof.Machine

/-! ### Fixtures (95_test_vectors.md: FONT_T, CFG_T) -/

/-- `FONT_T`: 'A', 'L' and the one-pixel glyph 0x01. -/
def fontT : List (Byte × Glyph) :=
  [(0x41, 0x1824427E42424200), (0x4C, 0x4040404040407E00), (0x01, 0x8000000000000000)]

/-- `CFG_T`; it leaves `ROT` and `BBOX` open, and one value of `BBOX` is listed here for the witnesses. -/
def cfgT : Config where
  hasAA := true
  font := fontT
  rot := []
  bbox := [⟨45, 1, ⟨-2, -2, 9, 9⟩⟩]
  cmdCaset := 0x2A
  cmdRaset := 0x2B
  cmdRamwr := 0x2C
  cmdLpm := 0x39
  cmdHpm := 0x38
  cmdSlpin := 0x10
  cmdSlpout := 0x11
  cmdDispon := 0x29
  cmdDispoff := 0x28
  cmdInvon := 0x21
  cmdInvoff := 0x20
  initTable := [⟨0x11, [], 120⟩, ⟨0xB0, [0x64], 0⟩, ⟨0x29, [], 0⟩]
  lpmTable := [⟨0xC1, [0x11, 0x22], 0⟩]
  hpmTable := [⟨0xC1, [0x33, 0x44], 0⟩]
  winCs := 0x05
  winCe := 0x36
  winRs := 0x00
  winRe := 0xC7
  tRstAssert := 10
  tRstRelease := 120
  tLpm := 100
  tHpm := 100
  tSlpin := 100
  tSlpout := 120
  tDispon := 0
  tDispoff := 0
  tInvon := 0
  tInvoff := 0
  layout := Params.layout
  newline := Params.newline
  lineGap := Params.lineGap
  xlen := Params.xlen
  pmReset := Params.pmReset

/-- From reset, under `CFG_T`, with the transport's answers `as`. -/
def from0 (as : List BusAnswer) : State := { State.reset with cfg := cfgT, answers := as }

/-- The state after one step that presents the descriptor `ws`. -/
def after (s : State) (ws : List Half) : State :=
  match step (s.present ws) with
  | .next t => t
  | .fault _ => s
  | .refused _ => s

/-- Whether that step answers a next state. -/
def runs (s : State) (ws : List Half) : Bool :=
  match step (s.present ws) with
  | .next _ => true
  | .fault _ => false
  | .refused _ => false

/-- `n` Done answers. -/
def dones (n : Nat) : List BusAnswer := List.replicate n .done

/-! ### WellFormed: the one check, and a term it refuses -/

theorem test_wellFormed_text_too_long (c : Byte) :
    Instr.wellFormed (.text (List.replicate 65536 c) 0 0 0 1 0 0 false) = false := by
  show decide ((List.replicate 65536 c).length < 65536) = false
  rw [List.length_replicate]
  decide

theorem test_wellFormed_text_longest (c : Byte) :
    Instr.wellFormed (.text (List.replicate 65535 c) 0 0 0 1 0 0 false) = true := by
  show decide ((List.replicate 65535 c).length < 65536) = true
  rw [List.length_replicate]
  decide

/-! ### Decoding: for each operation a descriptor written out from R72 to R81 (the worked ones are R88's, the TEXT ones section 2.7's) -/

theorem test_decode_setpx : decode [0x0102, 0x0005, 0x0007] = .ok (.setpx 5 7 2) [] := by decide
theorem test_decode_getpx : decode [0x0200, 0xFFFF, 0x018F, 0x3400] = .ok (.getpx (-1) 399) [0x3400] := by decide
theorem test_decode_fill : decode [0x0303] = .ok (.fill 3) [] := by decide
theorem test_decode_line : decode [0x1003, 0x0000, 0x0000, 0x012B, 0x018F] = .ok (.line 0 0 299 399 3) [] := by decide
theorem test_decode_rect : decode [0x1105, 0xFFFF, 0x0002, 0x000A, 0x0004] = .ok (.rect (-1) 2 10 4 1 true) [] := by decide
theorem test_decode_circle : decode [0x1203, 0x0096, 0x00C8, 0x0032] = .ok (.circle 150 200 50 3 false) [] := by decide
theorem test_decode_circleaa : decode [0x1301, 0x0001, 0x0002, 0x0003] = .ok (.circleaa 1 2 3 1) [] := by decide
theorem test_decode_glyph : decode [0x2003, 0x000A, 0x0014, 0x005A, 0x0241] = .ok (.glyph 0x41 10 20 3 2 90) [] := by decide
theorem test_decode_text : decode [0x2103, 0x0000, 0x0000, 0x0000, 0x0101, 0x0003, 0x4869, 0x0A00] =
    .ok (.text [0x48, 0x69, 0x0A] 0 0 3 1 1 0 false) [] := by decide
theorem test_decode_text_reverse : decode [0x2107, 0x0014, 0x0000, 0xFFA6, 0x0100, 0x0002, 0x414C] =
    .ok (.text [0x41, 0x4C] 20 0 3 1 0 (-90) true) [] := by decide
theorem test_decode_wrcmd : decode [0x302C] = .ok (.wrcmd 0x2C) [] := by decide
theorem test_decode_wrdata : decode [0x31FF] = .ok (.wrdata 0xFF) [] := by decide
theorem test_decode_init : decode [0x3200] = .ok .init [] := by decide
theorem test_decode_setwin : decode [0x3300, 0x0005, 0x0036, 0x0000, 0x00C7] = .ok (.setwin 5 54 0 199) [] := by decide
theorem test_decode_flush : decode [0x3400] = .ok .flush [] := by decide
theorem test_decode_lpm : decode [0x3500] = .ok .lpm [] := by decide
theorem test_decode_hpm : decode [0x3600] = .ok .hpm [] := by decide
theorem test_decode_sleep : decode [0x3704] = .ok (.sleep true) [] := by decide
theorem test_decode_dispon : decode [0x3800] = .ok (.dispon false) [] := by decide
theorem test_decode_invert : decode [0x3904] = .ok (.invert true) [] := by decide

/-- R82 (a) to (e), and R83's lengths. -/
theorem test_decode_illegal :
    decode [0x0000, 0x3400] = .illegal .unknownOpcode [0x3400] ∧
    decode [0x0308] = .illegal .reservedBits [] ∧
    decode [0x0304] = .illegal .unusedBoolean [] ∧
    decode [0x0201, 0x0000, 0x0000, 0x3400] = .illegal .unusedGray [0x3400] ∧
    decode [0x2103, 0x0000, 0x0000, 0x0000, 0x0100, 0x0001, 0x4142] = .illegal .padding [] := by decide

theorem test_decode_waits : decode [] = .waiting ∧ decode [0x1003, 0, 0, 0] = .waiting ∧
    decode [0x2103, 0, 0, 0, 0x0101, 0x0003, 0x4869] = .waiting := by decide

/-- The table's numbering: `W0` in bits 15..0, operand halfwords that the word does not give are 0. -/
theorem test_decodeTableWord :
    decodeTableWord 48 0x000700050102 = some (.setpx 5 7 2) ∧ decodeTableWord 16 0x1103 = some (.rect 0 0 0 0 3 false) ∧
    decodeTableWord 16 0x2101 = some (.text [] 0 0 1 0 0 0 false) ∧ decodeTableWord 16 0x4000 = none := by decide

/-! ### The byte codec (R41, R42) -/

theorem test_byteIndex : byteIndex 3 2 = 151 ∧ byteIndex 299 0 = 149 ∧ byteIndex 0 399 = 29850 ∧ byteIndex 299 399 = 29999 := by decide

/-! ### Steps (95_test_vectors.md section 2; the vector's number in the name) -/

theorem test_step_setpx_V5d : (after (from0 []) [0x0101, 3, 2]).fb = [(151, 0x10)] := by decide +kernel
theorem test_step_setpx_V5f : (after (from0 []) [0x0103, 299, 399]).fb = [(29999, 0x03)] := by decide +kernel
theorem test_step_getpx_V8 :
    ((after { from0 [] with fb := [(302, 0x02)] } [0x0200, 5, 5]).hostOut = [⟨0x00, 2⟩]) ∧
    ((after { from0 [] with fb := [(302, 0x02)] } [0x0200, 4, 5]).hostOut = [⟨0x00, 0⟩]) := by decide +kernel
theorem test_step_getpx_V9 : (after { from0 [] with fb := [(0, 0xAA)] } [0x0200, 0xFFFF, 0xFFFF]).hostOut = [⟨0x00, 0⟩] := by
  decide +kernel
theorem test_fill_V6 : pack4 Params.layout 0 = 0x00 ∧ pack4 Params.layout 1 = 0x55 ∧ pack4 Params.layout 2 = 0xAA ∧
    pack4 Params.layout 3 = 0xFF := by decide
theorem test_step_fill_V6 : (after { from0 [] with fb := [(7, 0x12)] } [0x0300]).fb = [] := by decide +kernel
theorem test_line_V13 : linePoints 0 0 4 2 = [(0, 0), (1, 0), (2, 1), (3, 1), (4, 2)] := by decide
theorem test_line_V15 : linePoints 3 7 (-2) 4 = [(-2, 4), (-1, 5), (0, 5), (1, 6), (2, 6), (3, 7)] := by decide
theorem test_step_rect_V18 : (after (from0 []) [0x1107, 1, 1, 3, 3]).fb = [(0, 0x03), (1, 0x0F), (150, 0x33), (151, 0xFF)] := by
  decide +kernel
theorem test_step_rect_V19 : (after (from0 []) [0x1101, 0xFFFF, 0xFFFF, 3, 3]).fb = [(0, 0x15)] := by decide +kernel
theorem test_oct_R117 : oct 0 = [(0, 0)] ∧ oct 1 = [(0, 1)] ∧ oct 2 = [(0, 2), (1, 2)] ∧ oct 3 = [(0, 3), (1, 3), (2, 2)] ∧
    oct 4 = [(0, 4), (1, 4), (2, 3), (3, 3)] ∧ oct 5 = [(0, 5), (1, 5), (2, 5), (3, 4)] := by decide
theorem test_step_circle_V27 : (after (from0 []) [0x1205, 0, 0, 2]).fb = [(0, 0x55), (1, 0x44), (150, 0x50)] := by decide +kernel
theorem test_step_circle_V29a : (after (from0 []) [0x1203, 1, 1, 1]).fb = [(0, 0x3C), (1, 0x0C), (150, 0x30)] := by decide +kernel
theorem test_step_circleaa_V31c :
    (after (from0 []) [0x1303, 10, 10, 0xFFFF]).hostOut = [⟨0x01, 0⟩] ∧
    (after { from0 [] with cfg := { cfgT with hasAA := false } } [0x1303, 10, 10, 3]).hostOut = [⟨0x01, 0⟩] := by decide +kernel
/-- V31a: the centre, the pixels of `q ≤ (r - 1)²` are set, those of `q ≥ (r + 1)²` are not; radius 1. -/
theorem test_circleaa_V31a : aaLevel 10 10 1 2 10 10 = some 2 ∧ aaLevel 10 10 1 2 12 10 = none := by decide +kernel
theorem test_step_glyph_V32a : (after (from0 []) [0x2003, 0, 0, 90, 0x014C]).fb =
    [(0, 0x03), (1, 0x0F), (2, 0x0F), (3, 0x0F), (150, 0x33), (300, 0x33), (450, 0x30)] := by decide +kernel
theorem test_step_glyph_V33 : (after (from0 []) [0x2001, 292, 392, 0, 0x0101]).fb = [(29546, 0x40)] ∧
    (after (from0 []) [0x2001, 293, 392, 0, 0x0101]).fb = [] := by decide +kernel
/-- V34's second glyph; and R135's check with a listed box. -/
theorem test_step_glyph_V34 : (after (from0 []) [0x2003, 0, 0, 0, 0x2641]).fb = [] ∧
    (after (from0 []) [0x2003, 1, 2, 45, 0x0141]).fb = [] := by decide +kernel
theorem test_text_V39 : textPlaces cfgT [0x41, 0x4C, 0x41, 0x0A, 0x4C] 280 0 1 1 false =
    [⟨0x41, 280, 0⟩, ⟨0x4C, 289, 0⟩, ⟨0x41, 280, 8⟩, ⟨0x4C, 280, 16⟩] := by decide +kernel
theorem test_text_V43 : textPlaces cfgT [0x41, 0x41, 0x4C] 10 4 1 2 true = [⟨0x4C, 2, 4⟩, ⟨0x41, 2, 12⟩, ⟨0x41, 2, 20⟩] := by
  decide +kernel
theorem test_step_wrcmd_V50 : (after (from0 (dones 1)) [0x302C]).trace = [.dc .cmd, .cs .active, .byte 0x2C, .cs .inactive] := by
  decide +kernel
theorem test_step_wrcmd_V63 : (after (from0 [.fail 0]) [0x302C]).trace = [.dc .cmd, .cs .active, .cs .inactive] ∧
    (after (from0 [.fail 0]) [0x302C]).hostOut = [⟨0x06, 0⟩] ∧ (after (from0 [.fail 0]) [0x302C]).faulted = true := by decide +kernel
theorem test_step_wrdata_V51 : (after (from0 (dones 1)) [0x3117]).trace = [.dc .data, .cs .active, .byte 0x17, .cs .inactive] := by
  decide +kernel
/-- V55's beginning, the table's second entry failing. -/
theorem test_step_init : (after (from0 [.done, .fail 0]) [0x3200]).trace =
    [.rst .asserted, .delay 10, .rst .released, .delay 120, .dc .cmd, .cs .active, .byte 0x11, .cs .inactive, .delay 120,
      .dc .cmd, .cs .active, .cs .inactive] := by decide +kernel
theorem test_step_setwin_V52 : (after (from0 (dones 6)) [0x3300, 5, 54, 0, 199]).trace =
    transaction .cmd [0x2A] ++ transaction .data [0x05] ++ transaction .data [0x36] ++ transaction .cmd [0x2B] ++
      transaction .data [0x00] ++ transaction .data [0xC7] := by decide +kernel
theorem test_step_setwin_V53 : (after (from0 (dones 6)) [0x3300, 0, 256, 0, 0]).hostOut = [⟨0x01, 0⟩] ∧
    (after (from0 (dones 6)) [0x3300, 0xFFFF, 0, 0, 0]).trace = [] := by decide +kernel
/-- V67. -/
theorem test_step_flush_V67 : (after (from0 [.stall 0]) [0x3400]).trace = [.dc .cmd, .cs .active] ∧
    (after (from0 [.stall 0]) [0x3400]).hostOut = [] ∧ (after (from0 [.stall 0]) [0x3400]).cs = .active := by decide +kernel
theorem test_step_lpm_V56 : (after (from0 (dones 4)) [0x3500]).trace =
    transaction .cmd [0x39] ++ transaction .cmd [0xC1] ++ transaction .data [0x11] ++ transaction .data [0x22] ++ [.delay 100] ∧
    (after (from0 (dones 4)) [0x3500]).hostOut = [⟨0x08, 0⟩] := by decide +kernel
theorem test_step_lpm_V65 : (after (from0 [.done, .fail 0]) [0x3500]).pm = .highPower ∧
    (after (from0 [.done, .fail 0]) [0x3500]).hostOut = [⟨0x06, 0⟩] := by decide +kernel
theorem test_step_hpm_V58 : (after { from0 (dones 4) with pm := .lowPower } [0x3600]).trace =
    transaction .cmd [0x38] ++ transaction .cmd [0xC1] ++ transaction .data [0x33] ++ transaction .data [0x44] ++ [.delay 100] ∧
    (after { from0 (dones 4) with pm := .lowPower } [0x3600]).pm = .highPower := by decide +kernel
theorem test_step_hpm_V59 : (after (from0 []) [0x3600]).trace = [] ∧ (after (from0 []) [0x3600]).hostOut = [⟨0x00, 0⟩] := by
  decide +kernel
theorem test_step_sleep_V60 : (after (from0 (dones 1)) [0x3704]).trace = transaction .cmd [0x10] ++ [.delay 100] ∧
    (after (from0 (dones 1)) [0x3700]).trace = transaction .cmd [0x11] ++ [.delay 120] := by decide +kernel
theorem test_step_dispon_V61 : (after (from0 (dones 1)) [0x3804]).trace = transaction .cmd [0x29] ∧
    (after (from0 (dones 1)) [0x3800]).trace = transaction .cmd [0x28] := by decide +kernel
theorem test_step_invert_V62 : (after (from0 (dones 1)) [0x3904]).trace = transaction .cmd [0x21] ∧
    (after (from0 (dones 1)) [0x3900]).trace = transaction .cmd [0x20] := by decide +kernel
/-- V48, and R83: an unknown opcode is one halfword. -/
theorem test_step_illegal_V48 : (after (from0 []) [0x2103, 0, 0, 0, 0x0100, 1, 0x4142]).hostOut = [⟨0x01, 0⟩] ∧
    (after (from0 []) [0x7F00, 0x3600]).hostIn = [0x3600] := by decide +kernel

/-! ### Witnesses: states and operands that meet all the hypotheses of a statement together, at the boundaries its clauses have

`good` is what most statements about drawing ask of the state. -/

/-- A legal layout and a canonical buffer that is not empty. -/
def good : State := { from0 [] with fb := [(0, 0x03), (29999, 0xC0)] }

theorem good_state : good.cfg.layout.Legal ∧ good.fb.wf = true := by decide

theorem witness_StepRunsTheDecodedOperation : (good.present [0x3704, 0x3400]).engine = .idle ∧
    decode (good.present [0x3704, 0x3400]).hostIn = .ok (.sleep true) [0x3400] := by decide
theorem witness_StepWaitsForTheWholeDescriptor :
    Instr.wellFormed (.text [0x41] 0 0 1 1 0 0 false) = true ∧ (encode (.text [0x41] 0 0 1 1 0 0 false)).length = 7 ∧
    ((good.present []).engine = .idle ∧ (good.present []).hostIn = (encode (.text [0x41] 0 0 1 1 0 0 false)).take 0) ∧
    ((good.present [0x2101, 0, 0, 0, 0x0100, 1]).engine = .idle ∧
      (good.present [0x2101, 0, 0, 0, 0x0100, 1]).hostIn = (encode (.text [0x41] 0 0 1 1 0 0 false)).take 6) := by decide
theorem witness_UnassignedOpcodeIsRejected :
    ((good.present [0x3A00]).engine = .idle ∧ (good.present [0x3A00]).hostIn = 0x3A00 :: []) ∧
    opcodeOf 0x3A00 ∉ ([0x01, 0x02, 0x03, 0x10, 0x11, 0x12, 0x13, 0x20, 0x21, 0x30, 0x31, 0x32, 0x33, 0x34, 0x35, 0x36, 0x37,
        0x38, 0x39] : List Byte) ∧
    opcodeOf 0x0000 ∉ ([0x01, 0x02, 0x03, 0x10, 0x11, 0x12, 0x13, 0x20, 0x21, 0x30, 0x31, 0x32, 0x33, 0x34, 0x35, 0x36, 0x37,
        0x38, 0x39] : List Byte) := by decide
theorem witness_UnusedFieldsAreRejected :
    ((good.present [0x0108, 0, 0]).engine = .idle ∧ (good.present [0x0108, 0, 0]).hostIn = [0x0108, 0, 0] ++ [] ∧
      ([0x0108, 0, 0] : List Half).length = 3 ∧ opcodeOf 0x0108 = 0x01 ∧ reservedOf 0x0108 ≠ 0) ∧
    ((good.present [0x0304]).hostIn = [0x0304] ++ [] ∧ opcodeOf 0x0304 = 0x03 ∧ fOf 0x0304 = true) ∧
    ((good.present [0x3901]).hostIn = [0x3901] ++ [] ∧ opcodeOf 0x3901 = 0x39 ∧ gOf 0x3901 ≠ 0) := by decide
theorem witness_BadTextDescriptorIsRejected :
    ((good.present [0x2180, 0, 0, 0, 0x0100, 0]).engine = .idle ∧
      (good.present [0x2180, 0, 0, 0, 0x0100, 0]).hostIn = 0x2180 :: 0 :: 0 :: 0 :: 0x0100 :: 0 :: ([] ++ []) ∧
      opcodeOf 0x2180 = 0x21 ∧ ([] : List Half).length = ((0 : Half).toNat + 1) / 2 ∧ reservedOf 0x2180 ≠ 0) ∧
    ((good.present [0x2103, 0, 0, 0, 0x0100, 1, 0x4142]).engine = .idle ∧
      (good.present [0x2103, 0, 0, 0, 0x0100, 1, 0x4142]).hostIn = 0x2103 :: 0 :: 0 :: 0 :: 0x0100 :: 1 :: ([0x4142] ++ []) ∧
      opcodeOf 0x2103 = 0x21 ∧ ([0x4142] : List Half).length = ((1 : Half).toNat + 1) / 2 ∧ (1 : Half).toNat % 2 = 1 ∧
      loByte (([0x4142] : List Half).getLastD 0) ≠ 0) := by decide
theorem witness_DecodeOfEncodeIsTheOperation : Instr.wellFormed (.text [] 0x8000 0x7FFF 3 255 255 0xFFFF true) = true := by decide
theorem witness_EncodeOfDecodeIsTheDescriptor :
    decode [0x2107, 0, 0, 0, 0x0100, 1, 0x4100, 0x3400] = .ok (.text [0x41] 0 0 3 1 0 0 true) [0x3400] := by decide
theorem witness_PackedByteHoldsOneLevelInAllFields : (⟨⟨0, 4⟩, ⟨1, 5⟩, ⟨2, 6⟩, ⟨3, 7⟩⟩ : Layout).Legal := by decide
theorem witness_PixelWriteSetsItsTwoBits : Params.layout.Legal ∧ good.fb.wf = true ∧
    (¬ InPanel 300 0 ∧ ¬ InPanel (-1) 0 ∧ ¬ InPanel 0 400 ∧ ¬ InPanel 0 (-1)) ∧
    (InPanel 299 399 ∧ (((29999 : Fin NB).val : Int) = 399 / 2 * 150 + 299 / 2) ∧ ((0 : Nat) : Int) = 6 - 2 * (2 * (399 % 2) + 299 % 2) ∧
      ((29998 : Fin NB).val : Int) ≠ 399 / 2 * 150 + 299 / 2) ∧
    (InPanel 0 0 ∧ (((0 : Fin NB).val : Int) = 0 / 2 * 150 + 0 / 2) ∧ ((6 : Nat) : Int) = 6 - 2 * (2 * (0 % 2) + 0 % 2)) := by decide
theorem witness_FieldsAreIndependent : good.cfg.layout.Legal ∧ good.fb.wf = true ∧ ¬ InPanel 300 399 ∧
    (InPanel 299 399 ∧ InPanel 298 399 ∧ ((298, 399) : Int × Int) ≠ (299, 399)) := by decide
theorem witness_SetpxWritesOnePixel : good.cfg.layout.Legal ∧ good.fb.wf = true := good_state
theorem witness_GetpxReturnsTheLevel : good.cfg.layout = Params.layout ∧
    (InPanel (299 : Half).toInt (399 : Half).toInt ∧ ((29999 : Fin NB).val : Int) = (399 : Half).toInt / 2 * 150 + (299 : Half).toInt / 2 ∧
      ((0 : Nat) : Int) = 6 - 2 * (2 * ((399 : Half).toInt % 2) + (299 : Half).toInt % 2)) := by decide
theorem witness_GetpxOutsideThePanelReturnsZero : ¬ InPanel (300 : Half).toInt (399 : Half).toInt ∧
    ¬ InPanel (0xFFFF : Half).toInt (0 : Half).toInt ∧ ¬ InPanel (0 : Half).toInt (400 : Half).toInt := by decide
theorem witness_GetpxAfterSetpxReturnsTheLevel : good.cfg.layout.Legal ∧ good.fb.wf = true ∧
    InPanel (299 : Half).toInt (0 : Half).toInt := by decide
theorem witness_FillSetsEveryPixel : good.cfg.layout.Legal ∧ InPanel 299 399 := by decide
/-- A drawing operation that completes, and is not CIRCLEAA. -/
theorem witness_DrawingTwiceIsDrawingOnce : good.cfg.layout.Legal ∧ good.fb.wf = true ∧
    (drawingOp (.line 0 0 5 2 3) = true ∧ ∃ t, exec (.line 0 0 5 2 3) good = .next t) ∧
    (drawingOp (.circleaa 10 10 3 3) = true ∧ ∃ t, exec (.circleaa 10 10 3 3) good = .next t) :=
  ⟨good_state.1, good_state.2, ⟨rfl, (exec_ends _ _).imp fun _ h => h.1⟩, rfl, (exec_ends _ _).imp fun _ h => h.1⟩
theorem witness_LineDrawsTheIdealLine : good.cfg.layout.Legal ∧ good.fb.wf = true := good_state
theorem witness_FilledRectDrawsTheClosedRectangle : good.cfg.layout.Legal ∧ good.fb.wf = true ∧
    (0 ≤ (0 : Half).toInt ∧ 0 ≤ (0x7FFF : Half).toInt) := by decide
theorem witness_OutlineRectDrawsTheBorder : good.cfg.layout.Legal ∧ good.fb.wf = true ∧
    (0 ≤ (1 : Half).toInt ∧ 0 ≤ (0 : Half).toInt) := by decide
theorem witness_RectOverThePanelIsFill : good.cfg.layout.Legal ∧ good.fb.wf = true := good_state
theorem witness_OctantPointsAreTheNearest : (0 : Int) ≤ 5 ∧ (3, 4) ∈ oct 5 ∧ (0, 0) ∈ oct 0 := by decide
theorem witness_OutlineCircleDrawsTheReflections : good.cfg.layout.Legal ∧ good.fb.wf = true ∧
    (0 ≤ (0 : Half).toInt ∧ 0 ≤ (0x7FFF : Half).toInt) := by decide
theorem witness_FilledCircleDrawsTheSpans : good.cfg.layout.Legal ∧ good.fb.wf = true ∧
    (0 ≤ (0 : Half).toInt ∧ 0 ≤ (0x7FFF : Half).toInt) := by decide
/-- Radius 2 at (10, 10): a pixel of each clause, at its boundary. -/
theorem witness_FilledCircleCoversTheDisc : good.cfg.layout.Legal ∧ good.fb.wf = true ∧ 0 ≤ (2 : Half).toInt ∧
    (InPanel 11 10 ∧ 1 ≤ (2 : Half).toInt ∧ (11 - (10 : Half).toInt) ^ 2 + (10 - (10 : Half).toInt) ^ 2 ≤ ((2 : Half).toInt - 1) ^ 2) ∧
    (InPanel 13 11 ∧ ((2 : Half).toInt + 1) ^ 2 < (13 - (10 : Half).toInt) ^ 2 + (11 - (10 : Half).toInt) ^ 2) := by decide
/-- Radius 3 at (10, 10): the three clauses at `q` = 4, 16, 5. -/
theorem witness_CircleaaFixesInsideAndOutside : good.cfg.layout.Legal ∧ good.fb.wf = true ∧ good.cfg.hasAA = true ∧ 0 ≤ (3 : Half).toInt ∧
    (InPanel 12 10 ∧ (12 - (10 : Half).toInt) ^ 2 + (10 - (10 : Half).toInt) ^ 2 ≤ ((3 : Half).toInt - 1) ^ 2) ∧
    (InPanel 14 10 ∧ ((3 : Half).toInt + 1) ^ 2 ≤ (14 - (10 : Half).toInt) ^ 2 + (10 - (10 : Half).toInt) ^ 2) ∧
    (InPanel 12 11 ∧ (12 - (10 : Half).toInt) ^ 2 + (11 - (10 : Half).toInt) ^ 2 < ((3 : Half).toInt + 1) ^ 2) := by decide
/-- Each operand that rejects, at its boundary. -/
theorem witness_BadOperandsAreRejected : ((0xFFFF : Half).toInt < 0) ∧ ((0x8000 : Half).toInt < 0) ∧
    ({ cfgT with hasAA := false } : Config).hasAA = false ∧
    (∃ v ∈ ([0, 256, 0, 0] : List Half), v.toInt < 0 ∨ 255 < v.toInt) ∧
    (∃ v ∈ ([0, 0, 0, 0xFFFF] : List Half), v.toInt < 0 ∨ 255 < v.toInt) :=
  ⟨by decide, by decide, rfl, ⟨256, by decide, by decide⟩, ⟨0xFFFF, by decide, by decide⟩⟩
/-- The last place a glyph of scale 1 fits, turned by -90 degrees. -/
theorem witness_GlyphDrawsItsTurnedCell : good.cfg.layout.Legal ∧ good.fb.wf = true ∧ (1 : Byte) ≠ 0 ∧ (3 : Nat) < 4 ∧
    (0xFFA6 : Half).toInt % 360 = 90 * (3 : Nat) ∧ fontGlyph good.cfg 0x4C = some 0x4040404040407E00 ∧
    CellOnPanel (1 : Byte).toNat (292 : Half).toInt (392 : Half).toInt :=
  ⟨by decide, by decide, by decide, by decide, by decide, by decide, by unfold CellOnPanel; decide⟩
/-- Each way not to be drawn: absent; a box one column off at 45 degrees; scale 38; a cell one column off at a right angle. -/
theorem witness_GlyphThatDoesNotFitDrawsNothing : (1 : Byte) ≠ 0 ∧ fontGlyph good.cfg 0x7A = none ∧
    ¬ BoxOnPanel (bbox good.cfg ((45 : Half).toInt % 360).toNat (1 : Byte).toNat) (1 : Half).toInt (2 : Half).toInt ∧
    ((38 : Byte) ≠ 0 ∧ 38 ≤ (38 : Byte).toNat) ∧
    ((180 : Half).toInt % 90 = 0 ∧ ¬ CellOnPanel (1 : Byte).toNat (293 : Half).toInt (392 : Half).toInt) :=
  ⟨by decide, by decide, by decide +kernel, by decide, by decide, by unfold CellOnPanel; decide⟩
/-- A box just on the panel at 45 degrees, and one just off it. -/
theorem witness_GlyphIsDrawnWholeOrNotAtAll : good.cfg.layout.Legal ∧ good.fb.wf = true ∧ (1 : Byte) ≠ 0 ∧
    fontGlyph good.cfg 0x41 = some 0x1824427E42424200 ∧
    BoxOnPanel (bbox good.cfg ((45 : Half).toInt % 360).toNat (1 : Byte).toNat) (290 : Half).toInt (2 : Half).toInt ∧
    ¬ BoxOnPanel (bbox good.cfg ((45 : Half).toInt % 360).toNat (1 : Byte).toNat) (291 : Half).toInt (2 : Half).toInt := by decide +kernel
theorem witness_RightAnglesAreQuarterTurns : 7 < 8 * 1 ∧ 0 < 8 * 1 ∧ 3 < 4 := by decide
/-- V41 and, in reverse, V40: lines that need no wrap, one of them empty; and a line that ends in the last column. -/
theorem witness_TextLaysOutItsLines : good.cfg.layout.Legal ∧ good.fb.wf = true ∧ (2 : Byte) ≠ 0 ∧
    ([[0x41], [], [0x4C]] : List (List Byte)) ≠ [] ∧ (16 : Int) = 8 * (2 : Byte).toNat ∧ (19 : Int) = 16 + (3 : Byte).toNat ∧
    (∀ l ∈ ([[0x41, 0x4C], [], [0x4C]] : List (List Byte)), ∀ c ∈ l, c ≠ good.cfg.newline ∧ fontGlyph good.cfg c ≠ none) ∧
    (∀ l ∈ ([[0x41, 0x4C], [], [0x4C]] : List (List Byte)), ∀ k : Nat, k < l.length → (265 : Half).toInt + k * 19 + 16 ≤ 300) ∧
    (∀ l ∈ ([[0x41, 0x4C], [], [0x4C]] : List (List Byte)), ∀ k : Nat, k < l.length → 0 ≤ (35 : Half).toInt - k * 19 - 16) := by decide
/-- V39's lines, with an absent character and an empty line: at x = 280 the third cell of the first line wraps. -/
theorem witness_TextCellsKeepTheWrapRule : good.cfg.layout.Legal ∧ good.fb.wf = true ∧ (1 : Byte) ≠ 0 ∧
    ([[0x41, 0x7A, 0x4C, 0x41], [], [0x4C]] : List (List Byte)) ≠ [] ∧
    (∀ l ∈ ([[0x41, 0x7A, 0x4C, 0x41], [], [0x4C]] : List (List Byte)), good.cfg.newline ∉ l) ∧
    (8 : Int) = 8 * (1 : Byte).toNat ∧ (8 : Int) = 8 + good.cfg.lineGap ∧ (280 : Int) + 9 + 8 ≤ 300 ∧ ¬ ((289 : Int) + 9 + 8 ≤ 300) := by decide
/-- V39 and V43 meet the conditions of a line's cells. -/
theorem test_lineCells :
    LineCells cfgT 280 8 9 8 false [0x41, 0x7A, 0x4C, 0x41] 0 [⟨0x41, 280, 0⟩, ⟨0x4C, 289, 0⟩, ⟨0x41, 280, 8⟩] ∧
    LineCells cfgT 2 8 10 8 true [0x41, 0x41, 0x4C] 4 [⟨0x4C, 2, 4⟩, ⟨0x41, 2, 12⟩, ⟨0x41, 2, 20⟩] := by
  constructor <;> refine ⟨by decide, ?_, ?_⟩
  · rintro p ⟨⟩
    decide
  · rintro (_ | _ | _ | k) p q ⟨⟩ hq <;> cases hq <;> decide
  · rintro p ⟨⟩
    decide
  · rintro (_ | _ | _ | k) p q ⟨⟩ hq <;> cases hq <;> decide
theorem witness_RawBytesSendOneTransaction : NextDone 1 (from0 (dones 1)) := rfl
theorem witness_TogglesSendOneCommandAndTheirDelay : NextDone 1 (from0 (dones 1)) := rfl
theorem witness_SetwinSendsTheWindow : (∀ v ∈ ([0, 255, 0, 255] : List Half), 0 ≤ v.toInt ∧ v.toInt ≤ 255) ∧ NextDone 6 (from0 (dones 6)) := by
  refine ⟨?_, rfl⟩
  simp only [List.forall_mem_cons, List.not_mem_nil, false_implies, implies_true, and_true]
  decide
theorem witness_FlushStreamsTheBuffer : NextDone 8 (from0 (dones 8)) := rfl
theorem witness_FailedBurstLeavesItsBytes : 29999 < NB ∧ (from0 (dones 7 ++ [.fail 29999])).answers = List.replicate 7 .done ++ .fail 29999 :: [] :=
  ⟨by decide, rfl⟩
theorem witness_InitConfiguresClearsAndFlushes : NextDone (tableXfers cfgT.initTable + 8) (from0 (dones 12)) := rfl
/-- The last transaction of the table (3) and the first (4) and last (11) of the flush. -/
theorem witness_FailedInitKeepsThePowerMode : 3 < tableXfers cfgT.initTable + 8 ∧ 3 < tableXfers cfgT.initTable ∧
    tableXfers cfgT.initTable ≤ 4 ∧ 11 < tableXfers cfgT.initTable + 8 ∧
    (from0 (dones 11 ++ [.fail 0])).answers = List.replicate 11 .done ++ .fail 0 :: [] := ⟨by decide, by decide, by decide, by decide, rfl⟩
theorem witness_LpmEntersLowPower : (from0 (dones 4)).pm = .highPower ∧ NextDone (tableXfers cfgT.lpmTable + 1) (from0 (dones 4)) := ⟨rfl, rfl⟩
theorem witness_HpmEntersHighPower : ({ from0 (dones 4) with pm := .lowPower } : State).pm = .lowPower ∧
    NextDone (tableXfers cfgT.hpmTable + 1) { from0 (dones 4) with pm := .lowPower } := ⟨rfl, rfl⟩
theorem witness_PowerModeOperationsAreIdempotent : ({ good with pm := .lowPower } : State).pm = .lowPower ∧ good.pm = .highPower := by decide
theorem witness_FirstFailureEndsInBusfault : 7 < opXfers (from0 (dones 7 ++ [.fail 0])) .flush ∧ 0 < opXfers (from0 [.fail 0]) (.wrdata 0) ∧
    (from0 (dones 7 ++ [.fail 0])).answers = List.replicate 7 .done ++ .fail 0 :: [] ∧
    (from0 [.fail 0]).answers = List.replicate 0 .done ++ .fail 0 :: [] ∧ 0 < burstLength 0 (opEvents (from0 [.fail 0]) (.wrdata 0)) :=
  ⟨by decide, by decide, rfl, rfl, by decide⟩
/-- Where the events are cut off: V63, and a burst of three bytes that fails after two. -/
theorem test_cutAt : cutAt 0 0 (transaction .cmd [0x2C]) = [.dc .cmd, .cs .active] ∧
    cutAt 2 1 (transaction .cmd [0x2C] ++ [.delay 5] ++ transaction .data [1, 2, 3]) =
      transaction .cmd [0x2C] ++ [.delay 5, .dc .data, .cs .active, .byte 1, .byte 2] ∧
    burstLength 1 (transaction .cmd [0x2C] ++ [.delay 5] ++ transaction .data [1, 2, 3]) = 3 := by decide
theorem witness_StalledTransferHangsTheEngine : ((from0 [.stall 0]).present [0x3400]).engine = .idle ∧
    decode ((from0 [.stall 0]).present [0x3400]).hostIn = .ok .flush [] ∧ 0 < opXfers ((from0 [.stall 0]).present [0x3400]) .flush ∧
    ((from0 [.stall 0]).present [0x3400]).answers = List.replicate 0 .done ++ .stall 0 :: [] ∧
    0 < burstLength 0 (opEvents ((from0 [.stall 0]).present [0x3400]) .flush) := ⟨rfl, by decide, by decide, rfl, by decide +kernel⟩
theorem witness_DrawingNeverTouchesTheBus : drawingOp (.text [0x41] 0 0 3 1 0 0 false) = true ∧ drawingOp (.getpx 0 0) = true := by decide
theorem witness_RejectedOperationsHaveNoEffect : exec (.rect 5 5 (-1) 7 3 true) good = .next good.rejectOp ∧
    Completed .reject 0 good good.rejectOp :=
  ⟨by simp only [exec, execRect]; rw [if_pos (by decide)], completed_complete good .reject 0⟩
theorem witness_OnlyThreeOperationsChangeThePowerMode : ∃ t, exec .lpm (from0 (dones 4)) = .next t ∧ t.pm ≠ (from0 (dones 4)).pm :=
  ⟨_, rfl, by decide +kernel⟩
theorem witness_OnlyDrawingAndInitWriteTheBuffer : (drawingOp .flush = false ∧ Instr.flush ≠ .init) ∧
    (∃ t, exec .flush good = .next t) ∧ ∃ t, exec (.getpx 0 0) good = .next t := 
  ⟨by decide, (exec_ends _ _).imp fun _ h => h.1, (exec_ends _ _).imp fun _ h => h.1⟩
/-- A step that sets `FAULTED` (V63). -/
theorem witness_FaultedIsSticky : runs (from0 [.fail 0]) [0x302C] = true ∧ ((from0 [.fail 0]).present [0x302C]).faulted = false ∧
    (after (from0 [.fail 0]) [0x302C]).faulted = true := by decide +kernel
theorem witness_StepsOnlyAppend : runs (from0 (dones 1)) [0x302C] = true := by decide +kernel
/-- The invariant holds in a state from which an operation hangs, and the step to the hang is one it covers. -/
theorem witness_EveryStepKeepsTheInvariant : Inv ((from0 [.stall 0]).present [0x3400]) ∧ runs (from0 [.stall 0]) [0x3400] = true :=
  ⟨⟨rfl, by decide, rfl, fun _ => rfl, fun h => absurd rfl h, by decide, rfl, fun c hc => by cases hc⟩, by decide +kernel⟩

end Sys2Proof.Tests
end

section
/-! SUPPORT. The proofs of the statements about reset, the status byte and what a step keeps (spec 10_state.md R20 to R39). -/

namespace Sys2Proof.Machine

/-! ### The status byte (R28) -/

/-- Bits 1:0 are `LAST`'s code. -/
theorem statusByte_last (s : State) : (statusByte s).extractLsb' 0 2 = s.last.code :=
  BitVec.extractLsb'_append_eq_right

/-- Bit 2 is `FAULTED`. -/
theorem statusByte_faulted (s : State) : (statusByte s).getLsbD 2 = s.faulted := by
  simp only [statusByte, BitVec.getLsbD_append]
  simp

/-- Bit 3 is `PM`. -/
theorem statusByte_pm (s : State) : (statusByte s).getLsbD 3 = s.pm.code.getLsbD 0 := by
  simp only [statusByte, BitVec.getLsbD_append]
  simp

/-- Bits 7:4 are 0. -/
theorem statusByte_high (s : State) : (statusByte s).extractLsb' 4 4 = 0 := by
  ext i hi
  simp only [statusByte, BitVec.getElem_extractLsb', BitVec.getLsbD_append]
  rw [if_neg (by omega), if_neg (by omega), if_neg (by omega)]
  simp

/-- Settles O57, field by field. -/
theorem statusByteHasItsFields : Obligations.StatusByteHasItsFields := by
  intro s
  refine ⟨?_, statusByte_faulted s, ?_, statusByte_high s⟩
  · rw [statusByte_last]
    cases s.last <;> rfl
  · rw [statusByte_pm]
    cases s.pm <;> rfl

/-- A status byte with BUSFAULT only where `FAULTED` is set is one of those that can occur (R180). -/
theorem statusByte_mem_legal {s : State} (h : s.last = .busFault → s.faulted = true) :
    statusByte s ∈ legalStatusBytes := by
  unfold statusByte
  cases hl : s.last with
  | ok => cases s.pm <;> cases s.faulted <;> decide
  | reject => cases s.pm <;> cases s.faulted <;> decide
  | busFault =>
    rw [h hl]
    cases s.pm <;> decide

/-! ### Reset and the start of a step -/

/-- Settles O1: every value is the one the definitions of reset and of the reset input name. -/
theorem resetGivesTheSpecifiedValues : Obligations.ResetGivesTheSpecifiedValues := by
  refine ⟨rfl, ?_, fun s => rfl⟩
  rintro t (rfl | ⟨s, rfl⟩)
  · exact ⟨fun i => rfl, rfl, rfl, rfl, rfl, rfl, rfl, rfl⟩
  · exact ⟨fun i => rfl, rfl, rfl, rfl, rfl, rfl, rfl, rfl⟩

/-- Settles O2: the arm of `step` for an idle engine and a whole descriptor. -/
theorem stepRunsTheDecodedOperation : Obligations.StepRunsTheDecodedOperation := by
  intro s i rest he hd
  simp only [step, he, hd]
  rfl

/-- Settles O59: the lines are released, the trace and the records empty, and the decided layout is legal. -/
theorem invariantHoldsAtReset : Obligations.InvariantHoldsAtReset where
  fb := Memory.wf_reset
  layout := show Params.layout.Legal by decide
  rst := rfl
  idle _ := rfl
  hung h := absurd rfl h
  faulted h := nomatch h
  trace := rfl
  records c hc := nomatch hc

/-! ### What every step keeps on its way -/

/-- `u` continues `s`: nothing reported is withdrawn or added, `FAULTED` and the configuration are as they were, halfwords are taken from
the front, the trace only grows; a canonical buffer stays canonical; from released lines the trace is still a run of the protocol and the
reset line is released. -/
structure Continues (s u : State) : Prop where
  fb      : s.fb.wf = true → u.fb.wf = true
  faulted : u.faulted = s.faulted
  hostIn  : u.hostIn <:+ s.hostIn
  hostOut : u.hostOut = s.hostOut
  cfg     : u.cfg = s.cfg
  trace   : s.trace <+: u.trace
  scan    : s.cs = .inactive → s.rst = .released → scanFrom .released s.trace = some .released →
    scanFrom .released u.trace = some (linePhase u) ∧ u.rst = .released

/-- Only `FB` and the pending halfwords have changed. -/
theorem continues_of_fb_hostIn (s : State) {fb : Memory} {rest : List Half} (hw : s.fb.wf = true → fb.wf = true)
    (hr : rest <:+ s.hostIn) : Continues s { s with fb := fb, hostIn := rest } where
  fb := hw
  faulted := rfl
  hostIn := hr
  hostOut := rfl
  cfg := rfl
  trace := List.prefix_rfl
  scan hc hrst ht := ⟨by simpa [linePhase, hc] using ht, hrst⟩

theorem Continues.refl (s : State) : Continues s s := continues_of_fb_hostIn s id List.suffix_rfl

theorem Reached.continues {i : Instr} {s u : State} (h : Reached i s u) : Continues s u where
  fb hw := by
    rcases h.fb with e | ⟨-, e⟩ <;> rw [e]
    · exact hw
    · rfl
  faulted := h.side.faulted
  hostIn := by rw [h.side.hostIn]
  hostOut := h.side.hostOut
  cfg := h.side.cfg
  trace := h.trace
  scan := h.scan

/-- The power mode is no part of it. -/
theorem Continues.withPm {s u : State} (h : Continues s u) (p : PowerMode) : Continues s (u.withPm p) :=
  ⟨h.fb, h.faulted, h.hostIn, h.hostOut, h.cfg, h.trace, h.scan⟩

theorem Continues.finish {s u : State} {i : Instr} {f : State → State} (h : Continues s u) (hf : Finish i f) :
    Continues s (f u) := by
  rcases hf.eq u with e | ⟨p, e⟩ <;> rw [e]
  · exact h
  · exact h.withPm p

/-- What continues the state that has accepted an operation continues the state before. -/
theorem Continues.of_accept {s u : State} {i : Instr} {rest : List Half} (h : Continues (s.accept i rest) u)
    (hr : rest <:+ s.hostIn) : Continues s u :=
  ⟨h.fb, h.faulted, h.hostIn.trans hr, h.hostOut, h.cfg, h.trace, h.scan⟩

theorem Finish.cs {i : Instr} {f : State → State} (h : Finish i f) (u : State) : (f u).cs = u.cs := by
  rcases h.eq u with e | ⟨p, e⟩ <;> rw [e]
  rfl

/-- A protocol operation that has not completed hangs (R186). -/
theorem Reached.hung {i : Instr} {s t : State} (h : Reached i s t) (hc : t.cs = .active) : Hung s t :=
  ⟨h.side.last, h.side.faulted, h.side.engine, h.side.hostOut, hc⟩

/-- An operation completes once, after effects that continue the state it began in, with chip-select released; or it hangs. -/
theorem Ends.completes_or_hangs {i : Instr} {s t : State} (h : Ends i s t) :
    (∃ u st v, t = u.complete st v ∧ Continues s u ∧ (s.cs = .inactive → u.cs = .inactive)) ∨
      (Hung s t ∧ Continues s t) := by
  cases h with
  | drew fb v hd hm hv hw hg ht => exact .inl ⟨_, _, _, ht, continues_of_fb_hostIn s hw List.suffix_rfl, id⟩
  | rejected hm ht => exact .inl ⟨s, _, _, ht, .refl s, id⟩
  | idempotent hp ht => exact .inl ⟨s, _, _, ht, .refl s, id⟩
  | sent u f hd hm hr hc hf ht =>
    exact .inl ⟨f u, _, _, ht, hr.continues.finish hf, fun hs => (hf.cs u).trans (hc hs)⟩
  | failed u hd hm hr hc ht => exact .inl ⟨u, _, _, ht, hr.continues, fun _ => hc⟩
  | hung hd hr hc => exact .inr ⟨hr.hung hc, hr.continues⟩

/-- A step waits; or it completes an operation or rejects a descriptor, after effects that continue the state it began in; or the
operation it began hangs. -/
theorem step_completes_or_hangs {s t : State} (h : step s = .next t) :
    s.engine = .idle ∧ (t = s ∨
      (∃ u st v, t = u.complete st v ∧ Continues s u ∧ (s.cs = .inactive → u.cs = .inactive)) ∨
      (Continues s t ∧ t.last = s.last ∧ t.engine ≠ .idle ∧ t.cs = .active)) := by
  obtain ⟨he, ht | ⟨rest, hr, ht⟩ | ⟨i, rest, -, hr, hi⟩⟩ := step_cases h
  · exact ⟨he, .inl ht⟩
  · exact ⟨he, .inr (.inl ⟨s.withHostIn rest, _, _, ht, continues_of_fb_hostIn s id hr, id⟩)⟩
  · rcases hi.completes_or_hangs with ⟨u, st, v, ht, hu, hc⟩ | ⟨hh, hu⟩
    · exact ⟨he, .inr (.inl ⟨u, st, v, ht, hu.of_accept hr, hc⟩)⟩
    · refine ⟨he, .inr (.inr ⟨hu.of_accept hr, hh.last, ?_, hh.cs⟩)⟩
      rw [hh.engine]
      exact Engine.noConfusion

/-! ### The invariant (R29, R40, R167, R180, R186) -/

/-- What a state of the invariant whose lines are released hands on to every state that continues it. -/
theorem Continues.keeps {s u : State} (h : Continues s u) (hs : Inv s) (hc : s.cs = .inactive) :
    u.fb.wf = true ∧ u.cfg.layout.Legal ∧ u.rst = .released ∧ scanFrom .released u.trace = some (linePhase u) ∧
      ∀ c ∈ u.hostOut, c.status ∈ legalStatusBytes := by
  have ht : scanFrom .released s.trace = some .released := by rw [hs.trace, linePhase, hc]
  obtain ⟨hscan, hrst⟩ := h.scan hc hs.rst ht
  refine ⟨h.fb hs.fb, ?_, hrst, hscan, ?_⟩
  · rw [h.cfg]
    exact hs.layout
  · rw [h.hostOut]
    exact hs.records

/-- A completion with released lines meets the invariant. -/
theorem Continues.inv_complete {s u : State} (h : Continues s u) (hs : Inv s) (hsc : s.cs = .inactive) (huc : u.cs = .inactive)
    (st : Status) (v : Gray) : Inv (u.complete st v) := by
  obtain ⟨hfb, hlay, hrst, hscan, hrec⟩ := h.keeps hs hsc
  have hfault : (u.complete st v).last = .busFault → (u.complete st v).faulted = true := by
    intro hl
    rw [State.complete_last] at hl
    simp [faultedAfter, hl]
  refine ⟨hfb, hlay, hrst, fun _ => huc, fun hne => absurd rfl hne, hfault, hscan, ?_⟩
  intro c hmem
  rw [State.complete_hostOut, List.mem_append, List.mem_singleton] at hmem
  rcases hmem with hold | rfl
  · exact hrec c hold
  · exact statusByte_mem_legal hfault

/-- An operation that hangs leaves a state of the invariant. -/
theorem Continues.inv_hung {s t : State} (h : Continues s t) (hs : Inv s) (hsc : s.cs = .inactive) (hl : t.last = s.last)
    (he : t.engine ≠ .idle) (hc : t.cs = .active) : Inv t := by
  obtain ⟨hfb, hlay, hrst, hscan, hrec⟩ := h.keeps hs hsc
  refine ⟨hfb, hlay, hrst, fun hi => absurd hi he, fun _ => hc, ?_, hscan, hrec⟩
  rw [hl, h.faulted]
  exact hs.faulted

/-- Settles O60: a step waits, completes after effects that keep the invariant's parts, or hangs with chip-select active. -/
theorem everyStepKeepsTheInvariant : Obligations.EveryStepKeepsTheInvariant := by
  intro s t hs h
  obtain ⟨he, rfl | ⟨u, st, v, rfl, hu, hc⟩ | ⟨hu, hl, hne, hc⟩⟩ := step_completes_or_hangs h
  · exact hs
  · exact hu.inv_complete hs (hs.idle he) (hc (hs.idle he)) st v
  · exact hu.inv_hung hs (hs.idle he) hl hne hc

/-! ### `FAULTED`, the trace and the records over a step -/

/-- A step leaves `FAULTED`, or it ends with BUSFAULT and the flag set (R27). -/
theorem step_faulted {s t : State} (h : step s = .next t) :
    t.faulted = s.faulted ∨ (t.faulted = true ∧ t.last = .busFault) := by
  obtain ⟨-, rfl | ⟨u, st, v, rfl, hu, -⟩ | ⟨hu, -⟩⟩ := step_completes_or_hangs h
  · exact .inl rfl
  · by_cases hst : st = .busFault
    · exact .inr ⟨by simp [faultedAfter, hst], hst⟩
    · exact .inl (by simp [faultedAfter, hst, hu.faulted])
  · exact .inl hu.faulted

/-- Settles O55: a step leaves the flag or ends with BUSFAULT. -/
theorem faultedIsSticky : Obligations.FaultedIsSticky := by
  intro s t h
  rcases step_faulted h with hkept | ⟨hset, hlast⟩
  · rw [hkept]
    exact ⟨id, fun hclear hset => by simp [hclear] at hset⟩
  · exact ⟨fun _ => hset, fun _ _ => hlast⟩

/-- Settles O58: the effects of an operation continue the state, and a completion adds one record. -/
theorem stepsOnlyAppend : Obligations.StepsOnlyAppend := by
  intro s t h
  obtain ⟨-, rfl | ⟨u, st, v, rfl, hu, -⟩ | ⟨hu, -⟩⟩ := step_completes_or_hangs h
  · exact ⟨List.prefix_rfl, List.prefix_rfl, List.suffix_rfl, rfl⟩
  · refine ⟨hu.trace, ?_, hu.hostIn, hu.cfg⟩
    rw [State.complete_hostOut, hu.hostOut]
    exact List.prefix_append _ _
  · exact ⟨hu.trace, by rw [hu.hostOut], hu.hostIn, hu.cfg⟩

/-! ### Who writes `PM` and `FB` -/

/-- The inversion of `exec` for an answer already given. -/
theorem ends_of_exec {i : Instr} {s t : State} (h : exec i s = .next t) : Ends i s t := by
  obtain ⟨t', h', hend⟩ := exec_ends i s
  rw [h] at h'
  cases h'
  exact hend

/-- A protocol operation that completes after what it has reached completes with regard to the state it began in. -/
theorem Reached.completed {i : Instr} {s u : State} {f : State → State} (h : Reached i s u) (hf : Finish i f) (st : Status)
    (v : Gray) : Completed st v s ((f u).complete st v) := by
  have hu := h.continues.finish hf
  refine ⟨rfl, ?_, rfl, ?_⟩
  · rw [State.complete_faulted, faultedAfter, hu.faulted]
  · rw [State.complete_hostOut, hu.hostOut]

/-- Settles O53: `PM` is written by a finish only, and the finish is the operation's own. -/
theorem onlyThreeOperationsChangeThePowerMode : Obligations.OnlyThreeOperationsChangeThePowerMode := by
  intro i s t h hne
  cases ends_of_exec h with
  | drew fb v hd hm hv hw hg ht => exact absurd (congrArg State.pm ht) hne
  | rejected hm ht => exact absurd (congrArg State.pm ht) hne
  | idempotent hp ht => exact absurd (congrArg State.pm ht) hne
  | failed u hd hm hr hc ht => exact absurd ((congrArg State.pm ht).trans hr.side.pm) hne
  | hung hd hr hc => exact absurd hr.side.pm hne
  | sent u f hd hm hr hc hf ht =>
    subst ht
    refine ⟨hr.completed hf .ok 0, ?_⟩
    rcases hf with rfl | ⟨hi, rfl⟩ | ⟨hi, rfl⟩ | ⟨hi, rfl⟩
    · exact absurd hr.side.pm hne
    · exact .inl ⟨hi, rfl⟩
    · exact .inr (.inl ⟨hi, rfl⟩)
    · exact .inr (.inr ⟨hi, rfl⟩)

/-- Outside INIT a protocol operation reaches states with the buffer as it was. -/
theorem Reached.fb_eq {i : Instr} {s u : State} (h : Reached i s u) (hi : i ≠ .init) : u.fb = s.fb :=
  h.fb.resolve_right fun e => hi e.1

theorem Finish.fb {i : Instr} {f : State → State} (h : Finish i f) (u : State) : (f u).fb = u.fb := by
  rcases h.eq u with e | ⟨p, e⟩ <;> rw [e]
  rfl

/-- Settles O54: outside INIT and the drawing operations every end leaves `FB`, and GETPX draws the buffer it found. -/
theorem onlyDrawingAndInitWriteTheBuffer : Obligations.OnlyDrawingAndInitWriteTheBuffer := by
  intro i s t hop h
  have hi : i ≠ .init := by
    rintro rfl
    rcases hop with ⟨-, hne⟩ | ⟨x, y, e⟩
    · exact hne rfl
    · cases e
  cases ends_of_exec h with
  | drew fb v hd hm hv hw hg ht =>
    have hget : ∃ x y, i = .getpx x y := hop.resolve_left fun e => by simp [hd] at e
    exact (congrArg State.fb ht).trans (hg hget)
  | rejected hm ht => rw [ht, State.rejectOp, State.complete_fb]
  | idempotent hp ht => rw [ht, State.complete_fb]
  | sent u f hd hm hr hc hf ht => exact ((congrArg State.fb ht).trans (hf.fb u)).trans (hr.fb_eq hi)
  | failed u hd hm hr hc ht => exact (congrArg State.fb ht).trans (hr.fb_eq hi)
  | hung hd hr hc => exact hr.fb_eq hi

/-! ### `FAULTED` gates nothing (R27) -/

/-- `FAULTED` with the value `b`. -/
def State.withFaulted (s : State) (b : Bool) : State := { s with faulted := b }

/-- The same for the state a run has got to. -/
def Ran.withFaulted : Ran → Bool → Ran
  | .done s, b => .done (s.withFaulted b)
  | .failed s, b => .failed (s.withFaulted b)
  | .stalled s, b => .stalled (s.withFaulted b)

/-- The states agree in every field but `FAULTED` and the status bytes of the records. -/
structure AgreeButFaulted (t u : State) : Prop where
  fb      : u.fb = t.fb
  pm      : u.pm = t.pm
  last    : u.last = t.last
  cs      : u.cs = t.cs
  dc      : u.dc = t.dc
  rst     : u.rst = t.rst
  trace   : u.trace = t.trace
  engine  : u.engine = t.engine
  hostIn  : u.hostIn = t.hostIn
  answers : u.answers = t.answers
  free    : u.free = t.free
  cfg     : u.cfg = t.cfg
  values  : u.hostOut.map (fun c => c.value) = t.hostOut.map (fun c => c.value)

theorem agree_withFaulted (s : State) (b : Bool) : AgreeButFaulted s (s.withFaulted b) :=
  ⟨rfl, rfl, rfl, rfl, rfl, rfl, rfl, rfl, rfl, rfl, rfl, rfl, rfl⟩

/-- A completion does not read the flag but for the status byte. -/
theorem agree_complete (s : State) (b : Bool) (st : Status) (v : Gray) :
    AgreeButFaulted (s.complete st v) ((s.withFaulted b).complete st v) := by
  refine ⟨rfl, rfl, rfl, rfl, rfl, rfl, rfl, rfl, rfl, rfl, rfl, rfl, ?_⟩
  simp [State.withFaulted]

theorem takeAnswer_withFaulted (s : State) (b : Bool) : (s.withFaulted b).takeAnswer = s.takeAnswer.withFaulted b := by
  have ha : (s.withFaulted b).answers = s.answers := rfl
  unfold State.takeAnswer
  rw [ha]
  cases s.answers <;> rfl

/-- A transaction does not read the flag. -/
theorem busXfer_withFaulted (k : BusKind) (bytes : List Byte) (s : State) (b : Bool) :
    busXfer k bytes (s.withFaulted b) = (busXfer k bytes s).withFaulted b := by
  have hn : nextAnswer ((s.withFaulted b).select k) = nextAnswer (s.select k) := rfl
  have ht : ((s.withFaulted b).select k).takeAnswer = ((s.select k).takeAnswer).withFaulted b := takeAnswer_withFaulted (s.select k) b
  simp only [busXfer, hn, ht]
  cases nextAnswer (s.select k) <;> rfl

theorem runAct_withFaulted (a : BusAct) (s : State) (b : Bool) : runAct a (s.withFaulted b) = (runAct a s).withFaulted b := by
  cases a with
  | xfer k bytes => exact busXfer_withFaulted k bytes s b
  | delay t => simp only [runAct, busDelay_eq]; rfl
  | rst a => rfl

/-- If what is done next does not read the flag, nor does the whole. -/
theorem Ran.andThen_withFaulted (r : Ran) (g : State → Ran) (b : Bool) (h : ∀ u, g (u.withFaulted b) = (g u).withFaulted b) :
    (r.withFaulted b).andThen g = (r.andThen g).withFaulted b := by
  cases r with
  | done u => exact h u
  | failed u => rfl
  | stalled u => rfl

/-- A run of requests does not read the flag. -/
theorem runActs_withFaulted (as : List BusAct) (s : State) (b : Bool) :
    runActs as (s.withFaulted b) = (runActs as s).withFaulted b := by
  induction as generalizing s with
  | nil => rfl
  | cons a as ih =>
    simp only [runActs, runAct_withFaulted]
    exact Ran.andThen_withFaulted _ _ b ih

/-- The end of a protocol operation does not read the flag but for the status byte. -/
theorem agree_conclude {f : State → State} {b : Bool} (hf : ∀ u, f (u.withFaulted b) = (f u).withFaulted b) (r : Ran) :
    AgreeButFaulted (r.conclude f) ((r.withFaulted b).conclude f) := by
  cases r with
  | done u =>
    simp only [Ran.withFaulted, Ran.conclude, hf]
    exact agree_complete (f u) b .ok 0
  | failed u => exact agree_complete u b .busFault 0
  | stalled u => exact agree_withFaulted u b

/-- A protocol operation made of one run does not read the flag but for the status byte. -/
theorem agree_runActs {f : State → State} {b : Bool} (hf : ∀ u, f (u.withFaulted b) = (f u).withFaulted b)
    (as : List BusAct) (s : State) :
    AgreeButFaulted ((runActs as s).conclude f) ((runActs as (s.withFaulted b)).conclude f) := by
  rw [runActs_withFaulted]
  exact agree_conclude hf _

theorem clearAndFlush_withFaulted (s : State) (b : Bool) : clearAndFlush (s.withFaulted b) = (clearAndFlush s).withFaulted b :=
  runActs_withFaulted _ (s.withFb (Memory.fill 0x00)) b

theorem agree_rejectOp (s : State) (b : Bool) : AgreeButFaulted s.rejectOp (s.withFaulted b).rejectOp :=
  agree_complete s b .reject 0

theorem agree_draw (s : State) (b : Bool) (ps : List Plot) : AgreeButFaulted (s.draw ps) ((s.withFaulted b).draw ps) :=
  agree_complete (s.withFb (plotAll s.cfg.layout ps s.fb)) b .ok 0

/-- A test that does not read the flag takes the same branch in both states. -/
theorem agree_ite {c : Prop} [Decidable c] {t t' u u' : State} (h : AgreeButFaulted t u) (h' : AgreeButFaulted t' u') :
    AgreeButFaulted (if c then t else t') (if c then u else u') := by
  split
  · exact h
  · exact h'

/-- Every operation answers next states that agree but for the flag and the status bytes, whatever the flag was. -/
theorem exec_agree (i : Instr) (s : State) (b : Bool) :
    ∃ t u, exec i s = .next t ∧ exec i (s.withFaulted b) = .next u ∧ AgreeButFaulted t u := by
  cases i with
  | setpx x y g => exact ⟨_, _, rfl, rfl, agree_draw s b _⟩
  | getpx x y => exact ⟨_, _, rfl, rfl, agree_complete s b .ok _⟩
  | fill g => exact ⟨_, _, rfl, rfl, agree_complete (s.withFb _) b .ok 0⟩
  | line x1 y1 x2 y2 g => exact ⟨_, _, rfl, rfl, agree_draw s b _⟩
  | rect x y w h g f =>
    exact ⟨_, _, rfl, rfl, agree_ite (agree_rejectOp s b) (agree_ite (agree_complete s b .ok 0) (agree_draw s b _))⟩
  | circle x0 y0 r g f => exact ⟨_, _, rfl, rfl, agree_ite (agree_rejectOp s b) (agree_draw s b _)⟩
  | circleaa x0 y0 r g =>
    exact ⟨_, _, rfl, rfl, agree_ite (agree_rejectOp s b) (agree_ite (agree_rejectOp s b) (agree_draw s b _))⟩
  | glyph ch x y g scale angle => exact ⟨_, _, rfl, rfl, agree_ite (agree_rejectOp s b) (agree_draw s b _)⟩
  | text chars x y g scale spacing angle f => exact ⟨_, _, rfl, rfl, agree_ite (agree_rejectOp s b) (agree_draw s b _)⟩
  | wrcmd imm8 => exact ⟨_, _, rfl, rfl, agree_runActs (fun _ => rfl) _ s⟩
  | wrdata imm8 => exact ⟨_, _, rfl, rfl, agree_runActs (fun _ => rfl) _ s⟩
  | init =>
    refine ⟨_, _, rfl, rfl, ?_⟩
    rw [runActs_withFaulted, Ran.andThen_withFaulted _ _ b (fun u => clearAndFlush_withFaulted u b)]
    exact agree_conclude (fun _ => rfl) _
  | setwin cs ce rs re => exact ⟨_, _, rfl, rfl, agree_ite (agree_rejectOp s b) (agree_runActs (fun _ => rfl) _ s)⟩
  | flush => exact ⟨_, _, rfl, rfl, agree_runActs (fun _ => rfl) _ s⟩
  | lpm =>
    exact ⟨_, _, rfl, rfl, agree_ite (agree_complete s b .ok 0) (agree_runActs (fun _ => rfl) _ s)⟩
  | hpm =>
    exact ⟨_, _, rfl, rfl, agree_ite (agree_complete s b .ok 0) (agree_runActs (fun _ => rfl) _ s)⟩
  | sleep f => exact ⟨_, _, rfl, rfl, agree_runActs (fun _ => rfl) _ s⟩
  | dispon f => exact ⟨_, _, rfl, rfl, agree_runActs (fun _ => rfl) _ s⟩
  | invert f => exact ⟨_, _, rfl, rfl, agree_runActs (fun _ => rfl) _ s⟩

/-- Settles O56: no request, test or write of an operation reads the flag. -/
theorem faultedGatesNothing : Obligations.FaultedGatesNothing := by
  intro i s b
  obtain ⟨t, u, ht, hu, h⟩ := exec_agree i s b
  exact ⟨t, u, ht, hu, h.fb, h.pm, h.last, h.cs, h.dc, h.rst, h.trace, h.engine, h.hostIn, h.answers, h.free, h.cfg, h.values⟩

end Sys2Proof.Machine
end

section
/-! SUPPORT. The proofs of the statements about the pixel codec, the pixel-write primitive and idempotency (spec 20_memory.md R41 to R52). -/

namespace Sys2Proof.Machine

/-! ### The decided layout (R42) -/

/-- The field of `(x, y)` under the decided layout: `hi = 7 - 2·s` and `lo = 6 - 2·s` with `s = 2·(y mod 2) + x mod 2`. -/
theorem fieldOf_decided (x y : Int) :
    ((fieldOf Params.layout x y).hi.val : Int) = 7 - 2 * (2 * (y % 2) + x % 2) ∧
      ((fieldOf Params.layout x y).lo.val : Int) = 6 - 2 * (2 * (y % 2) + x % 2) := by
  rcases Int.emod_two_eq x with hx | hx <;> rcases Int.emod_two_eq y with hy | hy <;>
    simp [fieldOf, Params.layout, hx, hy]

/-- Settles O10: the eight positions are distinct, and each of the four sub-pixels has the table's field. -/
theorem decidedLayoutIsTheTable : Obligations.DecidedLayoutIsTheTable :=
  ⟨by decide, fieldOf_decided⟩

/-! ### `PACK4` and `UNPACK` (R46) -/

/-- `UNPACK` reads each of the four fields of `PACK4(g)` as `g`. -/
theorem unpack_pack4 {L : Layout} (hL : L.Legal) (g : Gray) : unpack L (pack4 L g) = [g, g, g, g] := by
  have h00 : getField L.p00 (pack4 L g) = g := getField_pack4 hL g 0 0
  have h10 : getField L.p10 (pack4 L g) = g := getField_pack4 hL g 1 0
  have h01 : getField L.p01 (pack4 L g) = g := getField_pack4 hL g 0 1
  have h11 : getField L.p11 (pack4 L g) = g := getField_pack4 hL g 1 1
  rw [unpack, h00, h10, h01, h11]

/-- A byte that reads `g` in every field, wherever the field lies, is `PACK4(g)`. -/
theorem pack4_eq_of_getField {L : Layout} (hL : L.Legal) {g : Gray} {b : Byte} (h : ∀ p, getField p b = g) :
    pack4 L g = b :=
  byte_ext_of_fields hL (by rw [unpack_pack4 hL, unpack, h, h, h, h])

theorem getField_zero (p : FieldPos) : getField p 0x00 = 0 := by
  rw [gray_eq_iff, getField_bit0, getField_bit1]
  simp

theorem getField_allOnes (p : FieldPos) : getField p 0xFF = 3 := by
  have h (i : Fin 8) : (0xFF : Byte).getLsbD i = true := by revert i; decide
  rw [gray_eq_iff, getField_bit0, getField_bit1, h, h]
  decide

/-- Settles O11: a byte is its four fields, and all those of `PACK4(g)` hold `g`. -/
theorem packedByteHoldsOneLevelInAllFields : Obligations.PackedByteHoldsOneLevelInAllFields :=
  ⟨fun _ hL => ⟨pack4_eq_of_getField hL getField_zero, pack4_eq_of_getField hL getField_allOnes, unpack_pack4 hL⟩,
    by decide, by decide⟩

/-! ### The bits a pixel write sets (R44) -/

/-- A field written: `hi` is bit 1 of the level, `lo` bit 0, every other bit as it was. -/
theorem getLsbD_setField {p : FieldPos} (hp : p.hi ≠ p.lo) (g : Gray) (b : Byte) (k : Fin 8) :
    (setField p g b).getLsbD k = if k = p.hi then g.getLsbD 1 else if k = p.lo then g.getLsbD 0 else b.getLsbD k := by
  rw [setField, getLsbD_setBit, getLsbD_setBit]
  by_cases hlo : k = p.lo
  · subst hlo
    rw [if_pos rfl, if_neg hp.symm, if_pos rfl]
  · rw [if_neg (Ne.symm hlo), if_neg hlo]
    simp only [eq_comm (a := p.hi)]

/-- Where the two bits of a field are neighbours, writing it masks them out and ors the level in. -/
theorem setField_of_adjacent {p : FieldPos} (hp : p.hi.val = p.lo.val + 1) (g : Gray) (b : Byte) :
    setField p g b = (b &&& ~~~ ((3#8) <<< p.lo.val)) ||| ((g.setWidth 8 : Byte) <<< p.lo.val) := by
  have hmask (n : Nat) : (3#8).getLsbD n = decide (n < 2) := by
    rw [show (3#8) = (BitVec.allOnes 2).setWidth 8 from rfl, BitVec.getLsbD_setWidth, BitVec.getLsbD_allOnes]
    grind
  have hne : p.hi ≠ p.lo := fun h => by omega
  apply BitVec.eq_of_getLsbD_eq
  intro k hk
  have hbit := getLsbD_setField hne g b ⟨k, hk⟩
  simp only [Fin.ext_iff, hp] at hbit
  rw [hbit]
  simp only [BitVec.getLsbD_or, BitVec.getLsbD_and, BitVec.getLsbD_not, BitVec.getLsbD_shiftLeft, BitVec.getLsbD_setWidth, hmask]
  grind

/-- The byte of the pixel after the pixel write. -/
theorem read_pixWrite_same (L : Layout) {x y : Int} (hp : InPanel x y) (g : Gray) {m : Memory} (hm : m.wf = true) {i : Fin NB}
    (hi : byteIndex x y = i.val) : (pixWrite L x y g m).read i = setField (fieldOf L x y) g (m.read i) := by
  obtain rfl : pixelByte hp = i := Fin.ext hi
  rw [pixWrite, dif_pos hp, Memory.read_write _ _ _ _ hm, if_pos rfl]

/-- Settles O12: the write is clipped, changes one byte, and of it one field. -/
theorem pixelWriteSetsItsTwoBits : Obligations.PixelWriteSetsItsTwoBits := by
  intro L m x y g hL hm
  refine ⟨fun hoff => pixWrite_off hoff g m, fun hp i => ?_⟩
  have hindex : (byteIndex x y : Int) = y / 2 * 150 + x / 2 := by
    unfold byteIndex
    unfold InPanel at hp
    omega
  refine ⟨fun hother => read_pixWrite_other L x y g hm i fun _ => by omega, fun hsame => ?_⟩
  rw [read_pixWrite_same L hp g hm (by omega)]
  refine ⟨getLsbD_setField (fieldOf_hi_ne_lo hL x y) g _, ?_⟩
  rintro rfl lo hlo
  obtain ⟨hhi, hlo'⟩ := fieldOf_decided x y
  obtain rfl : (fieldOf Params.layout x y).lo.val = lo := by omega
  exact setField_of_adjacent (by omega) g _

/-- Settles O13: a pixel read after a pixel write elsewhere reads the old level. -/
theorem fieldsAreIndependent : Obligations.FieldsAreIndependent := by
  intro L m x y g hL hm
  refine ⟨fun _ x' y' hp' hne => ?_, fun hoff => pixWrite_off hoff g m⟩
  rw [pixRead_pixWrite hL hm x y g hp', if_neg]
  rintro ⟨rfl, rfl⟩
  exact hne rfl

/-- GETPX completes with the level of its pixel (R101). -/
theorem exec_getpx (x y : Half) (s : State) :
    exec (.getpx x y) s = .next (s.complete .ok (levelAt s x.toInt y.toInt)) := rfl

/-- The pixel SETPX names has the level after it (R100). -/
theorem levelAt_draw_pixel {s : State} (hL : s.cfg.layout.Legal) (hm : s.fb.wf = true) {x y : Int} (hp : InPanel x y) (g : Gray) :
    levelAt (s.draw [⟨x, y, g⟩]) x y = g :=
  (pixRead_pixWrite hL hm x y g hp).trans (if_pos ⟨rfl, rfl⟩)

/-- Settles O17: GETPX reads the buffer SETPX left, in which the pixel has the level. -/
theorem getpxAfterSetpxReturnsTheLevel : Obligations.GetpxAfterSetpxReturnsTheLevel := by
  intro s x y g hL hm hp
  have hget := exec_getpx x y (s.draw [⟨x.toInt, y.toInt, g⟩])
  rw [levelAt_draw_pixel hL hm hp] at hget
  exact ⟨_, _, rfl, hget, completed_complete _ .ok g, rfl⟩

/-! ### Idempotency (R52) -/

/-- `f`, what an operation does, keeps the configuration of `s`, and done again leaves the buffer as the first time left it. -/
structure DrawsOnce (f : State → State) (s : State) : Prop where
  cfg   : (f s).cfg = s.cfg
  again : (f (f s)).fb = (f s).fb

/-- A completion alone draws nothing. -/
theorem DrawsOnce.complete (s : State) (st : Status) (v : State → Gray) : DrawsOnce (fun u => u.complete st (v u)) s :=
  ⟨rfl, rfl⟩

theorem DrawsOnce.rejectOp (s : State) : DrawsOnce (fun u => u.rejectOp) s := .complete s .reject fun _ => 0

/-- Pixel writes that the drawing itself does not alter. -/
theorem DrawsOnce.draw {s : State} (hL : s.cfg.layout.Legal) (hm : s.fb.wf = true) (ps : State → List Plot)
    (hps : ps (s.draw (ps s)) = ps s) : DrawsOnce (fun u => u.draw (ps u)) s where
  cfg := rfl
  again := by
    rw [hps]
    exact plotAll_idem hL (ps s) hm

/-- A test of the configuration goes the same way the second time. -/
theorem DrawsOnce.ite {f g : State → State} {s : State} (c : State → Prop) [∀ u, Decidable (c u)]
    (hc : ∀ u, u.cfg = s.cfg → (c u ↔ c s)) (hf : DrawsOnce f s) (hg : DrawsOnce g s) :
    DrawsOnce (fun u => if c u then f u else g u) s := by
  by_cases h : c s
  · have hagain : c (f s) := (hc _ hf.cfg).mpr h
    constructor <;> simp only [if_pos h, if_pos hagain]
    exacts [hf.cfg, hf.again]
  · have hagain : ¬ c (g s) := fun h' => h ((hc _ hg.cfg).mp h')
    constructor <;> simp only [if_neg h, if_neg hagain]
    exacts [hg.cfg, hg.again]

/-- Every drawing operation answers what a function that draws once makes of the state. -/
theorem exec_drawsOnce {i : Instr} (hi : drawingOp i = true) {s : State} (hL : s.cfg.layout.Legal) (hm : s.fb.wf = true) :
    ∃ f : State → State, (∀ u, exec i u = .next (f u)) ∧ DrawsOnce f s := by
  cases i with
  | setpx x y g => exact ⟨_, fun _ => rfl, .draw hL hm _ rfl⟩
  | getpx x y => exact ⟨_, fun _ => rfl, .complete s .ok _⟩
  | fill g => exact ⟨_, fun _ => rfl, rfl, rfl⟩
  | line x1 y1 x2 y2 g => exact ⟨_, fun _ => rfl, .draw hL hm _ rfl⟩
  | rect x y w h g f =>
    exact ⟨_, fun _ => rfl, .ite _ (fun _ _ => .rfl) (.rejectOp s)
      (.ite _ (fun _ _ => .rfl) (.complete s .ok _) (.draw hL hm _ rfl))⟩
  | circle x0 y0 r g f => exact ⟨_, fun _ => rfl, .ite _ (fun _ _ => .rfl) (.rejectOp s) (.draw hL hm _ rfl)⟩
  | circleaa x0 y0 r g =>
    exact ⟨_, fun _ => rfl, .ite _ (fun _ hu => by rw [hu]) (.rejectOp s)
      (.ite _ (fun _ _ => .rfl) (.rejectOp s) (.draw hL hm _ rfl))⟩
  | glyph ch x y g scale angle => exact ⟨_, fun _ => rfl, .ite _ (fun _ _ => .rfl) (.rejectOp s) (.draw hL hm _ rfl)⟩
  | text chars x y g scale spacing angle f =>
    exact ⟨_, fun _ => rfl, .ite _ (fun _ _ => .rfl) (.rejectOp s) (.draw hL hm _ rfl)⟩
  | wrcmd | wrdata | init | setwin | flush | lpm | hpm | sleep | dispon | invert => exact Bool.noConfusion hi

/-- Settles O19: the operation is a function that draws once, applied twice. -/
theorem drawingTwiceIsDrawingOnce : Obligations.DrawingTwiceIsDrawingOnce := by
  intro s t i hL hm hi h
  obtain ⟨f, hexec, hf⟩ := exec_drawsOnce hi hL hm
  obtain rfl : f s = t := by
    rw [hexec] at h
    exact Host.Outcome.next.inj h
  exact ⟨_, hexec _, hf.again⟩

end Sys2Proof.Machine
end

section
/-! SUPPORT. The proofs of the statements about descriptors: what the decoder answers for a whole, a partial and an illegal descriptor, and
the round trip with the encoder in both directions (spec 30_encoding.md R70 to R88). -/

namespace Sys2Proof

/-! ### The row and the length (R81, R83) -/

/-- An opcode has no row exactly where the table does not list it (R84). -/
theorem rowOf_eq_none_iff (op : Byte) : rowOf op = none ↔ op ∉ opTable.map OpRow.opcode := by
  simp [rowOf, List.find?_eq_none]

/-- The length of a format other than T is the format's own (R83). -/
theorem descriptorLength_of_fixed {ws : List Half} {row : OpRow} (hrow : rowOf (opcodeOf (ws.headD 0)) = some row)
    (hT : row.format ≠ .T) : descriptorLength ws = fixedLength row.format := by
  simp only [descriptorLength, hrow]

/-- The length of format T is six and what the count `W5` asks for (R79, R83). -/
theorem descriptorLength_of_text {ws : List Half} {row : OpRow} (hrow : rowOf (opcodeOf (ws.headD 0)) = some row)
    (hT : row.format = .T) : descriptorLength ws = 6 + charHalves (ws.getD 5 0).toNat := by
  simp only [descriptorLength, hrow, hT]

/-- A TEXT descriptor is whole exactly where its characters fill `ceil(n/2)` halfwords (R79, R83). -/
theorem descriptorLength_text_iff {row : OpRow} {w0 : Half} (hrow : rowOf (opcodeOf w0) = some row) (hT : row.format = .T)
    (x y a ss n : Half) (cs rest : List Half) :
    descriptorLength (w0 :: x :: y :: a :: ss :: n :: cs ++ rest) = (w0 :: x :: y :: a :: ss :: n :: cs).length ↔
      cs.length = charHalves n.toNat := by
  rw [descriptorLength_of_text (row := row) (by exact hrow) hT]
  simp only [List.cons_append, List.getD_cons_succ, List.getD_cons_zero, List.length_cons]
  omega

/-- No format is empty. -/
theorem fixedLength_pos (fmt : Format) : 0 < fixedLength fmt := by
  cases fmt <;> decide

/-- No descriptor is empty (R83). -/
theorem descriptorLength_pos (ws : List Half) : 0 < descriptorLength ws := by
  unfold descriptorLength
  split
  · decide
  · split
    · omega
    · exact fixedLength_pos _

/-- A proper beginning of a descriptor asks for more halfwords than it has (R83). -/
theorem lt_descriptorLength_take {ws : List Half} {n : Nat} (hn : n < descriptorLength ws) :
    n < descriptorLength (ws.take n) := by
  obtain rfl | hpos := n.eq_zero_or_pos
  · exact descriptorLength_pos _
  have hhead : (ws.take n).headD 0 = ws.headD 0 := by
    rw [List.headD_eq_head?_getD, List.head?_take, if_neg hpos.ne', ← List.headD_eq_head?_getD]
  cases hrow : rowOf (opcodeOf (ws.headD 0)) with
  | none =>
    simp only [descriptorLength, hrow] at hn
    omega
  | some row =>
    by_cases hT : row.format = .T
    · rw [descriptorLength_of_text hrow hT] at hn
      rw [descriptorLength_of_text (hhead ▸ hrow) hT]
      by_cases h5 : 5 < n
      · rwa [List.getD_eq_getElem?_getD, List.getElem?_take_of_lt h5, ← List.getD_eq_getElem?_getD]
      · omega
    · rwa [descriptorLength_of_fixed (hhead ▸ hrow) hT, ← descriptorLength_of_fixed hrow hT]

/-! ### What the decoder answers -/

/-- A first halfword without a row is refused alone (R82 (a), R83). -/
theorem decode_of_rowOf_none {w0 : Half} (ws : List Half) (hrow : rowOf (opcodeOf w0) = none) :
    decode (w0 :: ws) = .illegal .unknownOpcode ws := by
  simp only [decode, hrow]

/-- With fewer halfwords than the length asks for, the decoder waits (R83). -/
theorem decode_eq_waiting {ws : List Half} (hlen : ws.length < descriptorLength ws) : decode ws = .waiting := by
  cases ws with
  | nil => rfl
  | cons w0 ws =>
    cases hrow : rowOf (opcodeOf w0) with
    | none => simp [descriptorLength, hrow] at hlen
    | some row => simp only [decode, hrow, if_pos hlen]

/-- A whole descriptor that R82 (b) to (e) refuse is consumed and refused (R83). -/
theorem decode_eq_illegal {d rest : List Half} {row : OpRow} {why : Illegal}
    (hrow : rowOf (opcodeOf (d.headD 0)) = some row) (hlen : descriptorLength (d ++ rest) = d.length)
    (hill : illegality row d = some why) : decode (d ++ rest) = .illegal why rest := by
  cases d with
  | nil => exact absurd hlen (descriptorLength_pos _).ne'
  | cons w0 ops =>
    rw [List.headD_cons] at hrow
    rw [List.cons_append] at hlen ⊢
    simp [decode, hrow, hlen, hill]

/-- The decoder reads an operation exactly where the halfwords begin with a whole legal descriptor of it (R82, R83). -/
theorem decode_eq_ok_iff {ws rest : List Half} {i : Instr} :
    decode ws = .ok i rest ↔
      ∃ row d, ws = d ++ rest ∧ rowOf (opcodeOf (d.headD 0)) = some row ∧ descriptorLength ws = d.length ∧
        illegality row d = none ∧ assemble d = some i := by
  constructor
  · fun_cases decode ws <;> intro h
    case case5 w0 ws row hrow len hle d rest' hlegal j hi =>  -- the one answer that is an operation
      obtain ⟨rfl, rfl⟩ := Decoded.ok.inj h
      refine ⟨row, d, (List.take_append_drop _ _).symm, ?_, (List.length_take_of_le (Nat.not_lt.mp hle)).symm, hlegal, hi⟩
      obtain ⟨k, hk⟩ := Nat.exists_eq_succ_of_ne_zero (descriptorLength_pos (w0 :: ws)).ne'
      have hd : d = w0 :: ws.take k := congrArg (List.take · (w0 :: ws)) hk
      rwa [hd, List.headD_cons]
    all_goals cases h
  · rintro ⟨row, d, rfl, hrow, hlen, hlegal, hi⟩
    cases d with
    | nil => cases hi
    | cons w0 ops =>
      rw [List.headD_cons] at hrow
      rw [List.cons_append] at hlen ⊢
      simp [decode, hrow, hlen, hlegal, hi]

/-! ### The characters of a TEXT (R79) -/

/-- The low byte of the last halfword of an odd number of characters is the padding, 0. -/
theorem loByte_getLastD_packChars (cs : List Byte) (h : cs.length % 2 = 1) (w : Half) :
    loByte ((packChars cs).getLastD w) = 0 := by
  fun_induction packChars cs generalizing w with
  | case1 => cases h
  | case2 a => exact loByte_append a 0
  | case3 a b t ih =>
    rw [List.getLastD_cons]
    exact ih (by simpa [Nat.add_assoc] using h) _

/-- The characters of halfwords, packed again, are those halfwords, where the padding byte of an odd count is 0. -/
theorem packChars_take_charsOf (cs : List Half) (n : Nat) (hl : cs.length = charHalves n) (w : Half)
    (hpad : n % 2 = 1 → loByte (cs.getLastD w) = 0) : packChars ((charsOf cs).take n) = cs := by
  induction cs generalizing n w with
  | nil => simp [charsOf, packChars]
  | cons c cs ih =>
    match n with
    | 0 => cases hl
    | 1 =>
      obtain rfl : cs = [] := by simpa [charHalves] using hl
      have hc : loByte c = 0 := hpad rfl
      rw [← hiByte_append_loByte c, hc]
      simp [charsOf, packChars]
    | n + 2 =>
      have hl' : cs.length = charHalves n := by
        simp only [List.length_cons, charHalves] at hl ⊢
        omega
      have hpad' : n % 2 = 1 → loByte (cs.getLastD c) = 0 := fun h => by
        rw [← List.getLastD_cons (a := w)]
        exact hpad (by omega)
      exact congrArg₂ List.cons (hiByte_append_loByte c) (ih n hl' c hpad')

/-- Two characters stand in each halfword. -/
theorem length_charsOf (cs : List Half) : (charsOf cs).length = 2 * cs.length := by
  simp [charsOf, Nat.mul_comm]

/-- The last halfword of a TEXT descriptor with an odd count is the last of its characters. -/
theorem getLastD_text {cs : List Half} {n : Nat} (hl : cs.length = charHalves n) (hn : n % 2 = 1) (w0 x y a ss w : Half) :
    (w0 :: x :: y :: a :: ss :: w :: cs).getLastD 0 = cs.getLastD 0 := by
  cases cs with
  | nil =>
    simp only [List.length_nil, charHalves] at hl
    omega
  | cons c cs => rfl

/-! ### Decode of encode -/

/-- The row of R81's map an operation is encoded by. -/
def Instr.row : Instr → OpRow
  | .setpx _ _ _ => ⟨0x01, .P, false, true⟩
  | .getpx _ _ => ⟨0x02, .P, false, false⟩
  | .fill _ => ⟨0x03, .Z, false, true⟩
  | .line _ _ _ _ _ => ⟨0x10, .Q, false, true⟩
  | .rect _ _ _ _ _ _ => ⟨0x11, .Q, true, true⟩
  | .circle _ _ _ _ _ => ⟨0x12, .C, true, true⟩
  | .circleaa _ _ _ _ => ⟨0x13, .C, false, true⟩
  | .glyph _ _ _ _ _ _ => ⟨0x20, .G, false, true⟩
  | .text _ _ _ _ _ _ _ _ => ⟨0x21, .T, true, true⟩
  | .wrcmd _ => ⟨0x30, .I, false, false⟩
  | .wrdata _ => ⟨0x31, .I, false, false⟩
  | .init => ⟨0x32, .Z, false, false⟩
  | .setwin _ _ _ _ => ⟨0x33, .Q, false, false⟩
  | .flush => ⟨0x34, .Z, false, false⟩
  | .lpm => ⟨0x35, .Z, false, false⟩
  | .hpm => ⟨0x36, .Z, false, false⟩
  | .sleep _ => ⟨0x37, .Z, true, false⟩
  | .dispon _ => ⟨0x38, .Z, true, false⟩
  | .invert _ => ⟨0x39, .Z, true, false⟩

/-- That row is the one the map holds for its opcode. -/
theorem rowOf_opcode (i : Instr) : rowOf i.row.opcode = some i.row := by
  cases i <;> rfl

/-- The encoded opcode is the row's. -/
theorem opcodeOf_encode (i : Instr) : opcodeOf ((encode i).headD 0) = i.row.opcode := by
  cases i <;> simp only [encode, List.headD_cons, opcodeOf_word0, opcodeOf_wordI, Instr.row]

/-- The decoder finds the length of every encoded descriptor, whatever follows (R83). -/
theorem encodedLength : (i : Instr) → Laws.EncodedLength.Statement i
  | .setpx x y g => Laws.EncodedLength.setpx x y g
  | .getpx x y => Laws.EncodedLength.getpx x y
  | .fill g => Laws.EncodedLength.fill g
  | .line x1 y1 x2 y2 g => Laws.EncodedLength.line x1 y1 x2 y2 g
  | .rect x y w h g f => Laws.EncodedLength.rect x y w h g f
  | .circle x0 y0 r g f => Laws.EncodedLength.circle x0 y0 r g f
  | .circleaa x0 y0 r g => Laws.EncodedLength.circleaa x0 y0 r g
  | .glyph ch x y g scale angle => Laws.EncodedLength.glyph ch x y g scale angle
  | .text chars x y g scale spacing angle f => Laws.EncodedLength.text chars x y g scale spacing angle f
  | .wrcmd b => Laws.EncodedLength.wrcmd b
  | .wrdata b => Laws.EncodedLength.wrdata b
  | .init => Laws.EncodedLength.init
  | .setwin cs ce rs re => Laws.EncodedLength.setwin cs ce rs re
  | .flush => Laws.EncodedLength.flush
  | .lpm => Laws.EncodedLength.lpm
  | .hpm => Laws.EncodedLength.hpm
  | .sleep f => Laws.EncodedLength.sleep f
  | .dispon f => Laws.EncodedLength.dispon f
  | .invert f => Laws.EncodedLength.invert f

/-- An encoded descriptor is legal (R82): its reserved bits, its unused fields and its padding are 0. -/
theorem illegality_encode (i : Instr) (h : i.wellFormed = true) : illegality i.row (encode i) = none := by
  rw [illegality_eq_none_iff]
  cases i with
  | text chars x y g scale spacing angle f =>
    have hl : chars.length < 65536 := by simpa [Instr.wellFormed] using h
    refine ⟨by simp [encode], by simp [Instr.row], by simp [Instr.row], ?_⟩
    rintro ⟨-, hodd, hpad⟩
    have hodd : chars.length % 2 = 1 := by simpa [encode, Nat.mod_eq_of_lt hl] using hodd
    rw [encode, getLastD_text (length_packChars chars) hodd] at hpad
    exact hpad (loByte_getLastD_packChars chars hodd 0)
  | _ => simp [encode, Instr.row]

/-- Settles O7: the encoded descriptor has the length the decoder asks for, is legal, and assembles to the operation. -/
theorem decodeOfEncodeIsTheOperation : Obligations.DecodeOfEncodeIsTheOperation := by
  intro i rest h
  have hrow : rowOf (opcodeOf ((encode i).headD 0)) = some i.row := by
    rw [opcodeOf_encode, rowOf_opcode]
  exact decode_eq_ok_iff.mpr
    ⟨i.row, encode i, rfl, hrow, encodedLength i h rest, illegality_encode i h, assemble_encode i h⟩

/-- Settles O9: the encodings by computation, their decoding by the round trip. -/
theorem workedEncodings : Obligations.WorkedEncodings := by
  intro p hp
  obtain ⟨henc, hwf⟩ : encode p.1 = p.2 ∧ p.1.wellFormed = true := by
    revert p
    decide
  refine ⟨henc, ?_⟩
  have h := decodeOfEncodeIsTheOperation p.1 [] hwf
  rwa [List.append_nil, henc] at h

/-! ### Encode of decode -/

/-- A halfword whose reserved bits are 0 is `word0` of its three fields (R72). -/
theorem word0_fields {w : Half} (h : reservedOf w = 0) : word0 (opcodeOf w) (fOf w) (gOf w) = w := by
  have hres : (0#5) = w.extractLsb' 3 5 := h.symm
  have hf : BitVec.ofBool (fOf w) = w.extractLsb' 2 1 := by
    ext i hi
    obtain rfl : i = 0 := by omega
    simp [fOf]
  unfold word0 opcodeOf hiByte gOf
  rw [hres, hf, BitVec.extractLsb'_append_extractLsb'_eq_extractLsb' (show 8 = 3 + 5 from rfl),
    BitVec.extractLsb'_append_extractLsb'_eq_extractLsb' (show 3 = 2 + 1 from rfl),
    BitVec.extractLsb'_append_extractLsb'_eq_extractLsb' (show 2 = 0 + 2 from rfl)]
  exact BitVec.extractLsb'_eq_self

/-- The first halfword with the opcode of `row` and, of the fields of `w0`, only those the row has (R72 to R79). -/
def OpRow.word (row : OpRow) (w0 : Half) : Half :=
  if row.format = .I then wordI row.opcode (loByte w0)
  else word0 row.opcode (row.usesF && fOf w0) (if row.usesG then gOf w0 else 0)

/-- In a legal descriptor of the row, nothing else stands in the first halfword (R82 (b) to (d)). -/
theorem word_of_legal {row : OpRow} {w0 : Half} {ops : List Half} (hop : row.opcode = opcodeOf w0)
    (hlegal : illegality row (w0 :: ops) = none) : row.word w0 = w0 := by
  obtain ⟨hres, hf, hg, -⟩ := (illegality_eq_none_iff row (w0 :: ops)).mp hlegal
  rw [List.headD_cons] at hres hf hg
  unfold OpRow.word
  split
  · rw [hop]
    exact hiByte_append_loByte w0
  · next hI =>
    have hf' : (row.usesF && fOf w0) = fOf w0 := by
      cases hu : row.usesF <;> simp_all
    have hg' : (if row.usesG then gOf w0 else 0) = gOf w0 := by
      cases hu : row.usesG <;> simp_all
    rw [hop, hf', hg', word0_fields (not_not.mp fun h => hres ⟨hI, h⟩)]

/-- What is assembled is an operation of the opcode's row. It keeps every operand halfword, or it is a TEXT. -/
theorem assembleOps_eq_some {op : Nat} {w0 : Half} {ops : List Half} {i : Instr} (h : assembleOps op w0 ops = some i) :
    op = i.row.opcode.toNat ∧
      ((encode i = i.row.word w0 :: ops ∧ i.wellFormed = true) ∨
        ∃ x y a ss n cs, ops = x :: y :: a :: ss :: n :: cs ∧
          i = .text ((charsOf cs).take n.toNat) x y (gOf w0) (hiByte ss) (loByte ss) a (fOf w0)) := by
  revert h
  fun_cases assembleOps op w0 ops <;> intro h <;> cases h
  case case15 =>  -- GLYPH, which takes its last operand apart
    refine ⟨rfl, .inl ⟨?_, rfl⟩⟩
    rw [encode, hiByte_append_loByte]
    rfl
  case case17 =>  -- TEXT
    exact ⟨rfl, .inr ⟨_, _, _, _, _, _, rfl, rfl⟩⟩
  all_goals exact ⟨rfl, .inl ⟨rfl, rfl⟩⟩

/-- A legal TEXT descriptor is the encoding of its operation, whose characters are few enough to be counted in `W5` (R79). -/
theorem encode_text_of_legal {w0 x y a ss n : Half} {cs : List Half} (hw : word0 0x21 (fOf w0) (gOf w0) = w0)
    (hl : cs.length = charHalves n.toNat) (hpad : n.toNat % 2 = 1 → loByte (cs.getLastD 0) = 0) :
    encode (.text ((charsOf cs).take n.toNat) x y (gOf w0) (hiByte ss) (loByte ss) a (fOf w0)) =
        w0 :: x :: y :: a :: ss :: n :: cs ∧ ((charsOf cs).take n.toNat).length < 65536 := by
  have hlen : ((charsOf cs).take n.toNat).length = n.toNat := by
    rw [List.length_take, length_charsOf, hl, charHalves]
    omega
  rw [hlen]
  refine ⟨?_, n.isLt⟩
  rw [encode, hw, hiByte_append_loByte, hlen, packChars_take_charsOf cs n.toNat hl 0 hpad, BitVec.ofNat_toNat, BitVec.setWidth_eq]

/-- What a whole legal descriptor assembles to encodes to that descriptor, and is well-formed. -/
theorem encode_of_assemble {row : OpRow} {d rest : List Half} {i : Instr} (hrow : rowOf (opcodeOf (d.headD 0)) = some row)
    (hlen : descriptorLength (d ++ rest) = d.length) (hlegal : illegality row d = none) (hi : assemble d = some i) :
    encode i = d ∧ i.wellFormed = true := by
  cases d with
  | nil => cases hi
  | cons w0 ops =>
    obtain ⟨hop, hi⟩ := assembleOps_eq_some hi
    have hop : opcodeOf w0 = i.row.opcode := BitVec.eq_of_toNat_eq hop
    obtain rfl : i.row = row := by
      rw [List.headD_cons, hop, rowOf_opcode] at hrow
      exact Option.some.inj hrow
    have hw := word_of_legal hop.symm hlegal
    obtain hi | ⟨x, y, a, ss, n, cs, rfl, rfl⟩ := hi
    · rwa [hw] at hi
    · have hl : cs.length = charHalves n.toNat := (descriptorLength_text_iff hrow rfl x y a ss n cs rest).mp hlen
      obtain ⟨-, -, -, hpad⟩ := (illegality_eq_none_iff _ _).mp hlegal
      have hpad' : n.toNat % 2 = 1 → loByte (cs.getLastD 0) = 0 := fun hodd => by
        by_contra h
        exact hpad ⟨rfl, hodd, by rwa [getLastD_text hl hodd]⟩
      obtain ⟨henc, hlt⟩ := encode_text_of_legal hw hl hpad'
      exact ⟨henc, decide_eq_true hlt⟩

/-- Settles O8: the decoder reads an operation only from a whole legal descriptor of it. -/
theorem encodeOfDecodeIsTheDescriptor : Obligations.EncodeOfDecodeIsTheDescriptor := by
  intro i ws rest h
  obtain ⟨row, d, rfl, hrow, hlen, hlegal, hi⟩ := decode_eq_ok_iff.mp h
  obtain ⟨henc, hwf⟩ := encode_of_assemble hrow hlen hlegal hi
  exact ⟨by rw [henc], hwf⟩

end Sys2Proof

namespace Sys2Proof.Machine

/-! ### Steps that wait and steps that refuse (R82, R83) -/

/-- An idle engine rejects a descriptor the decoder refuses, with no effect but the halfwords it consumes (R182). -/
theorem step_of_illegal {s : State} {why : Illegal} {rest : List Half} (he : s.engine = .idle)
    (hd : decode s.hostIn = .illegal why rest) : ∃ t, step s = .next t ∧ Rejected (s.withHostIn rest) t := by
  refine ⟨s.refuseDescriptor rest, ?_, rejected_rejectOp _⟩
  simp only [step, he, hd]

/-- An idle engine rejects a whole descriptor that R82 (b) to (e) refuse. -/
theorem step_of_illegality {s : State} {row : OpRow} {d rest : List Half} (he : s.engine = .idle) (hin : s.hostIn = d ++ rest)
    (hrow : rowOf (opcodeOf (d.headD 0)) = some row) (hlen : descriptorLength (d ++ rest) = d.length)
    (hill : illegality row d ≠ none) : ∃ t, step s = .next t ∧ Rejected (s.withHostIn rest) t := by
  obtain ⟨why, hwhy⟩ := Option.ne_none_iff_exists'.mp hill
  exact step_of_illegal he (hin ▸ decode_eq_illegal hrow hlen hwhy)

/-- Settles O3: the halfwords there are fewer than the length they ask for. -/
theorem stepWaitsForTheWholeDescriptor : Obligations.StepWaitsForTheWholeDescriptor := by
  intro s i n he hwf hn hin
  have hlen : descriptorLength (encode i) = (encode i).length := by
    simpa using encodedLength i hwf []
  have hd : decode s.hostIn = .waiting := by
    rw [hin]
    apply decode_eq_waiting
    rw [List.length_take, Nat.min_eq_left hn.le]
    exact lt_descriptorLength_take (hlen ▸ hn)
  simp only [step, he, hd]

/-- Settles O4: the nineteen opcodes are those of the table. -/
theorem unassignedOpcodeIsRejected : Obligations.UnassignedOpcodeIsRejected := by
  intro s w0 rest he hin hop
  exact step_of_illegal he (hin ▸ decode_of_rowOf_none rest ((rowOf_eq_none_iff _).mpr hop))

/-- Settles O5: the rows listed are rows of the table, and R82 (b), (c) or (d) refuses the descriptor. -/
theorem unusedFieldsAreRejected : Obligations.UnusedFieldsAreRejected := by
  intro s op len hasF hasG d rest hmem he hlen hin hop hbad
  obtain ⟨row, -, hrow, hT, hI, hrowLen, rfl, rfl⟩ :=
    (show ∀ p ∈ _, ∃ row ∈ opTable, rowOf p.1 = some row ∧ row.format ≠ .T ∧ row.format ≠ .I ∧
      fixedLength row.format = p.2.1 ∧ row.usesF = p.2.2.1 ∧ row.usesG = p.2.2.2 by decide) _ hmem
  subst hop
  have hd : descriptorLength (d ++ rest) = d.length := by
    cases d with
    | nil => exact absurd (hrowLen.trans hlen.symm) (fixedLength_pos _).ne'
    | cons w0 ops => exact Laws.EncodedLength.of_row rest hrow hT (hrowLen.trans hlen.symm)
  refine step_of_illegality he hin hrow hd fun hlegal => ?_
  obtain ⟨hres, hf, hg, -⟩ := (illegality_eq_none_iff row d).mp hlegal
  obtain h | h | h := hbad
  · exact hres ⟨hI, h⟩
  · exact hf ⟨hI, h⟩
  · exact hg ⟨hI, h⟩

/-- Settles O6: R82 (b) or (e) refuses the descriptor, whose length its count gives. -/
theorem badTextDescriptorIsRejected : Obligations.BadTextDescriptorIsRejected := by
  intro s w0 x y a ss n cs rest he hop hcs hin hbad
  have hrow : rowOf (opcodeOf w0) = some ⟨0x21, .T, true, true⟩ := by
    rw [hop]
    rfl
  have hl : cs.length = charHalves n.toNat := hcs
  have hlen := (descriptorLength_text_iff hrow rfl x y a ss n cs rest).mpr hl
  refine step_of_illegality (d := w0 :: x :: y :: a :: ss :: n :: cs) he hin hrow hlen fun hlegal => ?_
  obtain ⟨hres, -, -, hpad⟩ := (illegality_eq_none_iff _ _).mp hlegal
  obtain h | ⟨hodd, h⟩ := hbad
  · exact hres ⟨by decide, h⟩
  · exact hpad ⟨rfl, hodd, by rwa [getLastD_text hl hodd]⟩

end Sys2Proof.Machine
end

section
/-! SUPPORT. The proofs of the statements about SETPX, GETPX and FILL (spec 40_framebuffer_ops.md R100 to R102). -/

namespace Sys2Proof.Machine

/-! ### SETPX and FILL -/

/-- Settles O14: SETPX draws the figure of one point. -/
theorem setpxWritesOnePixel : Obligations.SetpxWritesOnePixel := by
  intro s x y g hL hm
  have hpoint (px py : Int) : (px, py) ∈ [(x.toInt, y.toInt)] ↔ px = x.toInt ∧ py = y.toInt := by
    rw [List.mem_singleton, Prod.mk.injEq]
  exact ⟨_, rfl, (drew_draw hL hm g [(x.toInt, y.toInt)]).congr hpoint, drawEnded_draw s _, rfl⟩

/-- A new buffer and a completion with status OK change nothing else. -/
theorem drawEnded_withFb_complete (s : State) (m : Memory) : DrawEnded s ((s.withFb m).complete .ok 0) :=
  ⟨⟨rfl, rfl, rfl, rfl⟩, ⟨rfl, rfl, rfl, rfl, rfl⟩, ⟨rfl, rfl⟩, rfl⟩

/-- Settles O18: every byte of the filled buffer is `PACK4(g)`, whose four fields hold `g`. -/
theorem fillSetsEveryPixel : Obligations.FillSetsEveryPixel := fun s g hL =>
  ⟨_, rfl, fun _ _ hp => pixRead_fill hL g hp, Memory.read_fill _, drawEnded_withFb_complete s _, rfl⟩

/-! ### GETPX -/

/-- Where the two bits of a field are neighbours, its level is the byte shifted down to it. -/
theorem getField_of_adjacent {p : FieldPos} (hp : p.hi.val = p.lo.val + 1) (b : Byte) :
    getField p b = (b >>> p.lo.val).setWidth 2 := by
  rw [gray_eq_iff, getField_bit0, getField_bit1, hp]
  simp

/-- The level of a panel pixel is in its field of the byte `(y/2)·150 + x/2` (R45). -/
theorem pixRead_of_index (L : Layout) {x y : Int} (hp : InPanel x y) (m : Memory) {i : Fin NB}
    (hi : (i.val : Int) = y / 2 * 150 + x / 2) : pixRead L x y m = getField (fieldOf L x y) (m.read i) := by
  obtain rfl : pixelByte hp = i := by
    apply Fin.ext
    change byteIndex x y = i.val
    unfold byteIndex
    omega
  rw [pixRead, dif_pos hp]

/-- The level of a panel pixel under the decided layout is `(FB[i] >> lo) & 3` (R45). -/
theorem pixRead_decided {x y : Int} (hp : InPanel x y) (m : Memory) {i : Fin NB} {lo : Nat}
    (hi : (i.val : Int) = y / 2 * 150 + x / 2) (hlo : (lo : Int) = 6 - 2 * (2 * (y % 2) + x % 2)) :
    pixRead Params.layout x y m = (m.read i >>> lo).setWidth 2 := by
  obtain ⟨hhi, hlo'⟩ := fieldOf_decided x y
  obtain rfl : (fieldOf Params.layout x y).lo.val = lo := by omega
  rw [pixRead_of_index _ hp m hi, getField_of_adjacent (by omega)]

/-- Off the panel the model reads 0, as D6 decides for GETPX (R101). -/
theorem pixRead_off {L : Layout} {x y : Int} (h : ¬ InPanel x y) (m : Memory) : pixRead L x y m = 0 := by
  rw [pixRead, dif_neg h]

/-- A completion is no bus event (R180). -/
theorem busUntouched_complete (s : State) (st : Status) (v : Gray) : BusUntouched s (s.complete st v) :=
  ⟨rfl, rfl, rfl, rfl, rfl⟩

/-- A completion neither consumes halfwords nor writes the configuration (R180). -/
theorem portUntouched_complete (s : State) (st : Status) (v : Gray) : PortUntouched s (s.complete st v) :=
  ⟨rfl, rfl⟩

/-- GETPX of a pixel whose level is `v` completes with `v` and changes nothing but the completion (R101). -/
theorem getpx_of_levelAt {s : State} {x y : Half} {v : Gray} (h : levelAt s x.toInt y.toInt = v) :
    ∃ t, exec (.getpx x y) s = .next t ∧ Completed .ok v s t ∧ BusUntouched s t ∧ PortUntouched s t ∧ t.fb = s.fb ∧
      t.pm = s.pm ∧ t.free = s.free := by
  subst h
  exact ⟨_, exec_getpx x y s, completed_complete s .ok _, busUntouched_complete s .ok _, portUntouched_complete s .ok _,
    rfl, rfl, rfl⟩

/-- Settles O15: the field of the pixel is at `lo`, its two bits neighbours. -/
theorem getpxReturnsTheLevel : Obligations.GetpxReturnsTheLevel := by
  intro s x y i lo hL hp hi hlo
  apply getpx_of_levelAt
  rw [levelAt, hL, pixRead_decided hp s.fb hi hlo]

/-- Settles O16: the level read off the panel is 0. -/
theorem getpxOutsideThePanelReturnsZero : Obligations.GetpxOutsideThePanelReturnsZero := fun s _ _ hoff =>
  getpx_of_levelAt (pixRead_off hoff s.fb)

end Sys2Proof.Machine
end

section
/-! SUPPORT. The proofs of the statements about LINE, RECT, CIRCLE and CIRCLEAA (spec 41_rasterizer.md R110 to R122). -/

namespace Sys2Proof.Machine

/-! ### Operations that draw a figure -/

/-- An operation that writes one level at a list of points draws the figure whose points they are (R55, R122). -/
theorem draws_of_exec {i : Instr} {s : State} {g : Gray} {pts : List (Int × Int)} {P : Int → Int → Prop}
    (hL : s.cfg.layout.Legal) (hm : s.fb.wf = true) (hexec : exec i s = .next (s.draw (plotsOf g pts)))
    (hP : ∀ x y, (x, y) ∈ pts ↔ P x y) :
    ∃ t, exec i s = .next t ∧ Drew P g s t ∧ DrawEnded s t ∧ t.free = s.free :=
  ⟨_, hexec, (drew_draw hL hm g pts).congr hP, drawEnded_draw s _, rfl⟩

/-- FILL writes `PACK4(g)` to every byte (R102). -/
theorem exec_fill (g : Gray) (s : State) :
    exec (.fill g) s = .next ((s.withFb (Memory.fill (pack4 s.cfg.layout g))).complete .ok 0) := rfl

/-- LINE writes its points (R110). -/
theorem exec_line (x1 y1 x2 y2 : Half) (g : Gray) (s : State) :
    exec (.line x1 y1 x2 y2 g) s = .next (s.draw (plotsOf g (linePoints x1.toInt y1.toInt x2.toInt y2.toInt))) := rfl

/-- The points RECT writes for sizes 0 or more: none if a size is 0 (R113). -/
def rectWritten (x y w h : Int) (fill : Bool) : List (Int × Int) :=
  if w = 0 ∨ h = 0 then [] else rectPoints x y w h fill

/-- RECT of sizes 0 or more writes its points (R113). -/
theorem exec_rect {w h : Half} (hw : 0 ≤ w.toInt) (hh : 0 ≤ h.toInt) (x y : Half) (g : Gray) (f : Bool) (s : State) :
    exec (.rect x y w h g f) s = .next (s.draw (plotsOf g (rectWritten x.toInt y.toInt w.toInt h.toInt f))) := by
  have hneg : ¬ (w.toInt < 0 ∨ h.toInt < 0) := by omega
  refine congrArg Host.Outcome.next ((if_neg hneg).trans ?_)
  by_cases hempty : w.toInt = 0 ∨ h.toInt = 0
  · rw [rectWritten, if_pos hempty]
    exact if_pos hempty
  · rw [rectWritten, if_neg hempty]
    exact if_neg hempty

/-- CIRCLE of radius 0 or more writes its points (R116). -/
theorem exec_circle {r : Half} (hr : 0 ≤ r.toInt) (x0 y0 : Half) (g : Gray) (f : Bool) (s : State) :
    exec (.circle x0 y0 r g f) s = .next (s.draw (plotsOf g (circlePoints x0.toInt y0.toInt r.toInt f))) :=
  congrArg Host.Outcome.next (if_neg (not_lt.mpr hr))

/-- CIRCLEAA of radius 0 or more, with `HAS_AA`, makes its pixel writes (R118). -/
theorem exec_circleaa {s : State} (haa : s.cfg.hasAA = true) {r : Half} (hr : 0 ≤ r.toInt) (x0 y0 : Half) (g : Gray) :
    exec (.circleaa x0 y0 r g) s = .next (s.draw (aaPlots x0.toInt y0.toInt r.toInt g)) := by
  have hlegal : ¬ s.cfg.hasAA = false := (Bool.not_eq_false _).mpr haa
  exact congrArg Host.Outcome.next ((if_neg hlegal).trans (if_neg (not_lt.mpr hr)))

/-! ### LINE: the loop and the closed form (R111 (d)) -/

/-- `m(k)`, the offset of the ideal line on the short axis after `k` steps on the long one (R111 (d)). -/
def idealOffset (dx dy k : Int) : Int := (2 * dy * k + dx - 1) / (2 * dx)

/-- The accumulator of the loop after `k` iterations: `2·dy` for each and `-2·dx` for each step on the short axis (R110). -/
def lineAcc (dx dy k : Int) : Int := 2 * dy * (k + 1) - dx - 2 * dx * idealOffset dx dy k

section
variable {dx dy : Int} (hdx : 0 < dx) (hdy : 0 ≤ dy) (hle : dy ≤ dx)
include hdx

theorem idealOffset_eq_iff (k m : Int) :
    idealOffset dx dy k = m ↔ 2 * dx * m ≤ 2 * dy * k + dx - 1 ∧ 2 * dy * k + dx - 1 < 2 * dx * m + 2 * dx := by
  rw [idealOffset, Int.ediv_eq_iff_of_pos (by omega), mul_comm m]

/-- The accumulator stays in a window of width `2·dx`. -/
theorem lineAcc_bounds (k : Int) : 2 * dy - 2 * dx < lineAcc dx dy k ∧ lineAcc dx dy k ≤ 2 * dy := by
  obtain ⟨hlo, hhi⟩ := (idealOffset_eq_iff hdx k _).mp (rfl : idealOffset dx dy k = _)
  unfold lineAcc
  constructor <;> linarith

include hdy hle

/-- The ideal line takes a step on the short axis exactly where the accumulator is positive. -/
theorem idealOffset_succ (k : Int) :
    idealOffset dx dy (k + 1) = if 0 < lineAcc dx dy k then idealOffset dx dy k + 1 else idealOffset dx dy k := by
  obtain ⟨hlo, hhi⟩ := lineAcc_bounds (dy := dy) hdx k
  rw [idealOffset_eq_iff hdx]
  unfold lineAcc at hlo hhi ⊢
  split <;> constructor <;> linarith

/-- The accumulator takes the loop's own step. -/
theorem lineAcc_succ (k : Int) :
    lineAcc dx dy (k + 1) = if 0 < lineAcc dx dy k then lineAcc dx dy k - 2 * dx + 2 * dy else lineAcc dx dy k + 2 * dy := by
  rw [lineAcc, idealOffset_succ hdx hdy hle]
  split <;> unfold lineAcc <;> ring

/-- One iteration of the loop, from the position and the accumulator of step `k` to those of step `k + 1`. -/
theorem lineLoop_ideal_succ (ystep ax ay k : Int) (n : Nat) :
    lineLoop dx dy ystep (n + 1) (ax + k) (ay + ystep * idealOffset dx dy k) (lineAcc dx dy k) =
      (ax + k, ay + ystep * idealOffset dx dy k) ::
        lineLoop dx dy ystep n (ax + (k + 1)) (ay + ystep * idealOffset dx dy (k + 1)) (lineAcc dx dy (k + 1)) := by
  rw [lineLoop, idealOffset_succ hdx hdy hle, lineAcc_succ hdx hdy hle, ← add_assoc ax]
  by_cases hD : 0 < lineAcc dx dy k
  · rw [if_pos hD, if_pos hD, if_pos hD, mul_add, mul_one, add_assoc ay]
  · rw [if_neg hD, if_neg hD, if_neg hD]

/-- The loop from step `k` on visits the ideal line's points of the next `n` steps. -/
theorem mem_lineLoop_ideal (ystep ax ay px py : Int) (n : Nat) (k : Int) :
    (px, py) ∈ lineLoop dx dy ystep n (ax + k) (ay + ystep * idealOffset dx dy k) (lineAcc dx dy k) ↔
      ∃ j, k ≤ j ∧ j < k + n ∧ px = ax + j ∧ py = ay + ystep * idealOffset dx dy j := by
  induction n generalizing k with
  | zero =>
    simp only [lineLoop, List.not_mem_nil, false_iff]
    omega
  | succ n ih =>
    rw [lineLoop_ideal_succ hdx hdy hle, List.mem_cons, ih, Prod.mk.injEq]
    constructor
    · rintro (⟨hx, hy⟩ | ⟨j, hkj, hjn, hp⟩)
      · exact ⟨k, le_rfl, by omega, hx, hy⟩
      · exact ⟨j, by omega, by omega, hp⟩
    · rintro ⟨j, hkj, hjn, hx, hy⟩
      rcases eq_or_lt_of_le hkj with rfl | hlt
      · exact .inl ⟨hx, hy⟩
      · exact .inr ⟨j, by omega, by omega, hx, hy⟩

end

/-- The loop of a shallow line from its left end visits the ideal line. -/
theorem mem_linePath {ax ay bx ey : Int} (hab : ax ≤ bx) (hshallow : |ey - ay| ≤ bx - ax) (px py : Int) :
    (px, py) ∈ linePath ax ay bx ey ↔ OnIdeal ax ay bx ey px py := by
  rcases eq_or_lt_of_le hab with rfl | hlt
  · have hpoint : linePath ax ay ax ey = [(ax, ay)] := by simp [linePath, lineLoop]
    rw [hpoint, List.mem_singleton, Prod.mk.injEq, OnIdeal]
    constructor
    · rintro ⟨rfl, rfl⟩
      exact ⟨0, by simp⟩
    · rintro ⟨k, hk0, hk1, hx, hy⟩
      obtain rfl : k = 0 := by omega
      simpa using And.intro hx hy
  · have hstart : idealOffset (bx - ax) |ey - ay| 0 = 0 := by
      rw [idealOffset_eq_iff (by omega)]
      omega
    have hmem := mem_lineLoop_ideal (by omega) (abs_nonneg _) hshallow (if ay < ey then 1 else -1) ax ay px py
      (bx - ax + 1).toNat 0
    rw [hstart, lineAcc, hstart] at hmem
    simp only [add_zero, zero_add, mul_zero, sub_zero, mul_one] at hmem
    rw [linePath, hmem, OnIdeal]
    refine exists_congr fun k => and_congr_right fun hk => and_congr (by omega) Iff.rfl

/-- The points of a shallow line, whichever end is the left one. -/
theorem mem_lineLeftRight {ax ay bx ey : Int} (hshallow : |ey - ay| ≤ |bx - ax|) (px py : Int) :
    (px, py) ∈ lineLeftRight ax ay bx ey ↔ OnShallow ax ay bx ey px py := by
  unfold lineLeftRight OnShallow
  by_cases hab : ax ≤ bx
  · rw [abs_of_nonneg (by omega : 0 ≤ bx - ax)] at hshallow
    rw [if_pos hab, if_neg (not_lt.mpr hab), mem_linePath hab hshallow]
  · rw [abs_sub_comm ey, abs_sub_comm bx, abs_of_nonneg (by omega : 0 ≤ ax - bx)] at hshallow
    rw [if_neg hab, if_pos (not_le.mp hab), mem_linePath (by omega) hshallow]

/-- The points of LINE are the ideal line's (R111 (d)). -/
theorem mem_linePoints (x1 y1 x2 y2 px py : Int) : (px, py) ∈ linePoints x1 y1 x2 y2 ↔ LineSet x1 y1 x2 y2 px py := by
  unfold linePoints LineSet
  by_cases hsteep : |x2 - x1| < |y2 - y1|
  · rw [if_pos hsteep, if_pos hsteep, ← mem_lineLeftRight hsteep.le]
    exact List.mem_map_of_injective (a := (py, px)) Prod.swap_injective
  · rw [if_neg hsteep, if_neg hsteep, mem_lineLeftRight (not_lt.mp hsteep)]

/-- Settles O20: the points of LINE are those of the ideal line. -/
theorem lineDrawsTheIdealLine : Obligations.LineDrawsTheIdealLine := fun s x1 y1 x2 y2 g hL hm =>
  draws_of_exec hL hm (exec_line x1 y1 x2 y2 g s) (mem_linePoints _ _ _ _)

/-- The swap of the endpoints of a shallow line makes their order irrelevant (R111 (c)). -/
theorem lineLeftRight_comm {ax ay bx ey : Int} (hshallow : |ey - ay| ≤ |bx - ax|) :
    lineLeftRight ax ay bx ey = lineLeftRight bx ey ax ay := by
  unfold lineLeftRight
  rcases lt_trichotomy ax bx with hlt | rfl | hgt
  · rw [if_neg hlt.not_gt, if_pos hlt]
  · obtain rfl : ey = ay := by simpa [sub_eq_zero] using hshallow
    rfl
  · rw [if_pos hgt, if_neg hgt.not_gt]

theorem linePoints_comm (x1 y1 x2 y2 : Int) : linePoints x1 y1 x2 y2 = linePoints x2 y2 x1 y1 := by
  unfold linePoints
  rw [abs_sub_comm y1, abs_sub_comm x1]
  by_cases hsteep : |y2 - y1| > |x2 - x1|
  · rw [if_pos hsteep, if_pos hsteep, lineLeftRight_comm hsteep.le]
  · rw [if_neg hsteep, if_neg hsteep, lineLeftRight_comm (not_lt.mp hsteep)]

/-- Settles O21: both orders of the endpoints give the same points. -/
theorem lineDoesNotDependOnTheOrderOfItsEnds : Obligations.LineDoesNotDependOnTheOrderOfItsEnds := by
  intro s x1 y1 x2 y2 g
  rw [exec_line, exec_line, linePoints_comm]

/-! ### RECT -/

/-- Filled: the rows of the closed rectangle (R113). -/
theorem mem_rectWritten_filled (x y w h px py : Int) :
    (px, py) ∈ rectWritten x y w h true ↔ RectSet x y w h px py := by
  unfold rectWritten RectSet
  split
  · simp only [List.not_mem_nil, false_iff]
    omega
  · simp only [rectPoints, if_true, List.mem_flatMap, mem_intRange, mem_hSpan]
    constructor
    · rintro ⟨row, hrow, hspan, rfl⟩
      omega
    · intro hin
      exact ⟨py, by omega, by omega, rfl⟩

/-- Outline: the two rows, and the columns between them (R114). -/
theorem mem_rectWritten_outline {w h : Int} (hw : 0 ≤ w) (hh : 0 ≤ h) (x y px py : Int) :
    (px, py) ∈ rectWritten x y w h false ↔ RectBorder x y w h px py := by
  unfold rectWritten RectBorder RectSet
  split
  · simp only [List.not_mem_nil, false_iff]
    omega
  · simp only [rectPoints, Bool.false_eq_true, if_false, List.mem_append, List.mem_flatMap, mem_intRange, List.mem_cons,
      List.not_mem_nil, or_false, Prod.mk.injEq]
    constructor
    · rintro (⟨col, hcol, hrow⟩ | ⟨row, hrow, hcol⟩) <;> omega
    · rintro ⟨hin, hedge⟩
      by_cases hrow : py = y ∨ py = y + h - 1
      · exact .inl ⟨px, by omega, by omega⟩
      · exact .inr ⟨py, by omega, by omega⟩

/-- Settles O22: the points of filled RECT are those of the closed rectangle. -/
theorem filledRectDrawsTheClosedRectangle : Obligations.FilledRectDrawsTheClosedRectangle :=
  fun s x y _ _ g hL hm hw hh => draws_of_exec hL hm (exec_rect hw hh x y g true s) (mem_rectWritten_filled _ _ _ _)

/-- Settles O23: the points of outline RECT are those of the border. -/
theorem outlineRectDrawsTheBorder : Obligations.OutlineRectDrawsTheBorder :=
  fun s x y _ _ g hL hm hw hh => draws_of_exec hL hm (exec_rect hw hh x y g false s) (mem_rectWritten_outline hw hh _ _)

/-- Points that hold the whole panel leave the buffer as FILL does (R102). -/
theorem fb_draw_of_panel {s : State} (hL : s.cfg.layout.Legal) (hm : s.fb.wf = true) (g : Gray) {pts : List (Int × Int)}
    (hall : ∀ x y, InPanel x y → (x, y) ∈ pts) : (s.draw (plotsOf g pts)).fb = Memory.fill (pack4 s.cfg.layout g) := by
  refine fb_ext_of_pixRead hL (wf_plotAll _ _ hm) (Memory.wf_fill _) fun x y hp => ?_
  rw [pixRead_fill hL g hp]
  exact (drew_draw hL hm g pts).painted x y hp (hall x y hp)

/-- Settles O24: the closed rectangle of 300 by 400 holds every panel pixel. -/
theorem rectOverThePanelIsFill : Obligations.RectOverThePanelIsFill := by
  intro s g hL hm
  have hzero : (0 : Half).toInt = 0 := by decide
  have hwidth : (300 : Half).toInt = 300 := by decide
  have hheight : (400 : Half).toInt = 400 := by decide
  refine ⟨_, _, exec_rect (by decide) (by decide) 0 0 g true s, exec_fill g s, fb_draw_of_panel hL hm g fun px py hp => ?_⟩
  rw [mem_rectWritten_filled, hzero, hwidth, hheight]
  unfold InPanel at hp
  unfold RectSet
  omega

/-! ### The octant generator (R117) -/

theorem OctPair.nonneg {r a b : Int} (h : OctPair r a b) : 0 ≤ a ∧ 0 ≤ b := by
  rcases h with ⟨-, rfl, rfl⟩ | ⟨ha, hab, -⟩
  · exact ⟨le_rfl, le_rfl⟩
  · exact ⟨ha, ha.trans hab⟩

/-- Column `b` is the one nearest the circle of radius `r` in row `a`: the two inequalities of `OctPair` (R117). -/
def NearCircle (r a b : Int) : Prop := a ^ 2 + b ^ 2 - b < r ^ 2 ∧ r ^ 2 ≤ a ^ 2 + b ^ 2 + b

/-- What holds at every test of the loop of `Oct(r)`, `r ≥ 1`: `d` is its defining expression, `b` is not too small for row `a`, and
while the loop goes on not too large either. -/
structure OctInv (r a b d : Int) : Prop where
  acc   : d = (a + 1) ^ 2 + b ^ 2 - b - r ^ 2
  row   : 0 ≤ a
  low   : -a ≤ b
  outer : r ^ 2 ≤ a ^ 2 + b ^ 2 + b
  inner : a ≤ b → a ^ 2 + b ^ 2 - b < r ^ 2

theorem octInv_start {r : Int} (hr : 0 < r) : OctInv r 0 r (1 - r) where
  acc := by ring
  row := le_rfl
  low := by omega
  outer := by linarith
  inner _ := by linarith

/-- An iteration that keeps `b`. -/
theorem OctInv.keep {r a b d : Int} (h : OctInv r a b d) (hd : d < 0) : OctInv r (a + 1) b (d + 2 * a + 3) where
  acc := by rw [h.acc]; ring
  row := by linarith [h.row]
  low := by linarith [h.low]
  outer := by nlinarith [h.outer, h.row]
  inner _ := by linarith [h.acc]

/-- An iteration that lowers `b`. -/
theorem OctInv.lower {r a b d : Int} (h : OctInv r a b d) (hab : a ≤ b) (hd : 0 ≤ d) :
    OctInv r (a + 1) (b - 1) (d + 2 * (a - b) + 5) where
  acc := by rw [h.acc]; ring
  row := by linarith [h.row]
  low := by linarith [h.low]
  outer := by linarith [h.acc]
  inner hab' := by linarith [h.inner hab]

/-- In one row at most one column is nearest the circle. -/
theorem NearCircle.column_unique {r a b b' : Int} (h : NearCircle r a b) (h' : NearCircle r a b') (hb : 0 ≤ b) (hb' : 0 ≤ b') :
    b = b' := by
  obtain ⟨hin, hout⟩ := h
  obtain ⟨hin', hout'⟩ := h'
  rcases lt_trichotomy b b' with hlt | heq | hgt
  · nlinarith
  · exact heq
  · nlinarith

/-- Where the loop ends no octant point is left. -/
theorem OctInv.no_point_left {r a b d p q : Int} (h : OctInv r a b d) (hba : b < a) :
    ¬ (a ≤ p ∧ p ≤ q ∧ NearCircle r p q) := by
  rintro ⟨hap, hpq, hin, -⟩
  have hcol : b ^ 2 + b ≤ q ^ 2 - q := by nlinarith [h.low]
  have hrow : a ^ 2 ≤ p ^ 2 := pow_le_pow_left₀ h.row hap 2
  linarith [h.outer]

/-- The loop emits the octant points from row `a` on. -/
theorem mem_octLoop {r p q : Int} (n : Nat) {a b d : Int} (h : OctInv r a b d) (hn : b - a < n) :
    (p, q) ∈ octLoop n a b d ↔ a ≤ p ∧ p ≤ q ∧ NearCircle r p q := by
  induction n generalizing a b d with
  | zero => exact iff_of_false List.not_mem_nil (h.no_point_left (by omega))
  | succ n ih =>
    rw [octLoop]
    split
    · next hab =>
      have hrest : ((p, q) ∈ if d < 0 then octLoop n (a + 1) b (d + 2 * a + 3)
          else octLoop n (a + 1) (b - 1) (d + 2 * (a - b) + 5)) ↔ a + 1 ≤ p ∧ p ≤ q ∧ NearCircle r p q := by
        split
        · next hd => exact ih (h.keep hd) (by omega)
        · next hd => exact ih (h.lower hab (not_lt.mp hd)) (by omega)
      have hhere : NearCircle r a b := ⟨h.inner hab, h.outer⟩
      rw [List.mem_cons, hrest, Prod.mk.injEq]
      constructor
      · rintro (⟨rfl, rfl⟩ | ⟨hap, hp⟩)
        · exact ⟨le_rfl, hab, hhere⟩
        · exact ⟨by omega, hp⟩
      · rintro ⟨hap, hpq, hnear⟩
        rcases eq_or_lt_of_le hap with rfl | hlt
        · exact .inl ⟨rfl, hnear.column_unique hhere (h.row.trans hpq) (h.row.trans hab)⟩
        · exact .inr ⟨hlt, hpq, hnear⟩
    · next hab => exact iff_of_false List.not_mem_nil (h.no_point_left (not_le.mp hab))

/-- `Oct(0)` is the centre (R117). -/
theorem octPair_zero {a b : Int} : OctPair 0 a b ↔ a = 0 ∧ b = 0 := by
  constructor
  · rintro (⟨-, h⟩ | ⟨ha, hab, hin, -⟩)
    · exact h
    · exact absurd hin (by nlinarith)
  · exact fun h => .inl ⟨rfl, h⟩

/-- Settles O25: the loop from row 0 emits the octant points of all rows; radius 0 is a case of its own. -/
theorem octantPointsAreTheNearest : Obligations.OctantPointsAreTheNearest := by
  intro r a b hr
  rcases eq_or_lt_of_le hr with rfl | hpos
  · have hoct : oct 0 = [(0, 0)] := rfl
    rw [octPair_zero, hoct, List.mem_singleton, Prod.mk.injEq]
  · rw [oct, mem_octLoop _ (octInv_start hpos) (by omega)]
    exact (or_iff_right fun h => hpos.ne' h.1).symm

/-! ### CIRCLE -/

theorem abs_sub_eq_iff {a : Int} (ha : 0 ≤ a) (p c : Int) : |p - c| = a ↔ p = c + a ∨ p = c - a := by
  rw [abs_eq ha]
  omega

theorem mem_reflections {a b : Int} (ha : 0 ≤ a) (hb : 0 ≤ b) (x0 y0 px py : Int) :
    (px, py) ∈ reflections x0 y0 a b ↔ (|px - x0| = a ∧ |py - y0| = b) ∨ (|px - x0| = b ∧ |py - y0| = a) := by
  simp only [reflections, List.mem_cons, List.not_mem_nil, or_false, Prod.mk.injEq, abs_sub_eq_iff ha, abs_sub_eq_iff hb,
    and_or_left, or_and_right, or_assoc]

theorem mem_spans {a b : Int} (ha : 0 ≤ a) (hb : 0 ≤ b) (x0 y0 px py : Int) :
    (px, py) ∈ spans x0 y0 a b ↔ (|px - x0| ≤ a ∧ |py - y0| = b) ∨ (|px - x0| ≤ b ∧ |py - y0| = a) := by
  simp only [spans, List.mem_append, mem_hSpan, abs_le, abs_sub_eq_iff ha, abs_sub_eq_iff hb]
  omega

/-- The points of CIRCLE are those of the octant points' figures (R116). -/
theorem mem_circlePoints {r : Int} (hr : 0 ≤ r) {P : Int → Int → Prop} {x0 y0 px py : Int} {fill : Bool}
    (hP : ∀ a b, 0 ≤ a → 0 ≤ b → ((px, py) ∈ (if fill then spans x0 y0 a b else reflections x0 y0 a b) ↔ P a b)) :
    (px, py) ∈ circlePoints x0 y0 r fill ↔ ∃ a b, OctPair r a b ∧ P a b := by
  simp only [circlePoints, List.mem_flatMap, Prod.exists, octantPointsAreTheNearest r _ _ hr]
  refine exists_congr fun a => exists_congr fun b => and_congr_right fun hab => ?_
  exact hP a b hab.nonneg.1 hab.nonneg.2

theorem mem_circlePoints_outline {r : Int} (hr : 0 ≤ r) (x0 y0 px py : Int) :
    (px, py) ∈ circlePoints x0 y0 r false ↔ CircleBorder x0 y0 r px py :=
  mem_circlePoints hr fun _ _ ha hb => mem_reflections ha hb x0 y0 px py

theorem mem_circlePoints_filled {r : Int} (hr : 0 ≤ r) (x0 y0 px py : Int) :
    (px, py) ∈ circlePoints x0 y0 r true ↔ CircleDisc x0 y0 r px py :=
  mem_circlePoints hr fun _ _ ha hb => mem_spans ha hb x0 y0 px py

/-- Settles O26: the points of outline CIRCLE are the reflections. -/
theorem outlineCircleDrawsTheReflections : Obligations.OutlineCircleDrawsTheReflections :=
  fun s x0 y0 _ g hL hm hr => draws_of_exec hL hm (exec_circle hr x0 y0 g false s) (mem_circlePoints_outline hr _ _)

/-- Settles O27: the points of filled CIRCLE are those of the spans. -/
theorem filledCircleDrawsTheSpans : Obligations.FilledCircleDrawsTheSpans :=
  fun s x0 y0 _ g hL hm hr => draws_of_exec hL hm (exec_circle hr x0 y0 g true s) (mem_circlePoints_filled hr _ _)

/-! ### The disc a filled CIRCLE covers (R119 (b)) -/

/-- A property of integers that some `u` has and none beyond a bound holds of a last one from `u` on. -/
theorem exists_last_of_bounded {P : Int → Prop} {B u : Int} (hB : ∀ z, P z → z ≤ B) (hu : P u) :
    ∃ z, u ≤ z ∧ P z ∧ ¬ P (z + 1) := by
  obtain ⟨z, hz, hmax⟩ := Int.exists_greatest_of_bdd ⟨B, hB⟩ ⟨u, hu⟩
  exact ⟨z, hmax u hu, hz, fun hz' => by linarith [hmax _ hz']⟩

section
variable {r u v : Int} (hu : 0 ≤ u) (hv : 0 ≤ v) (hin : u ^ 2 + v ^ 2 < r ^ 2)
include hu hv hin

/-- A row the octant reaches: the octant point of that row is beyond every `u` inside the circle. -/
theorem exists_octPair_row (hr : 0 ≤ r) (hdiag : v ^ 2 + v ^ 2 - v < r ^ 2) : ∃ b, u ≤ b ∧ OctPair r v b := by
  have hmax : v ^ 2 + max u v ^ 2 - max u v < r ^ 2 := by
    rcases max_cases u v with ⟨h, -⟩ | ⟨h, -⟩ <;> rw [h] <;> linarith
  obtain ⟨b, hb, hlt, hnot⟩ := exists_last_of_bounded (P := fun b => v ^ 2 + b ^ 2 - b < r ^ 2) (B := r)
    (fun z hz => by nlinarith) hmax
  obtain ⟨hub, hvb⟩ := max_le_iff.mp hb
  exact ⟨b, hub, .inr ⟨hv, hvb, hlt, by linarith⟩⟩

/-- A row beyond the octant's diagonal is the column of an octant point whose row is beyond every `u` inside the circle. -/
theorem exists_octPair_column (hdiag : r ^ 2 ≤ v ^ 2 + v ^ 2 - v) : ∃ a, u ≤ a ∧ OctPair r a v := by
  obtain ⟨a, hua, hlt, hnot⟩ := exists_last_of_bounded (P := fun a => a ^ 2 + v ^ 2 - v < r ^ 2) (B := v)
    (fun z hz => by nlinarith) (by linarith : u ^ 2 + v ^ 2 - v < r ^ 2)
  have hav : a < v := lt_of_pow_lt_pow_left₀ 2 hv (by linarith)
  exact ⟨a, hua, .inr ⟨hu.trans hua, hav.le, hlt, by linarith⟩⟩

end

/-- Every pixel inside the circle is in a span. -/
theorem circleDisc_of_lt {x0 y0 r px py : Int} (hr : 0 ≤ r) (hin : (px - x0) ^ 2 + (py - y0) ^ 2 < r ^ 2) :
    CircleDisc x0 y0 r px py := by
  rw [← sq_abs (px - x0), ← sq_abs (py - y0)] at hin
  by_cases hdiag : |py - y0| ^ 2 + |py - y0| ^ 2 - |py - y0| < r ^ 2
  · obtain ⟨b, hub, hpair⟩ := exists_octPair_row (abs_nonneg _) (abs_nonneg _) hin hr hdiag
    exact ⟨_, b, hpair, .inr ⟨hub, rfl⟩⟩
  · obtain ⟨a, hua, hpair⟩ := exists_octPair_column (abs_nonneg _) (abs_nonneg _) hin (not_lt.mp hdiag)
    exact ⟨a, _, hpair, .inl ⟨hua, rfl⟩⟩

/-- An octant point is within `r + 1` of the centre. -/
theorem OctPair.sq_le {r a b : Int} (h : OctPair r a b) (hr : 0 ≤ r) : a ^ 2 + b ^ 2 ≤ (r + 1) ^ 2 := by
  rcases h with ⟨rfl, rfl, rfl⟩ | ⟨ha, hab, hin, -⟩
  · decide
  · have hbr : b ≤ r := by nlinarith
    nlinarith

/-- Every pixel in a span is within `r + 1` of the centre. -/
theorem CircleDisc.sq_le {x0 y0 r px py : Int} (h : CircleDisc x0 y0 r px py) (hr : 0 ≤ r) :
    (px - x0) ^ 2 + (py - y0) ^ 2 ≤ (r + 1) ^ 2 := by
  obtain ⟨a, b, hpair, hspan⟩ := h
  rw [← sq_abs (px - x0), ← sq_abs (py - y0)]
  rcases hspan with ⟨hx, hy⟩ | ⟨hx, hy⟩ <;> rw [hy] <;>
    linarith [hpair.sq_le hr, pow_le_pow_left₀ (abs_nonneg (px - x0)) hx 2]

/-- Settles O28: the spans hold the circle's inside and keep within `r + 1`. -/
theorem filledCircleCoversTheDisc : Obligations.FilledCircleCoversTheDisc := by
  intro s x0 y0 r g hL hm hr
  obtain ⟨t, hexec, hdrew, -⟩ := filledCircleDrawsTheSpans s x0 y0 r g hL hm hr
  refine ⟨t, hexec, fun px py hp => ⟨fun hr1 hin => ?_, fun hout => ?_⟩⟩
  · exact hdrew.painted px py hp (circleDisc_of_lt hr (by nlinarith))
  · exact hdrew.kept px py hp fun hdisc => (hdisc.sq_le hr).not_gt hout

/-! ### CIRCLEAA -/

/-- The inside gets the level `g` (R118). -/
theorem aaLevel_inside {x0 y0 r px py : Int} (hr : 1 ≤ r) (hin : (px - x0) ^ 2 + (py - y0) ^ 2 ≤ (r - 1) ^ 2) (g : Gray) :
    aaLevel x0 y0 r g px py = some g := if_pos ⟨hr, hin⟩

/-- The outside is not written (R118). -/
theorem aaLevel_outside {x0 y0 r px py : Int} (hout : (r + 1) ^ 2 ≤ (px - x0) ^ 2 + (py - y0) ^ 2) (g : Gray) :
    aaLevel x0 y0 r g px py = none :=
  (if_neg fun h => by nlinarith [h.1, h.2]).trans (if_pos hout)

/-- The free level of a band pixel is not above `g` (R118). -/
theorem bandLevel_le {x0 y0 r px py : Int} {g l : Gray} (h : bandLevel x0 y0 r g px py = some l) : l ≤ g := by
  unfold bandLevel at h
  split at h
  · split at h
    · next hle =>
      cases h
      exact hle
    · cases h
  · cases h

/-- No level written is above `g` (R118). -/
theorem aaLevel_le {x0 y0 r px py : Int} {g l : Gray} (h : aaLevel x0 y0 r g px py = some l) : l ≤ g := by
  simp only [aaLevel] at h
  split at h
  · cases h
    exact BitVec.le_refl _
  · split at h
    · cases h
    · exact bandLevel_le h

theorem mem_aaPlots {x0 y0 r : Int} {g : Gray} {p : Plot} :
    p ∈ aaPlots x0 y0 r g ↔ (y0 - (r + 1) ≤ p.y ∧ p.y ≤ y0 + (r + 1)) ∧ (x0 - (r + 1) ≤ p.x ∧ p.x ≤ x0 + (r + 1)) ∧
      aaLevel x0 y0 r g p.x p.y = some p.g := by
  simp only [aaPlots, List.mem_flatMap, List.mem_filterMap, mem_intRange, Option.map_eq_some_iff]
  constructor
  · rintro ⟨py, hy, px, hx, l, hl, rfl⟩
    exact ⟨hy, hx, hl⟩
  · rintro ⟨hy, hx, hl⟩
    exact ⟨p.y, hy, p.x, hx, p.g, hl, rfl⟩

/-- A write of CIRCLEAA is nearer the centre than `r + 1` (R118). -/
theorem sq_lt_of_mem_aaPlots {x0 y0 r : Int} {g : Gray} {p : Plot} (h : p ∈ aaPlots x0 y0 r g) :
    (p.x - x0) ^ 2 + (p.y - y0) ^ 2 < (r + 1) ^ 2 := by
  obtain ⟨-, -, hl⟩ := mem_aaPlots.mp h
  by_contra hout
  rw [aaLevel_outside (not_lt.mp hout)] at hl
  cases hl

/-- The box CIRCLEAA visits holds the inside (R118). -/
theorem mem_aaPlots_inside {x0 y0 r px py : Int} (hr : 1 ≤ r) (hin : (px - x0) ^ 2 + (py - y0) ^ 2 ≤ (r - 1) ^ 2) (g : Gray) :
    (⟨px, py, g⟩ : Plot) ∈ aaPlots x0 y0 r g := by
  have hx := abs_le.mp (abs_le_of_sq_le_sq (by nlinarith [sq_nonneg (py - y0)] : (px - x0) ^ 2 ≤ (r - 1) ^ 2) (by omega))
  have hy := abs_le.mp (abs_le_of_sq_le_sq (by nlinarith [sq_nonneg (px - x0)] : (py - y0) ^ 2 ≤ (r - 1) ^ 2) (by omega))
  refine mem_aaPlots.mpr ⟨?_, ?_, aaLevel_inside hr hin g⟩ <;> dsimp only <;> omega

section
variable {s : State} (hL : s.cfg.layout.Legal) (hm : s.fb.wf = true) {px py : Int} (hp : InPanel px py) (x0 y0 r : Int) (g : Gray)
include hL hm hp

/-- A pixel CIRCLEAA does not write keeps its level. -/
theorem levelAt_circleaa_kept (h : ∀ p ∈ aaPlots x0 y0 r g, ¬ (p.x = px ∧ p.y = py)) :
    levelAt (s.draw (aaPlots x0 y0 r g)) px py = levelAt s px py :=
  pixRead_plotAll_other hL _ hm hp h

/-- A pixel CIRCLEAA writes ends at a level of `S`, where `S` holds the level it wants at that pixel. -/
theorem levelAt_circleaa_written (S : Gray → Prop) (hex : ∃ p ∈ aaPlots x0 y0 r g, p.x = px ∧ p.y = py)
    (hS : ∀ l, aaLevel x0 y0 r g px py = some l → S l) : S (levelAt (s.draw (aaPlots x0 y0 r g)) px py) := by
  refine pixRead_plotAll_named hL S _ hm hp hex ?_
  rintro p hpm ⟨rfl, rfl⟩
  exact hS p.g (mem_aaPlots.mp hpm).2.2

end

/-- Settles O29: inside, outside and band are the three cases of the level CIRCLEAA writes. -/
theorem circleaaFixesInsideAndOutside : Obligations.CircleaaFixesInsideAndOutside := by
  intro s x0 y0 r g hL hm haa hr
  refine ⟨_, exec_circleaa haa hr x0 y0 g, drawEnded_draw s _, rfl,
    fun px py hp => ⟨?_, fun hout => ?_, fun _ => ?_⟩, fun i hi => ?_⟩
  · rintro ⟨hr1, hin⟩
    refine levelAt_circleaa_written hL hm hp _ _ _ g (fun l => l = g) ⟨_, mem_aaPlots_inside hr1 hin g, rfl, rfl⟩ fun l hl => ?_
    rw [aaLevel_inside hr1 hin] at hl
    exact (Option.some.inj hl).symm
  · refine levelAt_circleaa_kept hL hm hp _ _ _ g ?_
    rintro p hpm ⟨rfl, rfl⟩
    exact (sq_lt_of_mem_aaPlots hpm).not_ge hout
  · by_cases hex : ∃ p ∈ aaPlots x0.toInt y0.toInt r.toInt g, p.x = px ∧ p.y = py
    · exact .inr (levelAt_circleaa_written hL hm hp _ _ _ g (fun l => l ≤ g) hex fun l hl => aaLevel_le hl)
    · exact .inl (levelAt_circleaa_kept hL hm hp _ _ _ g fun p hpm hpx => hex ⟨p, hpm, hpx⟩)
  · exact read_plotAll_other _ _ hm i fun p hpm hin => hi p.x p.y hin (sq_lt_of_mem_aaPlots hpm)

end Sys2Proof.Machine
end

section
/-! SUPPORT. The proofs of the statements about GLYPH and TEXT (spec 42_text.md R130 to R141). -/

namespace Sys2Proof.Machine

/-! ### What GLYPH and TEXT draw -/

theorem zx_ne_zero {scale : Byte} (h : scale ≠ 0) : zx scale ≠ 0 :=
  fun h0 => h (BitVec.eq_of_toNat_eq h0)

/-- GLYPH of a scale other than 0 writes its points (R136). -/
theorem exec_glyph {scale : Byte} (hs : scale ≠ 0) (ch : Byte) (x y : Half) (g : Gray) (angle : Half) (s : State) :
    exec (.glyph ch x y g scale angle) s =
      .next (s.draw (plotsOf g (glyphPoints s.cfg ch x.toInt y.toInt scale.toNat (angle.toInt % 360).toNat))) :=
  congrArg Host.Outcome.next (if_neg (zx_ne_zero hs))

/-- TEXT of a scale other than 0 writes its points (R139). -/
theorem exec_text {scale : Byte} (hs : scale ≠ 0) (chars : List Byte) (x y : Half) (g : Gray) (spacing : Byte) (angle : Half)
    (f : Bool) (s : State) :
    exec (.text chars x y g scale spacing angle f) s =
      .next (s.draw (plotsOf g (textPoints s.cfg chars x y scale spacing angle f))) :=
  congrArg Host.Outcome.next (if_neg (zx_ne_zero hs))

/-! ### The cell (R131) -/

/-- A coordinate of the cell is a block of the bitmap and an offset in it. -/
theorem exists_block_iff {scale u : Nat} {P : Nat → Prop} :
    (∃ col < 8, ∃ i < scale, col * scale + i = u ∧ P col) ↔ u < 8 * scale ∧ P (u / scale) := by
  constructor
  · rintro ⟨col, hcol, i, hi, rfl, hP⟩
    have hdiv : (col * scale + i) / scale = col := by
      rw [Nat.mul_comm, Nat.mul_add_div (by omega), Nat.div_eq_of_lt hi, Nat.add_zero]
    exact ⟨by nlinarith, hdiv.symm ▸ hP⟩
  · rintro ⟨hu, hP⟩
    exact ⟨u / scale, Nat.div_lt_of_lt_mul (Nat.mul_comm 8 scale ▸ hu), u % scale, Nat.mod_lt _ (by omega),
      Nat.div_add_mod' u scale, hP⟩

/-- The set cell pixels (R131). -/
theorem mem_setCells {G : Glyph} {scale u v : Nat} :
    (u, v) ∈ setCells G scale ↔ u < 8 * scale ∧ v < 8 * scale ∧ glyphBit G (v / scale) (u / scale) = true := by
  have hloops : (u, v) ∈ setCells G scale ↔ ∃ row < 8, ∃ j < scale, row * scale + j = v ∧
      ∃ col < 8, ∃ i < scale, col * scale + i = u ∧ glyphBit G row col = true := by
    simp only [setCells, List.mem_flatMap, List.mem_range, List.mem_ite_nil_right, List.mem_map, Prod.mk.injEq]
    constructor
    · rintro ⟨row, hrow, col, hcol, hbit, j, hj, i, hi, hu, hv⟩
      exact ⟨row, hrow, j, hj, hv, col, hcol, i, hi, hu, hbit⟩
    · rintro ⟨row, hrow, j, hj, hv, col, hcol, i, hi, hu, hbit⟩
      exact ⟨row, hrow, col, hcol, hbit, j, hj, i, hi, hu, hv⟩
  rw [hloops]
  simp only [exists_block_iff]
  tauto

/-! ### The points of a glyph (R135, R136) -/

theorem glyphPoints_of_absent {cfg : Config} {c : Byte} (h : fontGlyph cfg c = none) (gx gy : Int) (scale a : Nat) :
    glyphPoints cfg c gx gy scale a = [] := by
  simp only [glyphPoints, h]

theorem glyphPoints_of_not_fits {cfg : Config} {gx gy : Int} {scale a : Nat} (h : ¬ Fits cfg gx gy a scale) (c : Byte) :
    glyphPoints cfg c gx gy scale a = [] := by
  unfold glyphPoints
  cases fontGlyph cfg c with
  | none => rfl
  | some G => exact if_neg h

/-- A glyph that fits writes its set cell pixels, turned by `ROT`. -/
theorem mem_glyphPoints {cfg : Config} {c : Byte} {G : Glyph} {gx gy : Int} {scale a : Nat} (hG : fontGlyph cfg c = some G)
    (hfit : Fits cfg gx gy a scale) (px py : Int) :
    (px, py) ∈ glyphPoints cfg c gx gy scale a ↔ ∃ u v : Nat, u < 8 * scale ∧ v < 8 * scale ∧
      glyphBit G (v / scale) (u / scale) = true ∧ px = gx + (rot cfg a scale u v).1 ∧ py = gy + (rot cfg a scale u v).2 := by
  simp only [glyphPoints, hG, if_pos hfit, List.mem_map, Prod.exists, mem_setCells, Prod.mk.injEq, and_assoc, eq_comm]

/-- A glyph that fits has every turned cell pixel on the panel (R136). -/
theorem inPanel_of_fits {cfg : Config} {gx gy : Int} {scale a : Nat} (hfit : Fits cfg gx gy a scale) {u v : Nat}
    (hu : u < 8 * scale) (hv : v < 8 * scale) :
    InPanel (gx + (rot cfg a scale u v).1) (gy + (rot cfg a scale u v).2) := by
  obtain ⟨hleft, htop, hright, hbottom⟩ := hfit
  obtain ⟨hrotu, hrotv⟩ := rot_mem_bbox cfg a scale u v hu hv
  unfold InPanel
  omega

/-- A GLYPH without points leaves the buffer. -/
theorem glyph_of_no_points {s : State} {ch : Byte} {x y : Half} {scale : Byte} {angle : Half} (hs : scale ≠ 0)
    (h : glyphPoints s.cfg ch x.toInt y.toInt scale.toNat (angle.toInt % 360).toNat = []) (g : Gray) :
    ∃ t, exec (.glyph ch x y g scale angle) s = .next t ∧ t.fb = s.fb ∧ DrawEnded s t ∧ t.free = s.free :=
  ⟨_, exec_glyph hs ch x y g angle s, by rw [h]; rfl, drawEnded_draw s _, rfl⟩

/-! ### The right angles (R134) -/

/-- The table of R134 is that many quarter turns. -/
theorem rot_right_angle (cfg : Config) (scale u v : Nat) {q : Nat} (hq : q < 4) :
    rot cfg (90 * q) scale u v = quarterTurns (8 * scale) q (u, v) := by
  interval_cases q <;> simp [rot, quarterTurns, quarterTurn, cellSide]

/-- Settles O34: the table of R134 is the quarter turns, and `BBOX`, the cell, contains its values. -/
theorem rightAnglesAreQuarterTurns : Obligations.RightAnglesAreQuarterTurns := by
  intro cfg scale u v q hu hv hq
  obtain ⟨⟨hu0, hu1⟩, hv0, hv1⟩ := rot_mem_bbox cfg (90 * q) scale u v hu hv
  simp only [bbox, Nat.mul_mod_right, if_true, cellSide] at hu0 hu1 hv0 hv1
  refine ⟨rot_right_angle cfg scale u v hq, hu0, by omega, hv0, by omega, ?_⟩
  simp [quarterTurns, quarterTurn]

/-- A glyph whose cell is on the panel writes, at a right angle, its turned cell (R136). -/
theorem mem_glyphPoints_right_angle {cfg : Config} {c : Byte} {G : Glyph} {gx gy : Int} {scale q : Nat}
    (hG : fontGlyph cfg c = some G) (hq : q < 4) (hcell : CellOnPanel scale gx gy) (px py : Int) :
    (px, py) ∈ glyphPoints cfg c gx gy scale (90 * q) ↔ GlyphSet G scale q gx gy px py := by
  have hfit := (fits_right_angle cfg gx gy (90 * q) scale (Nat.mul_mod_right 90 q)).mpr hcell
  simp only [mem_glyphPoints hG hfit, GlyphSet, rot_right_angle cfg scale _ _ hq, Prod.mk.injEq]

/-! ### GLYPH -/

/-- Settles O31: a GLYPH at a right angle draws the points of its turned cell. -/
theorem glyphDrawsItsTurnedCell : Obligations.GlyphDrawsItsTurnedCell := by
  intro s ch x y g scale angle G q hL hm hs hq hangle hG hcell
  have hangle : (angle.toInt % 360).toNat = 90 * q := by omega
  refine draws_of_exec hL hm (exec_glyph hs ch x y g angle s) fun px py => ?_
  rw [hangle]
  exact mem_glyphPoints_right_angle hG hq hcell px py

/-- Settles O32: an absent character has no points, and the three other causes are ways not to fit. -/
theorem glyphThatDoesNotFitDrawsNothing : Obligations.GlyphThatDoesNotFitDrawsNothing := by
  intro s ch x y g scale angle hs hwhy
  refine glyph_of_no_points hs ?_ g
  rcases hwhy with habsent | hbox | hwide | ⟨hright, hcell⟩
  · exact glyphPoints_of_absent habsent _ _ _ _
  · exact glyphPoints_of_not_fits hbox ch
  · exact glyphPoints_of_not_fits (not_fits_wide s.cfg _ _ _ _ hwide) ch
  · refine glyphPoints_of_not_fits (fun hfit => hcell ?_) ch
    exact (fits_right_angle s.cfg _ _ _ _ (by omega)).mp hfit

/-- Settles O33: the pre-flight check decides between all points and none. -/
theorem glyphIsDrawnWholeOrNotAtAll : Obligations.GlyphIsDrawnWholeOrNotAtAll := by
  intro s ch x y g scale angle G hL hm hs hG
  by_cases hfit : BoxOnPanel (bbox s.cfg (angle.toInt % 360).toNat scale.toNat) x.toInt y.toInt
  · obtain ⟨t, hexec, hdrew, hended, -⟩ := draws_of_exec hL hm (exec_glyph hs ch x y g angle s) (mem_glyphPoints hG hfit)
    refine ⟨t, hexec, hended, ?_⟩
    rw [if_pos hfit]
    exact ⟨fun u v hu hv => inPanel_of_fits hfit hu hv, hdrew⟩
  · obtain ⟨t, hexec, hfb, hended, -⟩ := glyph_of_no_points hs (glyphPoints_of_not_fits hfit ch) g
    exact ⟨t, hexec, hended, by rwa [if_neg hfit]⟩

/-! ### The cells of a TEXT, line by line (R139, R140) -/

/-- A line's characters in the order they are drawn (R140). -/
def LineSpec.order (L : LineSpec) (l : List Byte) : List Byte := if L.rev then l.reverse else l

@[simp] theorem LineSpec.mem_order (L : LineSpec) (l : List Byte) (c : Byte) : c ∈ L.order l ↔ c ∈ l := by
  unfold LineSpec.order
  split <;> simp

@[simp] theorem LineSpec.length_order (L : LineSpec) (l : List Byte) : (L.order l).length = l.length := by
  unfold LineSpec.order
  split <;> simp

theorem LineSpec.order_filter (L : LineSpec) (keep : Byte → Bool) (l : List Byte) :
    L.order (l.filter keep) = (L.order l).filter keep := by
  unfold LineSpec.order
  split <;> simp

/-- The cells of a line that begins at row `cy`, and the row it ends at. -/
def lineRun (cfg : Config) (L : LineSpec) (l : List Byte) (cy : Int) : List Place × Int :=
  layoutLine cfg L (L.order l) L.x cy

theorem layoutLines_cons (cfg : Config) (L : LineSpec) (l : List Byte) (ls : List (List Byte)) (cy : Int) :
    layoutLines cfg L (l :: ls) cy = (lineRun cfg L l cy).1 ++ layoutLines cfg L ls ((lineRun cfg L l cy).2 + L.lh) := rfl

/-- The row line `j` begins at, line 0 at `cy`. -/
def lineRow (cfg : Config) (L : LineSpec) : List (List Byte) → Int → Nat → Int
  | _, cy, 0 => cy
  | [], cy, _ + 1 => cy
  | l :: ls, cy, j + 1 => lineRow cfg L ls ((lineRun cfg L l cy).2 + L.lh) j

@[simp] theorem lineRow_zero (cfg : Config) (L : LineSpec) (ls : List (List Byte)) (cy : Int) : lineRow cfg L ls cy 0 = cy := by
  cases ls <;> rfl

/-- A line begins one line height below the row the line before ended at. -/
theorem lineRow_succ (cfg : Config) (L : LineSpec) {ls : List (List Byte)} {l : List Byte} {j : Nat} (h : ls[j]? = some l) (cy : Int) :
    lineRow cfg L ls cy (j + 1) = (lineRun cfg L l (lineRow cfg L ls cy j)).2 + L.lh := by
  induction ls generalizing j cy with
  | nil => simp at h
  | cons m ms ih =>
    cases j with
    | zero =>
      obtain rfl : m = l := by simpa using h
      simp [lineRow]
    | succ j => exact ih (by simpa using h) _

/-- The cells of line `j`. -/
def linePlaces (cfg : Config) (L : LineSpec) (ls : List (List Byte)) (cy : Int) (j : Nat) : List Place :=
  (lineRun cfg L (ls.getD j []) (lineRow cfg L ls cy j)).1

theorem linePlaces_eq (cfg : Config) (L : LineSpec) {ls : List (List Byte)} {l : List Byte} {j : Nat} (h : ls[j]? = some l) (cy : Int) :
    linePlaces cfg L ls cy j = (lineRun cfg L l (lineRow cfg L ls cy j)).1 := by
  rw [linePlaces, List.getD_eq_getElem?_getD, h, Option.getD_some]

/-- The cells of a TEXT are those of its lines. -/
theorem mem_layoutLines (cfg : Config) (L : LineSpec) (ls : List (List Byte)) (cy : Int) (p : Place) :
    p ∈ layoutLines cfg L ls cy ↔ ∃ j < ls.length, p ∈ linePlaces cfg L ls cy j := by
  induction ls generalizing cy with
  | nil => simp [layoutLines]
  | cons m ms ih =>
    rw [layoutLines_cons, List.mem_append, ih]
    constructor
    · rintro (hp | ⟨j, hj, hp⟩)
      · exact ⟨0, Nat.succ_pos _, hp⟩
      · exact ⟨j + 1, Nat.succ_lt_succ hj, hp⟩
    · rintro ⟨j, hj, hp⟩
      cases j with
      | zero => exact .inl hp
      | succ j => exact .inr ⟨j, Nat.lt_of_succ_lt_succ hj, hp⟩

/-- The cells of a line keep the wrap rule, and the next line begins below the last of them. -/
theorem lineCells_linePlaces (cfg : Config) (L : LineSpec) {ls : List (List Byte)} {l : List Byte} {j : Nat} (h : ls[j]? = some l)
    (cy : Int) :
    LineCells cfg L.start L.n L.adv L.lh L.rev l (lineRow cfg L ls cy j) (linePlaces cfg L ls cy j) ∧
      lineRow cfg L ls cy (j + 1) = lastRow (lineRow cfg L ls cy j) (linePlaces cfg L ls cy j) + L.lh := by
  obtain ⟨hcells, hlast⟩ := lineCells_layoutLine cfg L l (lineRow cfg L ls cy j)
  rw [linePlaces_eq cfg L h, lineRow_succ cfg L h]
  exact ⟨hcells, congrArg (· + L.lh) hlast⟩

/-- TEXT draws the points of the glyphs in the cells of its lines. -/
theorem text_draws {s : State} {lines : List (List Byte)} {scale : Byte} (hL : s.cfg.layout.Legal) (hm : s.fb.wf = true)
    (hs : scale ≠ 0) (hne : lines ≠ []) (hnl : ∀ l ∈ lines, s.cfg.newline ∉ l) (x y : Half) (g : Gray) (spacing : Byte)
    (angle : Half) (f : Bool) :
    ∃ t, exec (.text (List.intercalate [s.cfg.newline] lines) x y g scale spacing angle f) s = .next t ∧
      Drew (fun px py => ∃ (j : Nat) (p : Place), j < lines.length ∧
        p ∈ linePlaces s.cfg (lineSpec s.cfg x scale spacing f) lines y.toInt j ∧
        (px, py) ∈ glyphPoints s.cfg p.ch p.gx p.gy scale.toNat (angle.toInt % 360).toNat) g s t ∧
      DrawEnded s t ∧ t.free = s.free := by
  refine draws_of_exec hL hm (exec_text hs _ x y g spacing angle f s) fun px py => ?_
  simp only [textPoints, textPlaces, splitLines_intercalate _ _ hne hnl, List.mem_flatMap, mem_layoutLines]
  constructor
  · rintro ⟨p, ⟨j, hj, hp⟩, hpt⟩
    exact ⟨j, p, hj, hp, hpt⟩
  · rintro ⟨j, p, hj, hp, hpt⟩
    exact ⟨p, ⟨j, hj, hp⟩, hpt⟩

/-- Settles O36: the cells of line `j` are `linePlaces`, from the row `lineRow`. -/
theorem textCellsKeepTheWrapRule : Obligations.TextCellsKeepTheWrapRule := by
  rintro s lines x y g scale spacing angle f _ _ hL hm hs hne hnl rfl rfl
  obtain ⟨t, hexec, hdrew, hended, hfree⟩ := text_draws hL hm hs hne hnl x y g spacing angle f
  refine ⟨t, lineRow s.cfg (lineSpec s.cfg x scale spacing f) lines y.toInt, _, hexec, hended, hfree, lineRow_zero .., ?_, hdrew⟩
  exact fun j l hl => lineCells_linePlaces s.cfg (lineSpec s.cfg x scale spacing f) hl y.toInt

/-! ### Lines that need no wrap -/

/-- The cursor after `k` cells that needed no wrap (R139, R140). -/
def LineSpec.cursor (L : LineSpec) (cx : Int) (k : Nat) : Int := if L.rev then cx - k * L.adv else cx + k * L.adv

@[simp] theorem LineSpec.cursor_zero (L : LineSpec) (cx : Int) : L.cursor cx 0 = cx := by
  simp [LineSpec.cursor]

theorem LineSpec.cursor_succ (L : LineSpec) (cx : Int) (k : Nat) :
    L.cursor cx (k + 1) = L.cursor (if L.rev then cx - L.adv else cx + L.adv) k := by
  unfold LineSpec.cursor
  push_cast
  split <;> ring

/-- The column of the cell drawn at cursor `cx`: beside it on the right, in reverse on the left (R139, R140). -/
def LineSpec.column (L : LineSpec) (cx : Int) : Int := if L.rev then cx - L.n else cx

/-- A line of present characters none of which wraps has the cells of its characters in order, all in one row. -/
theorem layoutLine_no_wrap {cfg : Config} {L : LineSpec} {cs : List Byte} (hpres : ∀ c ∈ cs, fontGlyph cfg c ≠ none) {cx : Int}
    (hfit : ∀ k < cs.length, ¬ Wraps L (L.cursor cx k)) (cy : Int) :
    layoutLine cfg L cs cx cy = (cs.mapIdx fun k c => ⟨c, L.column (L.cursor cx k), cy⟩, cy) := by
  induction cs generalizing cx with
  | nil => rfl
  | cons c cs ih =>
    have hc : fontGlyph cfg c ≠ none := hpres c List.mem_cons_self
    have hstay : ¬ Wraps L cx := L.cursor_zero cx ▸ hfit 0 (Nat.succ_pos _)
    have hrest := ih (fun d hd => hpres d (List.mem_cons_of_mem c hd)) (cx := if L.rev then cx - L.adv else cx + L.adv)
      (fun k hk => L.cursor_succ cx k ▸ hfit (k + 1) (Nat.succ_lt_succ hk))
    simp only [layoutLine, hc, hstay, if_false, hrest, List.mapIdx_cons, LineSpec.cursor_zero, LineSpec.cursor_succ, LineSpec.column]

section
variable {cfg : Config} {L : LineSpec} {ls : List (List Byte)} (hpres : ∀ l ∈ ls, ∀ c ∈ l, fontGlyph cfg c ≠ none)
  (hfit : ∀ l ∈ ls, ∀ k < l.length, ¬ Wraps L (L.cursor L.x k))
include hpres hfit

/-- A line that needs no wrap stays in its row. -/
theorem lineRun_no_wrap {l : List Byte} (hl : l ∈ ls) (cy : Int) :
    lineRun cfg L l cy = ((L.order l).mapIdx fun k c => ⟨c, L.column (L.cursor L.x k), cy⟩, cy) :=
  layoutLine_no_wrap (fun c hc => hpres l hl c ((L.mem_order l c).mp hc)) (fun k hk => hfit l hl k (L.length_order l ▸ hk)) cy

/-- Each line begins one line height below the one before. -/
theorem lineRow_no_wrap (cy : Int) {j : Nat} (hj : j ≤ ls.length) : lineRow cfg L ls cy j = cy + j * L.lh := by
  induction j with
  | zero => simp
  | succ j ih =>
    have hl := List.getElem?_eq_getElem hj
    rw [lineRow_succ cfg L hl, lineRun_no_wrap hpres hfit (List.mem_of_getElem? hl), ih (Nat.le_of_succ_le hj)]
    push_cast
    ring

/-- The cells of a line stand at the cursor's multiples of the advance. -/
theorem mem_linePlaces_no_wrap {l : List Byte} {j : Nat} (hl : ls[j]? = some l) (cy : Int) (p : Place) :
    p ∈ linePlaces cfg L ls cy j ↔ ∃ (k : Nat) (c : Byte), (L.order l)[k]? = some c ∧
      p = ⟨c, L.column (L.cursor L.x k), cy + j * L.lh⟩ := by
  obtain ⟨hj, -⟩ := List.getElem?_eq_some_iff.mp hl
  rw [linePlaces_eq cfg L hl, lineRun_no_wrap hpres hfit (List.mem_of_getElem? hl), lineRow_no_wrap hpres hfit cy hj.le,
    List.mem_mapIdx]
  constructor
  · rintro ⟨k, hk, rfl⟩
    exact ⟨k, _, List.getElem?_eq_getElem hk, rfl⟩
  · rintro ⟨k, c, hc, rfl⟩
    obtain ⟨hk, rfl⟩ := List.getElem?_eq_some_iff.mp hc
    exact ⟨k, hk, rfl⟩

end

section
variable (cfg : Config) (x : Half) (scale spacing : Byte) (f : Bool) (k : Nat)

/-- A TEXT's cursor wraps where its cell would leave the panel (R139, R140). -/
theorem wraps_lineSpec : Wraps (lineSpec cfg x scale spacing f) ((lineSpec cfg x scale spacing f).cursor x.toInt k) ↔
    ¬ (if f then 0 ≤ x.toInt - k * (8 * scale.toNat + spacing.toNat) - 8 * scale.toNat
      else x.toInt + k * (8 * scale.toNat + spacing.toNat) + 8 * scale.toNat ≤ 300) := by
  cases f <;> simp [Wraps, LineSpec.cursor, lineSpec, cellSide]

/-- The column of a TEXT's `k`-th cell of a line (R139, R140). -/
theorem column_lineSpec :
    (lineSpec cfg x scale spacing f).column ((lineSpec cfg x scale spacing f).cursor x.toInt k) =
      if f then x.toInt - 8 * scale.toNat - k * (8 * scale.toNat + spacing.toNat)
      else x.toInt + k * (8 * scale.toNat + spacing.toNat) := by
  cases f <;> simp [LineSpec.column, LineSpec.cursor, lineSpec, cellSide, sub_right_comm]

end

/-- Settles O35: without a wrap each line's cells stand at the cursor's multiples of the advance. -/
theorem textLaysOutItsLines : Obligations.TextLaysOutItsLines := by
  rintro s lines x y g scale spacing angle f _ _ hL hm hs hne rfl rfl hchars hfit
  obtain ⟨t, hexec, hdrew, hended, hfree⟩ := text_draws hL hm hs hne (fun l hl hmem => (hchars l hl _ hmem).1 rfl) x y g spacing angle f
  refine ⟨t, hexec, hended, hfree, hdrew.congr fun px py => ?_⟩
  have hplaces {l : List Byte} {j : Nat} (hl : lines[j]? = some l) (p : Place) :
      p ∈ linePlaces s.cfg (lineSpec s.cfg x scale spacing f) lines y.toInt j ↔ ∃ (k : Nat) (c : Byte),
        (if f then l.reverse else l)[k]? = some c ∧
        p = ⟨c, if f then x.toInt - 8 * scale.toNat - k * (8 * scale.toNat + spacing.toNat)
          else x.toInt + k * (8 * scale.toNat + spacing.toNat), y.toInt + j * (8 * scale.toNat + s.cfg.lineGap)⟩ := by
    simp only [← column_lineSpec s.cfg]
    exact mem_linePlaces_no_wrap (fun l hl c hc => (hchars l hl c hc).2)
      (fun l hl k hk hwrap => (wraps_lineSpec s.cfg x scale spacing f k).mp hwrap (hfit l hl k hk)) hl y.toInt p
  constructor
  · rintro ⟨j, p, hj, hp, hpt⟩
    have hl := List.getElem?_eq_getElem hj
    obtain ⟨k, c, hc, rfl⟩ := (hplaces hl p).mp hp
    exact ⟨j, k, _, c, hl, hc, hpt⟩
  · rintro ⟨j, k, l, c, hl, hc, hpt⟩
    exact ⟨j, _, (List.getElem?_eq_some_iff.mp hl).1, (hplaces hl _).mpr ⟨k, c, hc, rfl⟩, hpt⟩

/-! ### Absent characters (R138) -/

/-- There is always a first line (R139). -/
theorem exists_splitLines_eq_cons (nl : Byte) (cs : List Byte) : ∃ l ls, splitLines nl cs = l :: ls := by
  cases cs with
  | nil => exact ⟨_, _, rfl⟩
  | cons c cs =>
    rw [splitLines]
    split
    · exact ⟨_, _, rfl⟩
    · split <;> exact ⟨_, _, rfl⟩

/-- Splitting a string without some characters other than the newline gives its lines without them. -/
theorem splitLines_filter {nl : Byte} {keep : Byte → Bool} (hnl : keep nl = true) (cs : List Byte) :
    splitLines nl (cs.filter keep) = (splitLines nl cs).map (List.filter keep) := by
  induction cs with
  | nil => rfl
  | cons c cs ih =>
    by_cases hc : c = nl
    · subst hc
      simp [splitLines, hnl, ih]
    · obtain ⟨l, ls, hls⟩ := exists_splitLines_eq_cons nl cs
      rw [hls] at ih
      cases hk : keep c <;> simp [splitLines, hc, hk, ih, hls]

section
variable {cfg : Config} {keep : Byte → Bool} (habsent : ∀ c, keep c = false → fontGlyph cfg c = none) (L : LineSpec)
include habsent

/-- Absent characters do not move the cursor (R138). -/
theorem layoutLine_filter (cs : List Byte) (cx cy : Int) :
    layoutLine cfg L (cs.filter keep) cx cy = layoutLine cfg L cs cx cy := by
  induction cs generalizing cx cy with
  | nil => rfl
  | cons c cs ih =>
    cases hk : keep c <;> simp [layoutLine, hk, habsent, ih]

theorem layoutLines_filter (ls : List (List Byte)) (cy : Int) :
    layoutLines cfg L (ls.map (List.filter keep)) cy = layoutLines cfg L ls cy := by
  induction ls generalizing cy with
  | nil => rfl
  | cons l ls ih =>
    have hline : lineRun cfg L (l.filter keep) cy = lineRun cfg L l cy := by
      rw [lineRun, L.order_filter, layoutLine_filter habsent, lineRun]
    simp only [List.map_cons, layoutLines_cons, hline, ih]

end

/-- Settles O37: the TEXT without its absent characters has the same cells, so the same points. -/
theorem textSkipsAbsentCharacters : Obligations.TextSkipsAbsentCharacters := by
  intro s chars x y g scale spacing angle f
  have hplaces : textPlaces s.cfg (chars.filter (fun c => c == s.cfg.newline || (fontGlyph s.cfg c).isSome)) x y scale spacing f =
      textPlaces s.cfg chars x y scale spacing f := by
    rw [textPlaces, splitLines_filter (by simp), layoutLines_filter (by simp +contextual)]
    rfl
  simp only [exec, execText, textPoints, hplaces]

end Sys2Proof.Machine
end

section
/-! SUPPORT. The proofs of the statements about the display protocol: what each of its operations sends, and what it leaves (spec
43_display_protocol.md). -/

namespace Sys2Proof.Machine

/-! ### Answers ahead -/

theorem NextDone.left {m n : Nat} {s : State} (h : NextDone (m + n) s) : NextDone m s := by
  rw [NextDone, ← Nat.min_eq_left (Nat.le_add_right m n), ← List.take_take, h, List.take_replicate]

/-- The answers after a run of Done ones are those not yet taken. -/
theorem NextDone.afterDone {n : Nat} {s : State} {as : List BusAct} (h : NextDone (actsXfers as + n) s) :
    NextDone n (afterDone as s) := by
  rw [NextDone, answers_afterDone, List.take_drop, h, List.drop_replicate, Nat.add_sub_cancel_left]

/-- A first failure beyond a run is still ahead after it. -/
theorem answers_afterDone_of_replicate {as : List BusAct} {s : State} {k : Nat} {more : List BusAnswer}
    (h : s.answers = List.replicate k .done ++ more) (hk : actsXfers as ≤ k) :
    (afterDone as s).answers = List.replicate (k - actsXfers as) .done ++ more := by
  rw [answers_afterDone, h, List.drop_append_of_le_length (by simpa using hk), List.drop_replicate]

/-! ### The lines and the buffer after a run whose every answer is Done -/

/-- The kind of the last transaction of a run, `k` where it has none; `dc_afterDone` ties it to the model. -/
def lastKind (k : BusKind) : List BusAct → BusKind
  | [] => k
  | .xfer kd _ :: as => lastKind kd as
  | .delay _ :: as => lastKind k as
  | .rst _ :: as => lastKind k as

theorem dc_afterDone (as : List BusAct) (s : State) : (afterDone as s).dc = lastKind s.dc as := by
  induction as generalizing s with
  | nil => rfl
  | cons a as ih => cases a <;> exact ih _

theorem lastKind_append (k : BusKind) (as bs : List BusAct) : lastKind k (as ++ bs) = lastKind (lastKind k as) bs := by
  induction as generalizing k with
  | nil => rfl
  | cons a as ih => cases a <;> exact ih _

theorem lastKind_dataBytes (k : BusKind) (ds : List Byte) :
    lastKind k (ds.map fun d => .xfer .data [d]) = if ds = [] then k else .data := by
  induction ds generalizing k with
  | nil => rfl
  | cons d ds ih => simp [lastKind, ih]

theorem lastKind_entryActs (k : BusKind) (e : TableEntry) :
    lastKind k (entryActs e) = if e.data = [] then .cmd else .data := by
  rw [entryActs, lastKind, lastKind_append, lastKind_dataBytes]
  rfl

/-- A table sent after a command byte ends with the kind of its last entry (R154). -/
theorem lastKind_tableActs (es : List TableEntry) : lastKind .cmd (tableActs es) = tableKind es := by
  rcases List.eq_nil_or_concat es with rfl | ⟨init, e, rfl⟩
  · rfl
  · simp only [tableActs, List.concat_eq_append, List.flatMap_append, List.flatMap_singleton, lastKind_append, lastKind_entryActs,
      tableKind, List.getLast?_concat]

/-- A run with a transaction leaves chip-select released. -/
theorem cs_afterDone_of_xfer {as : List BusAct} (s : State) (h : 0 < actsXfers as) : (afterDone as s).cs = .inactive := by
  induction as generalizing s with
  | nil => cases h
  | cons a as ih =>
    cases a with
    | xfer k bytes => exact cs_afterDone as _ rfl
    | delay t => exact ih _ h
    | rst a => exact ih _ h

/-- A run does not look at the buffer. -/
theorem afterDone_withFb (as : List BusAct) (s : State) (m : Memory) :
    afterDone as (s.withFb m) = (afterDone as s).withFb m := by
  induction as generalizing s with
  | nil => rfl
  | cons a as ih =>
    have hcons : ∀ u, afterDone (a :: as) u = afterDone as (afterDone [a] u) := afterDone_append [a] as
    rw [hcons, hcons, ← ih]
    cases a <;> rfl

/-! ### How a protocol operation ends -/

/-- A completion is one with regard to an earlier state that had the same flag and records. -/
theorem completed_of_eq {s u : State} (hf : u.faulted = s.faulted) (ho : u.hostOut = s.hostOut) (st : Status) (v : Gray) :
    Completed st v s (u.complete st v) := by
  obtain ⟨hl, hft, he, hr⟩ := completed_complete u st v
  exact ⟨hl, hf ▸ hft, he, ho ▸ hr⟩

/-- The end of an operation one of whose transactions failed, whatever it had made of `FB` (R183). -/
theorem BusSide.busFault_ends {s u : State} {m : Memory} (h : BusSide (s.withFb m) u) :
    Completed .busFault 0 s u.busFault ∧ PortUntouched s u.busFault ∧ u.busFault.pm = s.pm :=
  ⟨completed_of_eq (s := s) h.faulted h.hostOut .busFault 0, ⟨h.hostIn, h.cfg⟩, h.pm⟩

/-- A run whose every answer is Done has sent its events, whatever is then made of `FB` and `PM`. -/
theorem sent_afterDone {as : List BusAct} (s : State) (hpos : 0 < actsXfers as) (m : Memory) (p : PowerMode) :
    Sent (as.flatMap actEvents) (actsXfers as) (lastKind s.dc as) s ((((afterDone as s).withFb m).withPm p).complete .ok 0) where
  completed := completed_of_eq (u := ((afterDone as s).withFb m).withPm p) (busSide_afterDone as s).faulted
    (busSide_afterDone as s).hostOut .ok 0
  port := ⟨(busSide_afterDone as s).hostIn, (busSide_afterDone as s).cfg⟩
  trace := trace_afterDone as s
  answers := answers_afterDone as s
  cs := cs_afterDone_of_xfer s hpos
  dc := dc_afterDone as s
  free := free_afterDone as s

/-- A protocol operation made of the run `as`, all of whose transactions are answered Done and which leaves `PM` at `p`: what it sends,
and that it leaves `FB` and the reset line. -/
theorem sent_conclude {as : List BusAct} {s t : State} {f : State → State} {p : PowerMode} (hpos : 0 < actsXfers as)
    (hr : ∀ a, BusAct.rst a ∉ as) (h : NextDone (actsXfers as) s) (hf : f (afterDone as s) = (afterDone as s).withPm p)
    (ht : t = (runActs as s).conclude f) :
    Sent (as.flatMap actEvents) (actsXfers as) (lastKind s.dc as) s t ∧ t.fb = s.fb ∧ t.pm = p ∧ t.rst = s.rst := by
  rw [runActs_done as s h, Ran.conclude, hf] at ht
  subst ht
  exact ⟨sent_afterDone s hpos (afterDone as s).fb p, (busSide_afterDone as s).fb, rfl, rst_afterDone as s hr⟩

/-- The same for an operation that leaves `PM`. -/
theorem sent_conclude_id {as : List BusAct} {s t : State} (hpos : 0 < actsXfers as) (hr : ∀ a, BusAct.rst a ∉ as)
    (h : NextDone (actsXfers as) s) (ht : t = (runActs as s).conclude id) :
    Sent (as.flatMap actEvents) (actsXfers as) (lastKind s.dc as) s t ∧ t.fb = s.fb ∧ t.pm = s.pm ∧ t.rst = s.rst :=
  sent_conclude hpos hr h (congrArg (afterDone as s).withPm (busSide_afterDone as s).pm) ht

/-! ### The raw bytes and the toggles (R155, R156, R162 to R164) -/

/-- Settles O38: each of the two is a run of one transaction. -/
theorem rawBytesSendOneTransaction : Obligations.RawBytesSendOneTransaction := by
  intro s b h
  exact ⟨⟨_, rfl, sent_conclude_id (as := [.xfer .cmd [b]]) Nat.one_pos (by simp) h rfl⟩,
    ⟨_, rfl, sent_conclude_id (as := [.xfer .data [b]]) Nat.one_pos (by simp) h rfl⟩⟩

/-- A command and its settle delay, answered Done. -/
theorem sent_commandActs {s t : State} {c : Byte} {d : Nat} (h : NextDone 1 s) (ht : t = (runActs (commandActs c d) s).conclude id) :
    Sent (transaction .cmd [c] ++ delayEvents d) 1 .cmd s t ∧ t.fb = s.fb ∧ t.pm = s.pm ∧ t.rst = s.rst := by
  have hsent := sent_conclude_id (as := commandActs c d) Nat.one_pos (by simp [commandActs]) h ht
  rwa [commandActs, List.flatMap_cons, List.flatMap_singleton] at hsent

/-- Settles O39: for both operand values each toggle is a command and its delay. -/
theorem togglesSendOneCommandAndTheirDelay : Obligations.TogglesSendOneCommandAndTheirDelay := by
  intro s f h
  cases f <;> exact ⟨⟨_, rfl, sent_commandActs h rfl⟩, ⟨_, rfl, sent_commandActs h rfl⟩, ⟨_, rfl, sent_commandActs h rfl⟩⟩

/-! ### The power modes (R160, R161) -/

/-- The requests of LPM and of HPM: a mode command, a table, a settle delay. -/
theorem actEvents_modeActs (c : Byte) (es : List TableEntry) (d : Nat) :
    (.xfer .cmd [c] :: (tableActs es ++ [.delay d]) : List BusAct).flatMap actEvents =
      transaction .cmd [c] ++ tableEvents es ++ delayEvents d := by
  rw [List.flatMap_cons, List.flatMap_append, actEvents_tableActs, List.flatMap_singleton, List.append_assoc]
  rfl

theorem actsXfers_modeActs (c : Byte) (es : List TableEntry) (d : Nat) :
    actsXfers (.xfer .cmd [c] :: (tableActs es ++ [.delay d])) = tableXfers es + 1 := by
  rw [actsXfers, actsXfers_append, actsXfers_tableActs]
  rfl

theorem lastKind_modeActs (k : BusKind) (c : Byte) (es : List TableEntry) (d : Nat) :
    lastKind k (.xfer .cmd [c] :: (tableActs es ++ [.delay d])) = tableKind es := by
  rw [lastKind, lastKind_append, lastKind_tableActs]
  rfl

/-- A power-mode sequence answered Done, after which `PM` is `p`. -/
theorem sent_modeActs {s t : State} {c : Byte} {es : List TableEntry} {d : Nat} {p : PowerMode} (h : NextDone (tableXfers es + 1) s)
    (ht : t = (runActs (.xfer .cmd [c] :: (tableActs es ++ [.delay d])) s).conclude (fun u => u.withPm p)) :
    Sent (transaction .cmd [c] ++ tableEvents es ++ delayEvents d) (tableXfers es + 1) (tableKind es) s t ∧
      t.fb = s.fb ∧ t.pm = p ∧ t.rst = s.rst := by
  have hx := actsXfers_modeActs c es d
  have hsent := sent_conclude (by omega) (by simp [tableActs_no_rst]) (by rwa [hx]) rfl ht
  rwa [actEvents_modeActs, hx, lastKind_modeActs] at hsent

/-- Settles O45: from HighPower LPM is its sequence, then `PM <- LowPower`. -/
theorem lpmEntersLowPower : Obligations.LpmEntersLowPower := by
  intro s hp h
  have hne : s.pm ≠ .lowPower := by simp [hp]
  obtain ⟨hsent, hfb, hpm, hrst⟩ := sent_modeActs (c := s.cfg.cmdLpm) (d := s.cfg.tLpm) h rfl
  exact ⟨_, congrArg Host.Outcome.next (if_neg hne), hsent, hpm, hfb, hrst⟩

/-- Settles O46: from LowPower HPM is its sequence, then `PM <- HighPower`. -/
theorem hpmEntersHighPower : Obligations.HpmEntersHighPower := by
  intro s hp h
  have hne : s.pm ≠ .highPower := by simp [hp]
  obtain ⟨hsent, hfb, hpm, hrst⟩ := sent_modeActs (c := s.cfg.cmdHpm) (d := s.cfg.tHpm) h rfl
  exact ⟨_, congrArg Host.Outcome.next (if_neg hne), hsent, hpm, hfb, hrst⟩

/-- Settles O47: in the target mode each is its completion alone. -/
theorem powerModeOperationsAreIdempotent : Obligations.PowerModeOperationsAreIdempotent := by
  intro s i hi
  have hexec : exec i s = .next (s.complete .ok 0) := by
    rcases hi with ⟨rfl, hp⟩ | ⟨rfl, hp⟩ <;> exact congrArg Host.Outcome.next (if_pos hp)
  exact ⟨_, hexec, completed_complete s .ok 0, ⟨rfl, rfl, rfl, rfl, rfl⟩, ⟨rfl, rfl⟩, rfl, rfl, rfl⟩

/-! ### The window and the flush (R158, R159) -/

theorem windowActs_no_rst (cfg : Config) (a b c d : Byte) : ∀ r, BusAct.rst r ∉ windowActs cfg a b c d := by
  simp [windowActs]

theorem flushActs_no_rst (cfg : Config) (m : Memory) : ∀ r, BusAct.rst r ∉ flushActs cfg m := by
  simp [flushActs, windowActs]

/-- The low byte of an operand is its value modulo 256 (R158). -/
theorem setWidth_eq_ofInt_toInt (v : Half) : v.setWidth 8 = BitVec.ofInt 8 v.toInt :=
  (BitVec.signExtend_eq_setWidth_of_le v (by decide)).symm

/-- Settles O40: with no bad operand SETWIN is the run of the window. -/
theorem setwinSendsTheWindow : Obligations.SetwinSendsTheWindow := by
  intro s cs ce rs re hv h
  have hgood : ¬ (BadWindow s.cfg cs ∨ BadWindow s.cfg ce ∨ BadWindow s.cfg rs ∨ BadWindow s.cfg re) := by
    simp only [List.forall_mem_cons, List.not_mem_nil] at hv
    simp only [BadWindow, sx_eq]
    omega
  have hsent := sent_conclude_id (as := windowActs s.cfg (cs.setWidth 8) (ce.setWidth 8) (rs.setWidth 8) (re.setWidth 8))
    (Nat.succ_pos 5) (windowActs_no_rst _ _ _ _ _) h rfl
  rw [actEvents_windowActs] at hsent
  simp only [← setWidth_eq_ofInt_toInt]
  exact ⟨_, congrArg Host.Outcome.next (if_neg hgood), hsent⟩

theorem length_transaction (k : BusKind) (bytes : List Byte) : (transaction k bytes).length = bytes.length + 3 := by
  simp [transaction]

theorem length_flushHead (cfg : Config) : (flushHead cfg).length = 28 := by
  simp [flushHead, windowEvents, length_transaction]

/-- Byte `i` of a transaction follows the mode-select and the chip-select (R151). -/
theorem getElem?_transaction_byte {k : BusKind} {bytes : List Byte} {i : Nat} (h : i < bytes.length) :
    (transaction k bytes)[i + 2]? = (bytes[i]?).map .byte := by
  rw [transaction, List.append_assoc]
  simp [List.getElem?_append_left, h]

/-- The release is a transaction's last event (R151). -/
theorem getElem?_transaction_release (k : BusKind) (bytes : List Byte) :
    (transaction k bytes)[bytes.length + 2]? = some (.cs .inactive) := by
  simp [transaction]

/-- Settles O41: the run of the flush, and where its burst's events are. -/
theorem flushStreamsTheBuffer : Obligations.FlushStreamsTheBuffer := by
  intro s h
  have hhead := length_flushHead s.cfg
  have hburst : ∀ i, (flushEvents s.cfg s.fb)[28 + i]? = (transaction .data s.fb.bytes)[i]? := by
    intro i
    rw [flushEvents, List.getElem?_append_right (by omega), hhead, Nat.add_sub_cancel_left]
  obtain ⟨hsent, hfb, hpm, hrst⟩ := sent_conclude_id (as := flushActs s.cfg s.fb) (Nat.succ_pos 7) (flushActs_no_rst _ _) h rfl
  rw [actEvents_flushActs] at hsent
  refine ⟨_, flushEvents s.cfg s.fb, rfl, hsent, hfb, hpm, hrst, ?_, ?_, hburst 0, hburst 1, ?_, ?_⟩
  · rw [flushEvents, List.length_append, hhead, length_transaction, Memory.length_bytes]
    rfl
  · rw [flushEvents, ← hhead]
    exact List.take_left
  · intro i
    have hindex : 30 + i.val = 28 + (i.val + 2) := by omega
    rw [hindex, hburst, getElem?_transaction_byte (by simp), Memory.getElem_bytes]
    rfl
  · have hrelease := getElem?_transaction_release .data s.fb.bytes
    rw [Memory.length_bytes] at hrelease
    exact (hburst 30002).trans hrelease

/-- The requests of a flush before its burst. -/
def flushHeadActs (cfg : Config) : List BusAct :=
  windowActs cfg cfg.winCs cfg.winCe cfg.winRs cfg.winRe ++ [.xfer .cmd [cfg.cmdRamwr]]

theorem flushActs_eq (cfg : Config) (m : Memory) : flushActs cfg m = flushHeadActs cfg ++ [.xfer .data m.bytes] := by
  rw [flushActs, flushHeadActs, List.append_assoc]
  rfl

theorem actEvents_flushHeadActs (cfg : Config) : (flushHeadActs cfg).flatMap actEvents = flushHead cfg := by
  rw [flushHeadActs, List.flatMap_append, actEvents_windowActs, List.flatMap_singleton]
  rfl

/-- A run whose last transaction is the first to fail: everything before it is done, and of it the accepted bytes are sent (R183). -/
theorem runActs_fail_last {as : List BusAct} {kd : BusKind} {bytes : List Byte} {s : State} {j : Nat} {rest : List BusAnswer}
    (h : s.answers = List.replicate (actsXfers as) .done ++ .fail j :: rest) :
    runActs (as ++ [.xfer kd bytes]) s =
      .failed { afterDone as s with
        dc := kd, cs := .inactive, trace := (afterDone as s).trace ++ transaction kd (accepted j bytes), answers := rest } := by
  have hans : (afterDone as s).answers = .fail j :: rest := by
    rw [answers_afterDone_of_replicate h le_rfl, Nat.sub_self]
    rfl
  rw [runActs_append, runActs_done as s (nextDone_of_replicate h le_rfl)]
  simp only [Ran.andThen, runActs, runAct, busXfer_fail hans]

theorem exec_flush_failed {s u : State} (h : runActs (flushActs s.cfg s.fb) s = .failed u) :
    exec .flush s = .next u.busFault := by
  rw [exec, execFlush, h]
  rfl

/-- Settles O42: the seven transactions before the burst are done, and the burst is cut after `j` bytes. -/
theorem failedBurstLeavesItsBytes : Obligations.FailedBurstLeavesItsBytes := by
  intro s j rest hj h
  have hacc : accepted j s.fb.bytes = s.fb.bytes.take j := by
    rw [accepted, Memory.length_bytes, Nat.min_eq_left (by omega)]
  have hrun := runActs_fail_last (as := flushHeadActs s.cfg) (kd := .data) (bytes := s.fb.bytes) h
  rw [← flushActs_eq, hacc, trace_afterDone, actEvents_flushHeadActs] at hrun
  have hside := busSide_runActs (flushActs s.cfg s.fb) s
  rw [hrun] at hside
  obtain ⟨hcomp, hport, hpm⟩ := BusSide.busFault_ends (m := s.fb) hside
  refine ⟨_, exec_flush_failed hrun, hcomp, hport, hside.fb, hpm, rfl, rst_afterDone _ s (by simp [flushHeadActs, windowActs]), rfl, ?_⟩
  simp [State.busFault, flushHead, transaction]

/-! ### INIT (R157) -/

theorem actEvents_initActs (cfg : Config) : (initActs cfg).flatMap actEvents = initHead cfg := by
  simp [initActs, initHead, actEvents_tableActs, actEvents]

theorem actsXfers_initActs (cfg : Config) : actsXfers (initActs cfg) = tableXfers cfg.initTable := by
  rw [initActs, actsXfers_append, actsXfers_tableActs]
  exact Nat.zero_add _

/-- INIT once its table has been sent: the flush of a zeroed buffer. -/
theorem init_after_table {s : State} (h : NextDone (actsXfers (initActs s.cfg)) s) :
    (runActs (initActs s.cfg) s).andThen clearAndFlush =
      runActs (flushActs s.cfg (Memory.fill 0)) ((afterDone (initActs s.cfg) s).withFb (Memory.fill 0)) := by
  rw [runActs_done _ s h, Ran.andThen, clearAndFlush, State.withFb_cfg, (busSide_afterDone (initActs s.cfg) s).cfg]
  rfl

theorem rst_afterDone_initActs (s : State) (h : NextDone (actsXfers (initActs s.cfg)) s) :
    (afterDone (initActs s.cfg) s).rst = .released := by
  have hrst := rst_initActs s
  rwa [runActs_done _ s h] at hrst

theorem exec_init_done {s u : State} (h : (runActs (initActs s.cfg) s).andThen clearAndFlush = .done u) :
    exec .init s = .next ((u.withPm .highPower).complete .ok 0) := by
  rw [exec, execInit, h]
  rfl

theorem exec_init_failed {s u : State} (h : (runActs (initActs s.cfg) s).andThen clearAndFlush = .failed u) :
    exec .init s = .next u.busFault := by
  rw [exec, execInit, h]
  rfl

/-- INIT's two parts, all answered Done, are one run, but for the clearing of the buffer. -/
theorem init_done {s : State} (h : NextDone (tableXfers s.cfg.initTable + 8) s) :
    (runActs (initActs s.cfg) s).andThen clearAndFlush =
      .done ((afterDone (initActs s.cfg ++ flushActs s.cfg (Memory.fill 0)) s).withFb (Memory.fill 0)) := by
  rw [← actsXfers_initActs] at h
  have hflush : NextDone (actsXfers (flushActs s.cfg (Memory.fill 0))) ((afterDone (initActs s.cfg) s).withFb (Memory.fill 0)) :=
    h.afterDone
  rw [init_after_table h.left, runActs_done _ _ hflush, afterDone_withFb, afterDone_append]

/-- Settles O43: the pulse, the table and the flush are sent, after which `FB` is zero and `PM` HighPower. -/
theorem initConfiguresClearsAndFlushes : Obligations.InitConfiguresClearsAndFlushes := by
  intro s h
  have hxfers : actsXfers (initActs s.cfg ++ flushActs s.cfg (Memory.fill 0)) = tableXfers s.cfg.initTable + 8 := by
    rw [actsXfers_append, actsXfers_initActs]
    rfl
  have hsent := sent_afterDone (as := initActs s.cfg ++ flushActs s.cfg (Memory.fill 0)) s (by omega) (Memory.fill 0) .highPower
  rw [List.flatMap_append, actEvents_initActs, actEvents_flushActs, hxfers, lastKind_append] at hsent
  refine ⟨_, exec_init_done (init_done h), hsent, Memory.read_fill 0, rfl, ?_⟩
  rw [State.complete_rst, State.withPm_rst, State.withFb_rst, afterDone_append, rst_afterDone _ _ (flushActs_no_rst _ _)]
  rw [← actsXfers_initActs] at h
  exact rst_afterDone_initActs s h.left

/-- Where the first failing transaction is in the table, INIT stops there with `FB` as it was. -/
theorem init_fails_in_table {s : State} {k j : Nat} {rest : List BusAnswer} (hk : k < tableXfers s.cfg.initTable)
    (h : s.answers = List.replicate k .done ++ .fail j :: rest) :
    ∃ u, (runActs (initActs s.cfg) s).andThen clearAndFlush = .failed u ∧ BusSide s u ∧ u.cs = .inactive ∧
      u.rst = .released ∧ u.answers = rest := by
  obtain ⟨u, hu, ha, hc, -⟩ := runActs_fail (initActs s.cfg) s k j rest (by rwa [actsXfers_initActs]) h
  have hside := busSide_runActs (initActs s.cfg) s
  have hrst := rst_initActs s
  rw [hu] at hside hrst
  exact ⟨u, by rw [hu, Ran.andThen], hside, hc, hrst, ha⟩

/-- Where it is in the flush, the buffer has been cleared. -/
theorem init_fails_in_flush {s : State} {k j : Nat} {rest : List BusAnswer} (hk : tableXfers s.cfg.initTable ≤ k)
    (hk8 : k < tableXfers s.cfg.initTable + 8) (h : s.answers = List.replicate k .done ++ .fail j :: rest) :
    ∃ u, (runActs (initActs s.cfg) s).andThen clearAndFlush = .failed u ∧ BusSide (s.withFb (Memory.fill 0)) u ∧
      u.cs = .inactive ∧ u.rst = .released ∧ u.answers = rest := by
  rw [← actsXfers_initActs] at hk hk8
  have htable := nextDone_of_replicate h hk
  have hlt : k - actsXfers (initActs s.cfg) < actsXfers (flushActs s.cfg (Memory.fill 0)) := Nat.sub_lt_left_of_lt_add hk hk8
  have hside := busSide_afterDone (initActs s.cfg) (s.withFb (Memory.fill 0))
  rw [afterDone_withFb] at hside
  have hflush := busSide_runActs (flushActs s.cfg (Memory.fill 0)) ((afterDone (initActs s.cfg) s).withFb (Memory.fill 0))
  obtain ⟨u, hu, ha, hc, -, hr, -⟩ := runActs_fail _ ((afterDone (initActs s.cfg) s).withFb (Memory.fill 0)) _ j rest hlt
    (answers_afterDone_of_replicate h hk)
  rw [hu] at hflush
  exact ⟨u, (init_after_table htable).trans hu, hside.trans hflush, hc,
    (hr (flushActs_no_rst _ _)).trans (rst_afterDone_initActs s htable), ha⟩

/-- Settles O44: the table and the flush are the two places where INIT can fail. -/
theorem failedInitKeepsThePowerMode : Obligations.FailedInitKeepsThePowerMode := by
  intro s k j rest hk h
  by_cases hin : k < tableXfers s.cfg.initTable
  · obtain ⟨u, hu, hside, hc, hr, ha⟩ := init_fails_in_table hin h
    obtain ⟨hcomp, hport, hpm⟩ := BusSide.busFault_ends (m := s.fb) hside
    exact ⟨_, exec_init_failed hu, hcomp, hport, hpm, hc, hr, ha, fun _ => hside.fb, fun hle => absurd hin (Nat.not_lt.mpr hle)⟩
  · obtain ⟨u, hu, hside, hc, hr, ha⟩ := init_fails_in_flush (Nat.not_lt.mp hin) hk h
    obtain ⟨hcomp, hport, hpm⟩ := hside.busFault_ends
    refine ⟨_, exec_init_failed hu, hcomp, hport, hpm, hc, hr, ha, fun hlt => absurd hlt hin, fun _ i => ?_⟩
    rw [State.busFault, State.complete_fb, hside.fb]
    exact Memory.read_fill 0 i

/-! ### Drawing operations and the bus (R167 (c), R30) -/

/-- Settles O51: a drawing operation draws or is rejected; the other ends are those of protocol operations. -/
theorem drawingNeverTouchesTheBus : Obligations.DrawingNeverTouchesTheBus := by
  intro i s hdraw
  obtain ⟨t, ht, hend⟩ := exec_ends i s
  refine ⟨t, ?_⟩
  cases hend with
  | drew fb v hd hm hv hw hg he =>
    subst he
    exact ⟨.ok, v, ht, completed_of_eq (s := s) (u := s.withFb fb) rfl rfl .ok v, ⟨rfl, rfl, rfl, rfl, rfl⟩, ⟨rfl, rfl⟩, rfl,
      by simp [faultedAfter], rfl⟩
  | rejected hm he =>
    subst he
    obtain ⟨hc, hb, hp, -, hpm, hfree⟩ := rejected_rejectOp s
    exact ⟨.reject, 0, ht, hc, hb, hp, hpm, by simp [State.rejectOp, faultedAfter], hfree⟩
  | idempotent hp he => rcases hp with rfl | rfl <;> cases hdraw
  | sent u f hd hm hr hc hf he => simp [hd] at hdraw
  | failed u hd hm hr hc he => simp [hd] at hdraw
  | hung hd hr hc => simp [hd] at hdraw

end Sys2Proof.Machine
end

section
/-! SUPPORT. The proofs of the statements about how operations end: with a status the table allows, with REJECT and no effect, at the first
failing transaction, at the first stalling one (spec 60_exceptions.md R180 to R190). -/

namespace Sys2Proof.Machine

/-! ### The status table (R185) -/

/-- A protocol operation leaves the host's halfwords and the configuration (R34, R38). -/
theorem Reached.portUntouched {i : Instr} {s u : State} (h : Reached i s u) : PortUntouched s u :=
  ⟨h.side.hostIn, h.side.cfg⟩

theorem Finish.portUntouched {i : Instr} {f : State → State} {s u : State} (hf : Finish i f) (h : PortUntouched s u) :
    PortUntouched s (f u) := by
  rcases hf.eq u with e | ⟨p, e⟩ <;> rw [e]
  · exact h
  · exact ⟨h.hostIn, h.cfg⟩

theorem PortUntouched.complete {s u : State} (h : PortUntouched s u) (st : Status) (v : Gray) :
    PortUntouched s (u.complete st v) :=
  ⟨h.hostIn, h.cfg⟩

/-- Settles O50, end by end. -/
theorem operationsEndAsTheTableSays : Obligations.OperationsEndAsTheTableSays := by
  intro i s
  obtain ⟨t, ht, hend⟩ := exec_ends i s
  refine ⟨t, ht, ?_⟩
  cases hend with
  | drew fb v hd hm hv hw hg he =>
    subst he
    exact ⟨.inl ⟨.ok, v, completed_of_eq (s := s) (u := s.withFb fb) rfl rfl .ok v, hm, hv⟩, ⟨rfl, rfl⟩⟩
  | rejected hm he =>
    subst he
    exact ⟨.inl ⟨.reject, 0, completed_complete s .reject 0, hm, fun h => absurd rfl h⟩, portUntouched_complete s .reject 0⟩
  | idempotent hp he =>
    subst he
    have hm : mayEnd i .ok = true := by rcases hp with rfl | rfl <;> rfl
    exact ⟨.inl ⟨.ok, 0, completed_complete s .ok 0, hm, fun h => absurd rfl h⟩, portUntouched_complete s .ok 0⟩
  | sent u f hd hm hr hc hf he =>
    subst he
    exact ⟨.inl ⟨.ok, 0, hr.completed hf .ok 0, hm, fun h => absurd rfl h⟩, (hf.portUntouched hr.portUntouched).complete .ok 0⟩
  | failed u hd hm hr hc he =>
    subst he
    exact ⟨.inl ⟨.busFault, 0, hr.completed (.inl rfl) .busFault 0, hm, fun h => absurd rfl h⟩,
      hr.portUntouched.complete .busFault 0⟩
  | hung hd hr hc => exact ⟨.inr ⟨hr.hung hc, hd⟩, hr.portUntouched⟩

/-! ### REJECT (R182) -/

/-- A hanging operation returns no record (R186). -/
theorem Hung.not_completed {s t : State} (h : Hung s t) (st : Status) (v : Gray) : ¬ Completed st v s t := by
  intro hc
  have hlen := congrArg List.length (h.hostOut.symm.trans hc.hostOut)
  simp at hlen

/-- A state that an operation has completed to with one status is no completion with another: `LAST` differs. -/
theorem Completed.ne_complete {st st' : Status} {v : Gray} {s t : State} (h : Completed st v s t) (hne : st' ≠ st) (u : State)
    (v' : Gray) : t ≠ u.complete st' v' := by
  rintro rfl
  exact hne h.last

/-- Settles O52: the other ends leave another status in `LAST`, or no record. -/
theorem rejectedOperationsHaveNoEffect : Obligations.RejectedOperationsHaveNoEffect := by
  intro i s t h hrej
  cases ends_of_exec h with
  | drew fb v hd hm hv hw hg ht => exact absurd ht (hrej.ne_complete Status.noConfusion _ _)
  | rejected hm ht =>
    rw [ht]
    exact rejected_rejectOp s
  | idempotent hp ht => exact absurd ht (hrej.ne_complete Status.noConfusion _ _)
  | sent u f hd hm hr hc hf ht => exact absurd ht (hrej.ne_complete Status.noConfusion _ _)
  | failed u hd hm hr hc ht => exact absurd ht (hrej.ne_complete Status.noConfusion _ _)
  | hung hd hr hc => exact absurd hrej ((hr.hung hc).not_completed .reject 0)

/-- SETWIN with an operand outside 0 to 255 is rejected (R158). -/
theorem exec_setwin_bad {cs ce rs re : Half} (hv : ∃ v ∈ [cs, ce, rs, re], v.toInt < 0 ∨ 255 < v.toInt) (s : State) :
    exec (.setwin cs ce rs re) s = .next s.rejectOp := by
  have hbad : BadWindow s.cfg cs ∨ BadWindow s.cfg ce ∨ BadWindow s.cfg rs ∨ BadWindow s.cfg re := by
    simpa [BadWindow] using hv
  exact congrArg Host.Outcome.next (if_pos hbad)

/-- CIRCLEAA with a negative radius or without `HAS_AA` is rejected (R118, R82 (f)). -/
theorem exec_circleaa_bad {s : State} {r : Half} (h : r.toInt < 0 ∨ s.cfg.hasAA = false) (x0 y0 : Half) (g : Gray) :
    exec (.circleaa x0 y0 r g) s = .next s.rejectOp := by
  refine congrArg Host.Outcome.next ?_
  by_cases haa : s.cfg.hasAA = false
  · exact if_pos haa
  · exact (if_neg haa).trans (if_pos (h.resolve_right haa))

/-- Settles O30: each test is the condition of its operation's first branch. -/
theorem badOperandsAreRejected : Obligations.BadOperandsAreRejected := by
  intro s x y w h r cs ce rs re angle g f ch spacing chars i hbad
  have hexec : exec i s = .next s.rejectOp := by
    obtain ⟨rfl, hneg⟩ | ⟨rfl, hneg⟩ | ⟨rfl, hneg⟩ | rfl | rfl | ⟨rfl, hv⟩ := hbad
    · exact congrArg Host.Outcome.next (if_pos hneg)
    · exact congrArg Host.Outcome.next (if_pos hneg)
    · exact exec_circleaa_bad hneg x y g
    · rfl
    · rfl
    · exact exec_setwin_bad hv s
  exact ⟨_, hexec, rejected_rejectOp s⟩

/-! ### The requests of an operation -/

/-- The requests an operation makes when all its transactions succeed (R155 to R164), as one run; `exec_runs_opActs` ties it to `exec`. -/
def opActs (s : State) : Instr → List BusAct
  | .setpx _ _ _ => []
  | .getpx _ _ => []
  | .fill _ => []
  | .line _ _ _ _ _ => []
  | .rect _ _ _ _ _ _ => []
  | .circle _ _ _ _ _ => []
  | .circleaa _ _ _ _ => []
  | .glyph _ _ _ _ _ _ => []
  | .text _ _ _ _ _ _ _ _ => []
  | .wrcmd b => [.xfer .cmd [b]]
  | .wrdata b => [.xfer .data [b]]
  | .init => initActs s.cfg ++ flushActs s.cfg State.reset.fb
  | .setwin cs ce rs re =>
    if BadWindow s.cfg cs ∨ BadWindow s.cfg ce ∨ BadWindow s.cfg rs ∨ BadWindow s.cfg re then []
    else windowActs s.cfg (cs.setWidth 8) (ce.setWidth 8) (rs.setWidth 8) (re.setWidth 8)
  | .flush => flushActs s.cfg s.fb
  | .lpm => if s.pm = .lowPower then [] else lpmActs s.cfg
  | .hpm => if s.pm = .highPower then [] else hpmActs s.cfg
  | .sleep f => if f then commandActs s.cfg.cmdSlpin s.cfg.tSlpin else commandActs s.cfg.cmdSlpout s.cfg.tSlpout
  | .dispon f => if f then commandActs s.cfg.cmdDispon s.cfg.tDispon else commandActs s.cfg.cmdDispoff s.cfg.tDispoff
  | .invert f => if f then commandActs s.cfg.cmdInvon s.cfg.tInvon else commandActs s.cfg.cmdInvoff s.cfg.tInvoff

theorem actsXfers_opActs (s : State) (i : Instr) : actsXfers (opActs s i) = opXfers s i := by
  cases i with
  | init =>
    rw [opActs, actsXfers_append, actsXfers_initActs]
    rfl
  | setwin cs ce rs re =>
    rw [opActs, apply_ite actsXfers]
    rfl
  | lpm =>
    rw [opActs, apply_ite actsXfers, lpmActs, actsXfers_modeActs]
    rfl
  | hpm =>
    rw [opActs, apply_ite actsXfers, hpmActs, actsXfers_modeActs]
    rfl
  | sleep f => cases f <;> rfl
  | dispon f => cases f <;> rfl
  | invert f => cases f <;> rfl
  | _ => rfl

theorem actEvents_commandActs (c : Byte) (d : Nat) :
    (commandActs c d).flatMap actEvents = transaction .cmd [c] ++ delayEvents d := by
  rw [commandActs, List.flatMap_cons, List.flatMap_singleton]
  rfl

theorem actEvents_opActs (s : State) (i : Instr) : (opActs s i).flatMap actEvents = opEvents s i := by
  cases i with
  | init => rw [opActs, opEvents, List.flatMap_append, actEvents_initActs, actEvents_flushActs]
  | setwin cs ce rs re =>
    rw [opActs, opEvents, apply_ite (List.flatMap actEvents), actEvents_windowActs]
    simp only [setWidth_eq_ofInt_toInt, List.flatMap_nil]
  | flush => exact actEvents_flushActs s.cfg s.fb
  | lpm =>
    rw [opActs, opEvents, apply_ite (List.flatMap actEvents), lpmActs, actEvents_modeActs]
    rfl
  | hpm =>
    rw [opActs, opEvents, apply_ite (List.flatMap actEvents), hpmActs, actEvents_modeActs]
    rfl
  | sleep f => cases f <;> exact actEvents_commandActs _ _
  | dispon f => cases f <;> exact actEvents_commandActs _ _
  | invert f => cases f <;> exact actEvents_commandActs _ _
  | wrcmd b => exact List.flatMap_singleton _ _
  | wrdata b => exact List.flatMap_singleton _ _
  | _ => rfl

/-! ### Operations whose answers are not all Done (R183, R186) -/

/-- A run whose first answer that is not Done is one of its transactions' does not go on to what follows it. -/
theorem andThen_of_answer {as : List BusAct} {s : State} {k : Nat} {a : BusAnswer} {more : List BusAnswer} (hk : k < actsXfers as)
    (ha : a ≠ .done) (h : s.answers = List.replicate k .done ++ a :: more) (f g : State → Ran) :
    (runActs as s).andThen f = (runActs as s).andThen g := by
  cases a with
  | done => exact absurd rfl ha
  | fail j =>
    obtain ⟨u, hu, -⟩ := runActs_fail as s k j more hk h
    rw [hu]
    rfl
  | stall j =>
    obtain ⟨u, hu, -⟩ := runActs_stall as s k j more hk h
    rw [hu]
    rfl

/-- INIT, with an answer ahead that is not Done: its two parts are one run, from a state that differs in `FB` at most, which is cleared
between the parts (R157). -/
theorem init_eq_runActs {s : State} {k : Nat} {a : BusAnswer} {more : List BusAnswer} (ha : a ≠ .done)
    (h : s.answers = List.replicate k .done ++ a :: more) :
    ∃ m, (runActs (initActs s.cfg) s).andThen clearAndFlush = runActs (opActs s .init) (s.withFb m) := by
  by_cases hk : k < actsXfers (initActs s.cfg)
  · refine ⟨s.fb, ?_⟩
    rw [andThen_of_answer hk ha h clearAndFlush (runActs (flushActs s.cfg State.reset.fb)), ← runActs_append]
    rfl
  · refine ⟨Memory.fill 0, ?_⟩
    have htable := nextDone_of_replicate h (Nat.not_lt.mp hk)
    rw [init_after_table htable, ← afterDone_withFb, opActs, runActs_append,
      runActs_done (initActs s.cfg) (s.withFb (Memory.fill 0)) htable]
    rfl

/-- An operation whose test takes the branch without transactions has none to fail. -/
theorem not_of_lt_ite {c : Prop} [Decidable c] {k n : Nat} (hk : k < if c then 0 else n) : ¬ c := by
  intro hc
  rw [if_pos hc] at hk
  exact Nat.not_lt_zero k hk

/-- An operation, with an answer to one of its transactions ahead that is not Done, is the run of its requests, from a state that differs
in `FB` at most. -/
theorem exec_runs_opActs {s : State} {i : Instr} {k : Nat} {a : BusAnswer} {more : List BusAnswer} (hk : k < opXfers s i)
    (ha : a ≠ .done) (h : s.answers = List.replicate k .done ++ a :: more) :
    ∃ m f, exec i s = .next ((runActs (opActs s i) (s.withFb m)).conclude f) := by
  cases i with
  | init =>
    obtain ⟨m, hm⟩ := init_eq_runActs ha h
    exact ⟨m, _, by rw [exec, execInit, hm]⟩
  | setwin cs ce rs re =>
    have hgood : ¬ (BadWindow s.cfg cs ∨ BadWindow s.cfg ce ∨ BadWindow s.cfg rs ∨ BadWindow s.cfg re) := not_of_lt_ite hk
    refine ⟨s.fb, id, ?_⟩
    rw [opActs, if_neg hgood]
    exact congrArg Host.Outcome.next (if_neg hgood)
  | lpm =>
    have hne : s.pm ≠ .lowPower := not_of_lt_ite hk
    refine ⟨s.fb, fun t => t.withPm .lowPower, ?_⟩
    rw [opActs, if_neg hne]
    exact congrArg Host.Outcome.next (if_neg hne)
  | hpm =>
    have hne : s.pm ≠ .highPower := not_of_lt_ite hk
    refine ⟨s.fb, fun t => t.withPm .highPower, ?_⟩
    rw [opActs, if_neg hne]
    exact congrArg Host.Outcome.next (if_neg hne)
  | wrcmd b => exact ⟨s.fb, id, rfl⟩
  | wrdata b => exact ⟨s.fb, id, rfl⟩
  | flush => exact ⟨s.fb, id, rfl⟩
  | sleep f => exact ⟨s.fb, id, rfl⟩
  | dispon f => exact ⟨s.fb, id, rfl⟩
  | invert f => exact ⟨s.fb, id, rfl⟩
  | _ => exact absurd hk (Nat.not_lt_zero k)

/-- The cut of an operation's events in transaction number `k`. -/
theorem cutAt_opEvents {s : State} {i : Instr} {k j : Nat} {pre : List BusAct} {kd : BusKind} {bytes : List Byte}
    (hx : XferAt (opActs s i) k pre kd bytes) (hj : j < burstLength k (opEvents s i)) :
    cutAt j k (opEvents s i) = pre.flatMap actEvents ++ ([.dc kd, .cs .active] ++ (accepted j bytes).map .byte) := by
  rw [← actEvents_opActs] at hj ⊢
  exact hx.cutAt_eq hj

/-- An operation whose first answer that is not Done is Fail: the state it ends with BUSFAULT in (R183). -/
theorem exec_fails {s : State} {i : Instr} {k j : Nat} {rest : List BusAnswer} (hk : k < opXfers s i)
    (h : s.answers = List.replicate k .done ++ .fail j :: rest) :
    ∃ u m, exec i s = .next u.busFault ∧ BusSide (s.withFb m) u ∧ u.cs = .inactive ∧ u.answers = rest ∧ s.trace <+: u.trace ∧
      (j < burstLength k (opEvents s i) → u.trace = s.trace ++ cutAt j k (opEvents s i) ++ [.cs .inactive]) := by
  obtain ⟨m, f, hexec⟩ := exec_runs_opActs hk BusAnswer.noConfusion h
  have hside := busSide_runActs (opActs s i) (s.withFb m)
  obtain ⟨u, hu, ha, hc, -, -, pre, kd, bytes, hx, ht⟩ :=
    runActs_fail (opActs s i) (s.withFb m) k j rest (by rwa [actsXfers_opActs]) h
  rw [hu] at hexec hside
  rw [State.withFb_trace, List.append_assoc] at ht
  refine ⟨u, m, hexec, hside, hc, ha, ⟨_, ht.symm⟩, fun hj => ?_⟩
  rw [ht, cutAt_opEvents hx hj, transaction]
  simp only [List.append_assoc]

/-- An operation whose first answer that is not Done is Stall: the state it hangs in (R186). -/
theorem exec_stalls {s : State} {i : Instr} {k j : Nat} {more : List BusAnswer} (hk : k < opXfers s i)
    (h : s.answers = List.replicate k .done ++ .stall j :: more) :
    ∃ u m, exec i s = .next u ∧ BusSide (s.withFb m) u ∧ u.cs = .active ∧ s.trace <+: u.trace ∧
      (j < burstLength k (opEvents s i) → u.trace = s.trace ++ cutAt j k (opEvents s i)) := by
  obtain ⟨m, f, hexec⟩ := exec_runs_opActs hk BusAnswer.noConfusion h
  have hside := busSide_runActs (opActs s i) (s.withFb m)
  obtain ⟨u, hu, hc, pre, kd, bytes, hx, ht⟩ :=
    runActs_stall (opActs s i) (s.withFb m) k j more (by rwa [actsXfers_opActs]) h
  rw [hu] at hexec hside
  rw [State.withFb_trace, List.append_assoc] at ht
  refine ⟨u, m, hexec, hside, hc, ⟨_, ht.symm⟩, fun hj => ?_⟩
  rw [ht, cutAt_opEvents hx hj]

/-- Settles O48: the operation is the run of its requests, which ends at the transaction that fails. -/
theorem firstFailureEndsInBusfault : Obligations.FirstFailureEndsInBusfault := by
  intro s i k j rest hk h
  obtain ⟨u, m, hexec, hside, hc, ha, hpre, hcut⟩ := exec_fails hk h
  obtain ⟨hcomp, -, hpm⟩ := hside.busFault_ends
  exact ⟨_, hexec, hcomp, by simp [hcomp.faulted], hpm, hc, ha, hpre, hcut⟩

/-- Accepting an operation leaves what its requests depend on. -/
theorem opXfers_accept (s : State) (i i' : Instr) (rest : List Half) : opXfers (s.accept i' rest) i = opXfers s i := by
  cases i <;> rfl

theorem opEvents_accept (s : State) (i i' : Instr) (rest : List Half) : opEvents (s.accept i' rest) i = opEvents s i := by
  cases i <;> rfl

/-- An engine that executes an operation has no step (R186). -/
theorem step_executing {s : State} {i : Instr} (h : s.engine = .executing i) : step s = .fault .busStalled := by
  rw [step, h]

/-- Settles O49: the accepted operation is the run of its requests, which stays in the transaction that stalls. -/
theorem stalledTransferHangsTheEngine : Obligations.StalledTransferHangsTheEngine := by
  intro s i rest k j more he hd hk h
  obtain ⟨u, m, hexec, hside, hc, hpre, hcut⟩ := exec_stalls (s := s.accept i rest) (by rwa [opXfers_accept]) h
  rw [opEvents_accept] at hcut
  exact ⟨u, (stepRunsTheDecodedOperation s i rest he hd).trans hexec, hside.hostOut, hc, hside.last, hside.faulted, hside.engine,
    hpre, hcut, step_executing hside.engine⟩

end Sys2Proof.Machine
end
